-- ==== Sys2Proof/Word.lean ====
section
/-! DEFINITION. The word types of BROCA-EPC (spec/00_scope.md R13, R15; spec/20_memory.md R53): every value is
unsigned, and each width below is the one the spec gives the item. -/

namespace Sys2Proof

/-- One entropy or digest byte, an 8-bit word value (R15). -/
abbrev Byte := BitVec 8

/-- A word index, 0 to 2047: the position of a word in the host's wordlist (R18). -/
abbrev Index := BitVec 11

/-- The data of one request or response beat, 16 bits (R8, R41). -/
abbrev Half := BitVec 16

/-- A 32-byte digest, byte 0 first (R5 `DIGBYTES`, R151). -/
abbrev Digest := Vector Byte 32

end Sys2Proof
end

