-- ==== Sys2Proof/Config.lean ====
section
/-! DEFINITION. What a platform fixes and a run never changes (spec/00_scope.md R7, spec/20_memory.md R58): the
configuration's type. The instantiation that `exec` and `step` use is `platformConfig` in
Sys2Proof/Machine/Sha256.lean. -/

namespace Sys2Proof

/-- The configuration arguments of R7. `sha256` is the digest primitive behind the digest port: a total function of
the message bytes alone, the same for every request of a platform (R152, R155). `nlanes` is the number of independent
converter instances, a positive number, default 1 (R7, R204). The other parameters of R7, the digest unit's failures and
the entropy draws, are chosen anew for every request: they are arguments of `portStep` and data of `Agents`. The wordlist
is no field: the block never sees a word. -/
structure Config where
  sha256 : List Byte → Digest
  nlanes : Nat := 1
  nlanes_pos : 0 < nlanes := by decide

end Sys2Proof
end

