-- ==== Sys2Proof/Syntax.lean ====
section
/-! DEFINITION. The syntax of BROCA-EPC: beats, and the four operations of spec/opcode_table.json as request frames
(spec/30_encoding.md R60 to R68). An operation's operands are all in its frame (spec/10_state.md R20), so a
constructor holds the frame's fields, the must-be-zero ones too: a frame whose header has `OP` in 1 to 4 is that
operation's frame even where an MBZ field is not zero (R67), and the operation itself then raises `ILLEGAL_FRAME`
(R91, R105, R121, R140). A frame with a reserved `OP` is no operation and has no constructor. -/

namespace Sys2Proof

/-- One transfer on the request or response channel: 16 data bits and the sideband `last` (R18, R41). -/
structure Beat where
  data : Half
  last : Bool
deriving DecidableEq, Repr

/-- A payload beat of `ENC` (R62): bits 15:8 must be zero, bits 7:0 are one entropy byte. -/
structure ByteBeat where
  mbz : BitVec 8
  byte : Byte
deriving DecidableEq, Repr

/-- A payload beat of `DEC` or `VAL`, a token (R63): bits 15:12 must be zero, bit 11 is `MISS`, bits 10:0 are `IDX`. -/
structure TokenBeat where
  mbz : BitVec 4
  miss : Bool
  idx : Index
deriving DecidableEq, Repr

/-- The four operations (R236), each with every field of its request frame. -/
inductive Instr where
  /-- `ENC` (R62, R91): header bits 11:0 (MBZ), then one byte beat per entropy byte. -/
  | enc (mbz : BitVec 12) (bytes : List ByteBeat)
  /-- `DEC` (R63, R121): header bits 11:0 (MBZ), then one token beat per word. -/
  | dec (mbz : BitVec 12) (tokens : List TokenBeat)
  /-- `VAL` (R64, R140): header bits 11:0 (MBZ), then one token beat per word. -/
  | val (mbz : BitVec 12) (tokens : List TokenBeat)
  /-- `GEN` (R65, R105): header bits 11:9 (MBZ) and 8:0 (`STRENGTH`); any payload beat makes the frame malformed. -/
  | gen (mbz : BitVec 3) (strength : BitVec 9) (extra : List Half)
deriving DecidableEq, Repr

end Sys2Proof
end

