-- ==== Sys2Proof/WellFormed.lean ====
section
/-! DEFINITION. Which frames are well-formed (spec/30_encoding.md R69): every must-be-zero field of every beat is
zero, also past the 32nd byte or the 24th token, and `GEN` has no payload. A frame that is not well-formed is still
decoded and run: its operation raises `ILLEGAL_FRAME`. -/

namespace Sys2Proof

/-- A byte beat keeps bits 15:8 zero (R62). -/
def ByteBeat.clean (b : ByteBeat) : Bool := b.mbz == 0

/-- A token beat keeps bits 15:12 zero (R63). -/
def TokenBeat.clean (t : TokenBeat) : Bool := t.mbz == 0

/-- The frame breaks no format rule of R69. -/
def Instr.wellFormed : Instr → Bool
  | .enc mbz bytes => mbz == 0 && bytes.all ByteBeat.clean
  | .dec mbz tokens => mbz == 0 && tokens.all TokenBeat.clean
  | .val mbz tokens => mbz == 0 && tokens.all TokenBeat.clean
  | .gen mbz _ extra => mbz == 0 && extra.isEmpty

end Sys2Proof
end

