-- ==== Sys2Proof/Decode.lean ====
section
/-! DEFINITION. The frame decoder (spec/30_encoding.md R60 to R69), total on any beats and rejecting by name, and the
encoder written from the same tables. A frame is the run of beats up to the first with `last = 1` (R60). -/

namespace Sys2Proof

/-- Why beats give no operation. -/
inductive DecodeError where
  /-- No beat has `last = 1`: the frame has not ended, nothing is decided yet (R60, R222). -/
  | incomplete
  /-- The header's `OP` is reserved: 0 or 5 to 15 (R68, R69). -/
  | illegalOp (op : BitVec 4)
deriving DecidableEq, Repr

/-- `OP`, header bits 15:12 (R61). -/
def opField (h : Half) : BitVec 4 := h.extractLsb' 12 4

/-- Header bits 11:0, MBZ for `ENC`, `DEC`, `VAL` (R61). -/
def lowField (h : Half) : BitVec 12 := h.extractLsb' 0 12

/-- Header bits 11:9, MBZ for `GEN` (R61). -/
def genMbzField (h : Half) : BitVec 3 := h.extractLsb' 9 3

/-- Header bits 8:0, `STRENGTH` of `GEN` (R61, R66). -/
def strengthField (h : Half) : BitVec 9 := h.extractLsb' 0 9

/-- A payload beat's data read as a byte beat (R62). -/
def byteBeat (p : Half) : ByteBeat := ⟨p.extractLsb' 8 8, p.extractLsb' 0 8⟩

/-- A payload beat's data read as a token (R63). -/
def tokenBeat (p : Half) : TokenBeat := ⟨p.extractLsb' 12 4, p.getLsbD 11, p.extractLsb' 0 11⟩

/-- The opcode numbers (R68). -/
def opEnc : BitVec 4 := 1
def opDec : BitVec 4 := 2
def opVal : BitVec 4 := 3
def opGen : BitVec 4 := 4

/-- The operation of a frame with header `h` and payload data `ps` (R67): the top four header bits choose it. -/
def decodeWords (h : Half) (ps : List Half) : Except DecodeError Instr :=
  if opField h = opEnc then .ok (.enc (lowField h) (ps.map byteBeat))
  else if opField h = opDec then .ok (.dec (lowField h) (ps.map tokenBeat))
  else if opField h = opVal then .ok (.val (lowField h) (ps.map tokenBeat))
  else if opField h = opGen then .ok (.gen (genMbzField h) (strengthField h) ps)
  else .error (.illegalOp (opField h))

/-- The data of the first frame of a beat stream and the beats after it; nothing while no beat has `last = 1` (R60). -/
def splitFrame : List Beat → Option (List Half × List Beat)
  | [] => none
  | b :: bs =>
    if b.last then some ([b.data], bs)
    else
      match splitFrame bs with
      | some (ds, rest) => some (b.data :: ds, rest)
      | none => none

/-- Decodes the first frame of a beat stream: the operation and the beats after its frame, or the name of the reason
there is none. -/
def decode (bs : List Beat) : Except DecodeError (Instr × List Beat) :=
  match splitFrame bs with
  | some (h :: ps, rest) =>
    match decodeWords h ps with
    | .ok i => .ok (i, rest)
    | .error e => .error e
  | _ => .error .incomplete

/-- Beats carrying the data `ds`, `last = 1` on the final one and on no other (R60, R70). -/
def markLast : List Half → List Beat
  | [] => []
  | [d] => [⟨d, true⟩]
  | d :: d' :: ds => ⟨d, false⟩ :: markLast (d' :: ds)

/-- The data of a byte beat (R62). -/
def byteData (b : ByteBeat) : Half := b.mbz ++ b.byte

/-- The data of a token beat (R63). -/
def tokenData (t : TokenBeat) : Half := t.mbz ++ (BitVec.ofBool t.miss ++ t.idx)

/-- The header of an operation's request frame (R61). -/
def headerData : Instr → Half
  | .enc mbz _ => opEnc ++ mbz
  | .dec mbz _ => opDec ++ mbz
  | .val mbz _ => opVal ++ mbz
  | .gen mbz strength _ => opGen ++ (mbz ++ strength)

/-- The payload data of an operation's request frame (R62 to R65). -/
def payloadData : Instr → List Half
  | .enc _ bytes => bytes.map byteData
  | .dec _ tokens => tokens.map tokenData
  | .val _ tokens => tokens.map tokenData
  | .gen _ _ extra => extra

/-- The request frame of an operation: header, then payload (R60). -/
def encode (i : Instr) : List Beat := markLast (headerData i :: payloadData i)

/-- The beats of an instruction numbered as spec/opcode_table.json numbers it: beat `k` is bits 16k+15 .. 16k of `w`,
the header first, `last = 1` on the final beat. A row of the table has 16 bits, the header alone. -/
def tableBeats (nbits w : Nat) : List Beat :=
  markLast ((List.range (max 1 ((nbits + 15) / 16))).map fun k => BitVec.ofNat 16 (w / 2 ^ (16 * k)))

/-- The instruction the decoder reads from the table's word `w` of `nbits` bits. -/
def decodeTableWord (nbits w : Nat) : Option Instr :=
  match decode (tableBeats nbits w) with
  | .ok (i, _) => some i
  | .error _ => none

end Sys2Proof
end

