-- ==== Sys2Proof/Machine/State.lean ====
section
/-! DEFINITION. The state of one BROCA-EPC lane with its ports, as plain data (spec/10_state.md R21, R28; spec/00_scope.md
R10 to R12), and why a step can stop. The block has no addressable memory (spec/20_memory.md R40), so State holds none. -/

namespace Sys2Proof.Machine

/-- The values of the phase register `PH` (R22). The values 5 to 7 are never taken, so five constructors do (R27).
DEDUCED (log 9), safe. -/
inductive Phase where
  /-- Waiting for a header beat. -/
  | idle
  /-- Inside a request frame, consuming payload beats. -/
  | recv
  /-- `GEN` only: an entropy request is outstanding. -/
  | rngw
  /-- A digest request is outstanding. -/
  | hashw
  /-- Sending the response frame. -/
  | emit
deriving DecidableEq, Repr

/-- The working registers, each with the width of R21, and the model's header-sent bit `hs`. -/
structure Regs where
  /-- `PH`, the phase. -/
  ph : Phase
  /-- `OPR`, the opcode latched from the request header. -/
  opr : BitVec 4
  /-- `STR`, `strengthBits` latched from a `GEN` header. -/
  str : BitVec 9
  /-- `EB[0..31]`, the entropy bytes. -/
  eb : Vector Byte 32
  /-- `EL`, the number of entropy bytes held, 33 meaning more than 32 were offered. -/
  el : BitVec 6
  /-- `EA`, the true number of `ENC` payload beats modulo 4. -/
  ea : BitVec 2
  /-- `WB[0..23]`, the word indices. -/
  wb : Vector Index 24
  /-- `WC`, the number of indices held, 25 meaning more than 24 were offered. -/
  wc : BitVec 5
  /-- `CK`, the claimed checksum in its low `CS` bits. -/
  ck : BitVec 8
  /-- `DG[0..31]`, the digest returned by the digest unit. -/
  dg : Digest
  /-- `ILL`: the header's opcode is reserved. -/
  ill : Bool
  /-- `BAD`: some MBZ field was not zero, or a `GEN` frame had payload. -/
  bad : Bool
  /-- `MS`: some token had `MISS = 1`. -/
  ms : Bool
  /-- `RST`, the status to put in the response header. -/
  rst : BitVec 4
  /-- `RIN`, the info byte to put in the response header. -/
  rin : BitVec 8
  /-- `EC`, the number of response payload beats already sent. -/
  ec : BitVec 6
  /-- The response header has been sent. DEDUCED (log 4), safe: R35 sends the header and the first payload beat both
  with `EC = 0`, so the emit step must remember which of the two comes next. -/
  hs : Bool
deriving DecidableEq, Repr

/-- Every working register zero and `PH = IDLE`: the value at reset (R28) and between frames (R26). -/
def Regs.zero : Regs where
  ph := .idle
  opr := 0
  str := 0
  eb := Vector.replicate 32 0
  el := 0
  ea := 0
  wb := Vector.replicate 24 0
  wc := 0
  ck := 0
  dg := Vector.replicate 32 0
  ill := false
  bad := false
  ms := false
  rst := 0
  rin := 0
  ec := 0
  hs := false

/-- The digest unit's choice for one request (R7, R156): answer `ok(cfg.sha256(M))`, or `err`. -/
inductive DigestChoice where
  | ok
  | err
deriving DecidableEq, Repr

/-- The entropy source's answer to one request (R160): `ok` with a draw, or `err`. A request for `n` bytes takes the
first `n` of the draw's 32, so that an answer has the requested length (R44). -/
inductive EntropyAnswer where
  | ok (draw : Vector Byte 32)
  | err
deriving DecidableEq, Repr

/-- A move of an agent other than the core (R10). -/
inductive EnvMove where
  /-- The host offers one more request beat (R42). -/
  | offer (b : Beat)
  /-- The host is ready for `n` more response beats (R42). -/
  | take (n : Nat)
  /-- The digest unit answers its next unanswered request this way (R151). -/
  | digest (c : DigestChoice)
  /-- The entropy source answers its next unanswered request this way (R160). -/
  | entropy (a : EntropyAnswer)
  /-- The reset input is asserted (R210, R212). -/
  | reset
deriving DecidableEq, Repr

/-- The port events of R34, and reset. An answer `none` is `err`. -/
inductive Event where
  /-- `REQ(F)`: the request frame wholly consumed. -/
  | req (frame : List Beat)
  /-- `EREQ(n)`: an entropy request for `n` bytes. -/
  | ereq (n : Nat)
  /-- `ERSP(a)`: its answer. -/
  | ersp (answer : Option (List Byte))
  /-- `DREQ(M)`: a digest request for `M`. -/
  | dreq (message : List Byte)
  /-- `DRSP(a)`: its answer. -/
  | drsp (answer : Option (List Byte))
  /-- `RSP(G)`: the response frame wholly sent. -/
  | rsp (frame : List Beat)
  /-- The reset input took effect (R210): not in R34's list, the model's own mark where a trace is cut short (log 5). -/
  | rst
deriving DecidableEq, Repr

/-- The causes a `FAULT` response carries (R74, R185); their codes are `Cause.code` in Machine/Ops.lean. -/
inductive Cause where
  | illegalOp
  | illegalFrame
  | entropyUnaligned
  | entropyLength
  | badStrength
  | entropySourceFail
  | digestFail
deriving DecidableEq, Repr

/-- What R11 calls state: the working registers, and the frames in flight on the ports, as the beats of each that have
moved so far. The history beside them is the observation of R12; the fairness assumptions that R222 has stated beside it
are `FairRun` in Sys2Proof/Safety.lean. -/
structure Block where
  /-- The working registers (R21). -/
  regs : Regs
  /-- The beats of the request frame in `RECV` accepted so far; observation only (log 5). -/
  reqSeen : List Beat
  /-- The beats of the response frame in `EMIT` accepted by the host so far; observation only (log 5). -/
  rspSent : List Beat
  /-- The port events so far (R12, R34); observation only (log 5). -/
  log : List Event
deriving DecidableEq, Repr

/-- What R11 calls parameters of the step relation: the host's choice of frames and of its acceptance, the digest unit's
choices, the entropy source's draws, and reset. They stand in State as plain data so that a step is a function of the
state alone, DESIGN CHOICE (log 2); `portStep` in Machine/Ports.lean takes them as an argument instead. -/
structure Agents where
  /-- Request channel: the beats the host offers, not yet accepted, in order (R41, R42). -/
  reqQ : List Beat
  /-- Response channel: how many further beats the host will accept (`rsp_ready`, R42). -/
  rspReady : Nat
  /-- Digest port: the unit's choices for the coming requests, in order (R7, R151). -/
  digQ : List DigestChoice
  /-- Entropy port: the source's answers to the coming requests, in order (R7, R160). -/
  entQ : List EntropyAnswer
  /-- The reset input `rst` (R210). -/
  rst : Bool
  /-- The coming moves of host, digest unit and entropy source: applied one by one while the core waits (log 2). -/
  env : List EnvMove
deriving DecidableEq, Repr

/-- One lane: the block, and the agents at its ports. -/
structure State extends Block, Agents
deriving DecidableEq, Repr

/-- Why a step ends in a model fault: there is no such reason. Everything the spec calls a fault is a `FAULT` response
(R186), which is a next state; every wait is a state that does not move (R222). -/
inductive Fault where
deriving DecidableEq, Repr

/-- Why a step is refused. -/
inductive Refusal where
  /-- Raised by `exec` for an instruction with no meaning yet, by its mnemonic; safe. Every instruction has its
  meaning, so no arm raises it. -/
  | notModelled (mnemonic : String)
deriving DecidableEq, Repr

/-- The machine right after reset (R28, R210): every working register zero, no request outstanding, no beat in flight,
`rst` released. The agents' fields and the observation start empty, DESIGN CHOICE (log 2, log 5). -/
def State.reset : State where
  regs := Regs.zero
  reqQ := []
  rspReady := 0
  digQ := []
  entQ := []
  rst := false
  env := []
  reqSeen := []
  rspSent := []
  log := []

end Sys2Proof.Machine
end

