-- ==== Sys2Proof/Machine/Flags.lean ====
section
/-! DEFINITION. The three flags (spec/10_state.md R23) as a frame leaves them, and the conditions that set them beat by
beat (R29, R30; spec/30_encoding.md R69). -/

namespace Sys2Proof.Machine

/-- `OPR` names no operation: the header sets `ILL` (R29). -/
def reservedOp (op : BitVec 4) : Bool := !(op == opEnc || op == opDec || op == opVal || op == opGen)

/-- The header alone sets `BAD` (R29): an MBZ bit of a header with `OP` in 1 to 4. -/
def headerBad (h : Half) : Bool :=
  if opField h = opGen then genMbzField h != 0 else !reservedOp (opField h) && lowField h != 0

/-- `BAD` at the end of an `ENC` frame: an MBZ field of the header or of any byte beat is not zero (R69). -/
def encBad (mbz : BitVec 12) (bytes : List ByteBeat) : Bool := mbz != 0 || bytes.any fun b => b.mbz != 0

/-- `BAD` at the end of a `DEC` or `VAL` frame (R69). -/
def tokensBad (mbz : BitVec 12) (tokens : List TokenBeat) : Bool := mbz != 0 || tokens.any fun t => t.mbz != 0

/-- `BAD` at the end of a `GEN` frame: an MBZ bit of the header, or any payload beat (R69). -/
def genBad (mbz : BitVec 3) (extra : List Half) : Bool := mbz != 0 || !extra.isEmpty

/-- `MS` at the end of a `DEC` or `VAL` frame: some token has `MISS = 1` (R30). -/
def tokensMiss (tokens : List TokenBeat) : Bool := tokens.any fun t => t.miss

end Sys2Proof.Machine
end

