-- ==== Sys2Proof/Machine/BitString.lean ====
section
/-! DEFINITION. Bit strings (spec/00_scope.md R14, R15): written left to right, position 0 first and most significant. -/

namespace Sys2Proof.Machine

/-- `uint(s)`: the unsigned integer the string spells, position 0 most significant; 0 for the empty string (R14). -/
def uint (s : List Bool) : Nat := s.foldl (fun acc b => 2 * acc + b.toNat) 0

/-- `bin_n(v)`: the n-bit string that spells `v`, most significant bit first, leading zeros kept (R14). -/
def bin {n : Nat} (v : BitVec n) : List Bool := (List.range n).map v.getMsbD

/-- `bits(B)`: byte 0 first, within each byte the most significant bit first (R15, R48). -/
def bitsOf (b : List Byte) : List Bool := b.flatMap bin

/-- `s[a..b)`: the positions from `a` up to but not including `b` (R14). -/
def slice (s : List Bool) (a b : Nat) : List Bool := (s.drop a).take (b - a)

/-- The first `n` groups of `k` consecutive bits of `s`. -/
def groups (k n : Nat) (s : List Bool) : List (List Bool) :=
  (List.range n).map fun i => slice s (k * i) (k * i + k)

/-- `bytes(s)`, the inverse of `bits`: byte `k` is `uint(s[8k..8k+8))` (R15). -/
def bytesOf (s : List Bool) : List Byte :=
  (groups 8 (s.length / 8) s).map fun g => BitVec.ofNat 8 (uint g)

/-- The bit string of a sequence of indices, each rendered by `bin_11`, in order (R123). -/
def indexBits (ws : List Index) : List Bool := ws.flatMap bin

end Sys2Proof.Machine
end

