-- ==== Sys2Proof/Machine/Sha256.lean ====
section
/-! DEFINITION. The reference definition of SHA-256 (spec/43_external_units.md R153) and the configuration that `exec`
and `step` use. PRESUMED (log 1): R153 is marked from general knowledge; the source names the function only. -/

namespace Sys2Proof.Machine

/-- A word of the hash, 32 bits; `+` is addition modulo 2^32. -/
abbrev HashWord := BitVec 32

/-- The sixty-four round constants `K[0..63]` (R153). -/
def roundConstants : List HashWord :=
  [0x428a2f98, 0x71374491, 0xb5c0fbcf, 0xe9b5dba5, 0x3956c25b, 0x59f111f1, 0x923f82a4, 0xab1c5ed5] ++
  [0xd807aa98, 0x12835b01, 0x243185be, 0x550c7dc3, 0x72be5d74, 0x80deb1fe, 0x9bdc06a7, 0xc19bf174] ++
  [0xe49b69c1, 0xefbe4786, 0x0fc19dc6, 0x240ca1cc, 0x2de92c6f, 0x4a7484aa, 0x5cb0a9dc, 0x76f988da] ++
  [0x983e5152, 0xa831c66d, 0xb00327c8, 0xbf597fc7, 0xc6e00bf3, 0xd5a79147, 0x06ca6351, 0x14292967] ++
  [0x27b70a85, 0x2e1b2138, 0x4d2c6dfc, 0x53380d13, 0x650a7354, 0x766a0abb, 0x81c2c92e, 0x92722c85] ++
  [0xa2bfe8a1, 0xa81a664b, 0xc24b8b70, 0xc76c51a3, 0xd192e819, 0xd6990624, 0xf40e3585, 0x106aa070] ++
  [0x19a4c116, 0x1e376c08, 0x2748774c, 0x34b0bcb5, 0x391c0cb3, 0x4ed8aa4a, 0x5b9cca4f, 0x682e6ff3] ++
  [0x748f82ee, 0x78a5636f, 0x84c87814, 0x8cc70208, 0x90befffa, 0xa4506ceb, 0xbef9a3f7, 0xc67178f2]

/-- The eight hash words, and the working variables `a` to `h`. -/
structure HashState where
  a : HashWord
  b : HashWord
  c : HashWord
  d : HashWord
  e : HashWord
  f : HashWord
  g : HashWord
  h : HashWord
deriving DecidableEq, Repr

/-- The initial hash words `H0..H7` (R153). -/
def initialHash : HashState :=
  ⟨0x6a09e667, 0xbb67ae85, 0x3c6ef372, 0xa54ff53a, 0x510e527f, 0x9b05688c, 0x1f83d9ab, 0x5be0cd19⟩

/-- `be64(v)`: the 8 bytes of `v`, most significant first. -/
def be64 (v : BitVec 64) : List Byte := (List.range 8).map fun i => v.extractLsb' (56 - 8 * i) 8

/-- `be32(v)`: the 4 bytes of `v`, most significant first. -/
def be32 (v : HashWord) : List Byte := (List.range 4).map fun i => v.extractLsb' (24 - 8 * i) 8

/-- The least `k` with `(n + 1 + k) mod 64 = 56`. -/
def padZeros (n : Nat) : Nat := (119 - n % 64) % 64

/-- The padded message `M ++ [0x80] ++ [0x00]*k ++ be64(8n)` (R153). -/
def padMessage (m : List Byte) : List Byte :=
  m ++ [0x80] ++ List.replicate (padZeros m.length) 0 ++ be64 (BitVec.ofNat 64 (8 * m.length))

/-- Big-endian words of a block. -/
def blockWords : List Byte → List HashWord
  | b0 :: b1 :: b2 :: b3 :: rest => (b0 ++ b1 ++ b2 ++ b3) :: blockWords rest
  | _ => []

/-- One more schedule word: `ws` holds `W[t-1], W[t-2], ...`, newest first. -/
def nextScheduleWord (ws : List HashWord) : HashWord :=
  let w2 := ws.getD 1 0
  let w7 := ws.getD 6 0
  let w15 := ws.getD 14 0
  let w16 := ws.getD 15 0
  let s0 := w15.rotateRight 7 ^^^ w15.rotateRight 18 ^^^ (w15 >>> 3)
  let s1 := w2.rotateRight 17 ^^^ w2.rotateRight 19 ^^^ (w2 >>> 10)
  w16 + s0 + w7 + s1

/-- `n` more schedule words, newest first. -/
def extendSchedule : Nat → List HashWord → List HashWord
  | 0, ws => ws
  | n + 1, ws => extendSchedule n (nextScheduleWord ws :: ws)

/-- The message schedule `W[0..63]` of a block. -/
def schedule (block : List Byte) : List HashWord := (extendSchedule 48 (blockWords block).reverse).reverse

/-- One round with `kw = K[t] + W[t]` (R153). -/
def hashRound (s : HashState) (kw : HashWord) : HashState :=
  let s1 := s.e.rotateRight 6 ^^^ s.e.rotateRight 11 ^^^ s.e.rotateRight 25
  let ch := (s.e &&& s.f) ^^^ (~~~s.e &&& s.g)
  let t1 := s.h + s1 + ch + kw
  let s0 := s.a.rotateRight 2 ^^^ s.a.rotateRight 13 ^^^ s.a.rotateRight 22
  let maj := (s.a &&& s.b) ^^^ (s.a &&& s.c) ^^^ (s.b &&& s.c)
  ⟨t1 + (s0 + maj), s.a, s.b, s.c, s.d + t1, s.e, s.f, s.g⟩

/-- The hash words after one block. -/
def compressBlock (s : HashState) (block : List Byte) : HashState :=
  let r := (List.zipWith (· + ·) roundConstants (schedule block)).foldl hashRound s
  ⟨s.a + r.a, s.b + r.b, s.c + r.c, s.d + r.d, s.e + r.e, s.f + r.f, s.g + r.g, s.h + r.h⟩

/-- `n` blocks of 64 bytes, in order. -/
def compressBlocks : Nat → HashState → List Byte → HashState
  | 0, s, _ => s
  | n + 1, s, m => compressBlocks n (compressBlock s (m.take 64)) (m.drop 64)

/-- The hash words as 32 bytes, `D[0] = H0 >> 24`. -/
def digestBytes (s : HashState) : Digest :=
  ⟨(be32 s.a ++ be32 s.b ++ be32 s.c ++ be32 s.d ++ be32 s.e ++ be32 s.f ++ be32 s.g ++ be32 s.h).toArray, by
    simp [be32]⟩

/-- SHA-256 of a byte sequence (R153). -/
def sha256 (m : List Byte) : Digest :=
  let p := padMessage m
  digestBytes (compressBlocks (p.length / 64) initialHash p)

/-- The reference configuration: SHA-256 behind the digest port, one lane (R7, R153). -/
def referenceConfig : Config := { sha256 := sha256 }

/-- The configuration `exec` and `step` use: the reference one, which R213 asks for conformance with the source. DESIGN
CHOICE (log 1), unsafe for a platform with another digest function; statements that need no digest value are made for
every `Config` through `execUnder`. -/
@[irreducible] def platformConfig : Config := referenceConfig

end Sys2Proof.Machine
end

