-- ==== Sys2Proof/Machine/Ops.lean ====
section
/-! DEFINITION. The named operations over the registers and the ports: buffers, the port signals, the two requests and
their answers (spec/10_state.md R32, R33), finishing, raising a fault and taking it (spec/60_exceptions.md R186, R188,
R189), and sending the response (R35). Each is written once here and used by every meaning and by the sequencer. -/

namespace Sys2Proof.Machine

/-! Buffers (`EB`, `WB`): indexed by the sequencer's own counters only (R25). -/

/-- Writes `xs` to the first places of a buffer; places past them keep what they hold, surplus elements are dropped. -/
def fill {α : Type} {n : Nat} (v : Vector α n) (xs : List α) : Vector α n :=
  ⟨(xs.take n ++ v.toList.drop xs.length).toArray, by simp; omega⟩

/-- Writes one place of a buffer; a place outside it does not exist and nothing is written (R30). -/
def setAt {α : Type} {n : Nat} (v : Vector α n) (i : Nat) (x : α) : Vector α n := v.setIfInBounds i x

/-- `EB[0..EL-1]`, the entropy bytes held: the message of a digest request (R43). -/
def entropyHeld (r : Regs) : List Byte := r.eb.toList.take r.el.toNat

/-- `WB[0..WC-1]`, the indices held. -/
def indicesHeld (r : Regs) : List Index := r.wb.toList.take r.wc.toNat

/-! The legal sizes (R5, R6). -/

/-- `L` is one of 16, 20, 24, 28, 32. -/
def legalEntropyBytes (l : Nat) : Bool := [16, 20, 24, 28, 32].contains l

/-- `STRENGTH` is one of 128, 160, 192, 224, 256. -/
def legalStrength (s : Nat) : Bool := [128, 160, 192, 224, 256].contains s

/-- A word count is one of 12, 15, 18, 21, 24. -/
def legalWordCount (n : Nat) : Bool := [12, 15, 18, 21, 24].contains n

/-! The data paths (R90, R121). -/

/-- `bits(D)[0..c)`: the leading `c` bits of a digest (R47). -/
def checksumBits (c : Nat) (d : Digest) : List Bool := (bitsOf d.toList).take c

/-- ConcatenatedBits: the entropy bits, then the leading `L/4` bits of the digest (R90). -/
def concatenatedBits (e : List Byte) (d : Digest) : List Bool := bitsOf e ++ checksumBits (e.length / 4) d

/-- The `3L/4` word indices of entropy `e` with digest `d` (R90): consecutive 11-bit groups, no modulo (R96). -/
def wordsOf (e : List Byte) (d : Digest) : List Index :=
  (groups 11 (3 * e.length / 4) (concatenatedBits e d)).map fun g => BitVec.ofNat 11 (uint g)

/-- The split point `floor(11N * 32 / 33)` (R124). -/
def splitPoint (n : Nat) : Nat := 11 * n * 32 / 33

/-- The entropy bytes a sequence of indices carries (R123, R124). -/
def entropyOf (ws : List Index) : List Byte := bytesOf ((indexBits ws).take (splitPoint ws.length))

/-- The claimed checksum of a sequence of indices, as a number (R124, R125). -/
def claimedChecksum (ws : List Index) : Nat := uint ((indexBits ws).drop (splitPoint ws.length))

/-! The port signals (R42). -/

/-- `req_ready = 1` exactly when `PH = IDLE` or `PH = RECV`. -/
def reqReady (s : State) : Bool := s.regs.ph == .idle || s.regs.ph == .recv

/-- `rsp_valid = 1` exactly when `PH = EMIT`. -/
def rspValid (s : State) : Bool := s.regs.ph == .emit

/-- A core step is enabled: a beat can be accepted, or the awaited answer has come (R29 to R35, R222). -/
def coreEnabled (s : State) : Bool :=
  match s.regs.ph with
  | .idle => !s.reqQ.isEmpty
  | .recv => !s.reqQ.isEmpty
  | .rngw => !s.entQ.isEmpty
  | .hashw => !s.digQ.isEmpty
  | .emit => s.rspReady != 0

/-! Finishing an operation. -/

/-- The status codes (R73). -/
def statusOk : BitVec 4 := 0x0
def statusNoValue : BitVec 4 := 0x1
def statusFault : BitVec 4 := 0xF

/-- The fault cause codes (R74). -/
def Cause.code : Cause → BitVec 8
  | .illegalOp => 0x01
  | .illegalFrame => 0x02
  | .entropyUnaligned => 0x03
  | .entropyLength => 0x04
  | .badStrength => 0x05
  | .entropySourceFail => 0x06
  | .digestFail => 0x07

/-- Finish with status `status` and info `info`: `RST <- status; RIN <- info; EC <- 0; PH <- EMIT` (10_state.md
section 8); no beat of the response is sent yet. -/
def finish (s : State) (status : BitVec 4) (info : BitVec 8) : State :=
  { s with
    regs := { s.regs with ph := .emit, rst := status, rin := info, ec := 0, hs := false }
    rspSent := [] }

/-- Taking a fault (R188): status `FAULT` and the cause code; nothing is saved, no mode changes, control goes to `EMIT`. -/
def raise (s : State) (c : Cause) : State := finish s statusFault c.code

/-- The NOVALUE result (R183). -/
def noValue (s : State) : State := finish s statusNoValue 0

/-- The end of a frame, which is also the return from a fault (R35, R189): every working register zero, `PH <- IDLE`;
the response frame is now wholly sent (R34 `RSP`). -/
def endFrame (s : State) : State :=
  { s with regs := Regs.zero, rspSent := [], log := s.log ++ [.rsp s.rspSent] }

/-! The requests to the external units and their answers. -/

/-- Issue `DREQ(EB[0..EL-1])`; `PH <- HASHW` (R31, R32, R43). -/
def askDigest (s : State) : State :=
  { s with regs := { s.regs with ph := .hashw }, log := s.log ++ [.dreq (entropyHeld s.regs)] }

/-- Issue `EREQ(EL)`; `PH <- RNGW` (R31, R44). -/
def askEntropy (s : State) : State :=
  { s with regs := { s.regs with ph := .rngw }, log := s.log ++ [.ereq s.regs.el.toNat] }

/-- The entropy wait (R32): while no answer comes nothing changes; `ok` puts the bytes into `EB` and asks for their
digest, `err` raises `ENTROPY_SOURCE_FAIL` (R197). -/
def entropyStep (s : State) : State :=
  match s.entQ with
  | [] => s
  | .err :: rest => raise { s with entQ := rest, log := s.log ++ [.ersp none] } .entropySourceFail
  | .ok draw :: rest =>
    let drawn := draw.toList.take s.regs.el.toNat
    askDigest { s with
      entQ := rest
      log := s.log ++ [.ersp (some drawn)]
      regs := { s.regs with eb := fill s.regs.eb drawn } }

/-- What follows an `ok` digest answer, `DG` already written (R33). -/
def concludeDigest (s : State) : State :=
  let r := s.regs
  if r.opr = opEnc ∨ r.opr = opGen then
    let n := 3 * r.el.toNat / 4
    finish { s with regs := { r with wb := fill r.wb (wordsOf (entropyHeld r) r.dg), wc := BitVec.ofNat 5 n } }
      statusOk (BitVec.ofNat 8 n)
  else if uint (checksumBits (r.el.toNat / 4) r.dg) ≠ r.ck.toNat then noValue s
  else if r.opr = opDec then finish s statusOk (r.el.setWidth 8)
  else finish s statusOk 0

/-- The digest wait (R33): while no answer comes nothing changes; `ok` latches the digest and concludes, `err` raises
`DIGEST_FAIL` (R198). -/
def digestStep (cfg : Config) (s : State) : State :=
  match s.digQ with
  | [] => s
  | .err :: rest => raise { s with digQ := rest, log := s.log ++ [.drsp none] } .digestFail
  | .ok :: rest =>
    let d := cfg.sha256 (entropyHeld s.regs)
    concludeDigest { s with
      digQ := rest
      log := s.log ++ [.drsp (some d.toList)]
      regs := { s.regs with dg := d } }

/-! Sending the response (R35, R70 to R76). -/

/-- The payload data of the response: the indices for `ENC` and `GEN`, the bytes for `DEC`, with status `OK`; none
otherwise (R71). Its length is R35's `n`. -/
def responsePayload (r : Regs) : List Half :=
  if r.rst = statusOk ∧ (r.opr = opEnc ∨ r.opr = opGen) then (indicesHeld r).map (BitVec.setWidth 16)
  else if r.rst = statusOk ∧ r.opr = opDec then (entropyHeld r).map (BitVec.setWidth 16)
  else []

/-- The response header `OPR << 12 | RST << 8 | RIN` (R72). -/
def responseHeader (r : Regs) : Half := r.opr ++ (r.rst ++ r.rin)

/-- The whole response frame the registers describe, `last = 1` on the final beat (R70). -/
def responseFrame (r : Regs) : List Beat := markLast (responseHeader r :: responsePayload r)

/-- The beat on `rsp_data`, `rsp_last`: the header, then payload beat `EC` (R35). Past the payload, which no run reaches,
the beat is zero with `last = 1`. DESIGN CHOICE (log 12), safe. -/
def responseBeat (r : Regs) : Beat :=
  let payload := responsePayload r
  if r.hs then ⟨payload.getD r.ec.toNat 0, decide (payload.length ≤ r.ec.toNat + 1)⟩
  else ⟨responseHeader r, payload.isEmpty⟩

/-- The host accepts one response beat (R35). -/
def sendBeat (s : State) : State :=
  let b := responseBeat s.regs
  let s' := { s with rspReady := s.rspReady - 1, rspSent := s.rspSent ++ [b] }
  if b.last then endFrame s'
  else { s' with regs := { s.regs with hs := true, ec := if s.regs.hs then s.regs.ec + 1 else 0 } }

/-- The emit step (R35): while the host does not accept, nothing changes. -/
def emitStep (s : State) : State := if s.rspReady = 0 then s else sendBeat s

/-- Up to `n` emit steps. -/
def emitSteps : Nat → State → State
  | 0, s => s
  | n + 1, s => if s.regs.ph = .emit then emitSteps n (emitStep s) else s

/-- The core goes on as far as the agents' answers let it: the entropy wait, the digest wait, then the response, which
has at most 33 beats (R226). Where an answer or the host's acceptance is missing it stays in that phase (R222). -/
def settle (cfg : Config) (s : State) : State :=
  let s1 := if s.regs.ph = .rngw then entropyStep s else s
  let s2 := if s1.regs.ph = .hashw then digestStep cfg s1 else s1
  emitSteps 33 s2

end Sys2Proof.Machine
end

