-- ==== Sys2Proof/Machine/Operands.lean ====
section
/-! DEFINITION. How operands land in the working registers: beat by beat (spec/10_state.md R29, R30), and a whole frame
at once (R92, R106, R128), which is what the meanings of the operations start from. -/

namespace Sys2Proof.Machine

/-- `EL <- min(EL + 1, 33)` (R30, R230). -/
def bumpEl (el : BitVec 6) : BitVec 6 := BitVec.ofNat 6 (min (el.toNat + 1) 33)

/-- `WC <- min(WC + 1, 25)` (R30, R230). -/
def bumpWc (wc : BitVec 5) : BitVec 5 := BitVec.ofNat 5 (min (wc.toNat + 1) 25)

/-- The register writes of the header step (R29), less its dispatch. -/
def latchHeader (h : Half) (r : Regs) : Regs :=
  { r with
    opr := opField h
    ill := r.ill || reservedOp (opField h)
    bad := r.bad || headerBad h
    str := if opField h = opGen then strengthField h else r.str }

/-- The register writes of the payload step (R30), less its dispatch. -/
def latchPayload (p : Half) (r : Regs) : Regs :=
  if r.ill then r
  else if r.opr = opEnc then
    { r with
      bad := r.bad || (byteBeat p).mbz != 0
      eb := if r.el.toNat < 32 then setAt r.eb r.el.toNat (byteBeat p).byte else r.eb
      el := bumpEl r.el
      ea := r.ea + 1 }
  else if r.opr = opDec ∨ r.opr = opVal then
    { r with
      bad := r.bad || (tokenBeat p).mbz != 0
      ms := r.ms || (tokenBeat p).miss
      wb := if r.wc.toNat < 24 then setAt r.wb r.wc.toNat (tokenBeat p).idx else r.wb
      wc := bumpWc r.wc }
  else { r with bad := true }

/-- The registers when an `ENC` frame has been received whole (R92). -/
def encRegs (mbz : BitVec 12) (bytes : List ByteBeat) : Regs :=
  { Regs.zero with
    opr := opEnc
    bad := encBad mbz bytes
    eb := fill Regs.zero.eb (bytes.map ByteBeat.byte)
    el := BitVec.ofNat 6 (min bytes.length 33)
    ea := BitVec.ofNat 2 bytes.length }

/-- The registers when a `DEC` or `VAL` frame has been received whole (R128, R142). -/
def tokenRegs (op : BitVec 4) (mbz : BitVec 12) (tokens : List TokenBeat) : Regs :=
  { Regs.zero with
    opr := op
    bad := tokensBad mbz tokens
    ms := tokensMiss tokens
    wb := fill Regs.zero.wb (tokens.map TokenBeat.idx)
    wc := BitVec.ofNat 5 (min tokens.length 25) }

/-- The registers when a `GEN` frame has been received whole (R106). -/
def genRegs (mbz : BitVec 3) (strength : BitVec 9) (extra : List Half) : Regs :=
  { Regs.zero with opr := opGen, bad := genBad mbz extra, str := strength }

/-- The registers when a frame with a reserved `OP` has been received whole: nothing but `OPR` and `ILL` (R29, R30). -/
def reservedRegs (op : BitVec 4) : Regs := { Regs.zero with opr := op, ill := true }

/-- The request frame `f` is wholly consumed and its operands stand in the registers `r` (R34 `REQ`). -/
def received (f : List Beat) (r : Regs) (s : State) : State :=
  { s with regs := r, log := s.log ++ [.req f] }

/-- The reconstruction of the entropy from the indices (R31, `DEC` and `VAL`): `EL`, `EB` and `CK`. -/
def reconstruct (ws : List Index) (r : Regs) : Regs :=
  { r with
    el := BitVec.ofNat 6 (splitPoint ws.length / 8)
    eb := fill r.eb (entropyOf ws)
    ck := BitVec.ofNat 8 (claimedChecksum ws) }

end Sys2Proof.Machine
end

