-- ==== Sys2Proof/Machine/EncoderFamily.lean ====
section
/-! DEFINITION. The meanings of `ENC` and `GEN` (spec/40_encoder.md). A meaning is one whole frame: its operands in the
registers, the checks in the order of R190, the requests, and the response, as far as the digest unit, the entropy
source and the host let it go (`settle`). A block that is not idle accepts no frame (R42, R52). -/

namespace Sys2Proof.Machine

/-- A frame is accepted only by an idle block; offered to a busy one it is neither consumed nor lost (R42, R52).
The registers of an idle block are zero (R26); a meaning loads them afresh. DESIGN CHOICE (log 7), safe. -/
def whenIdle (s : State) (run : State → State) : Host.Outcome State Fault Refusal :=
  if s.regs.ph = .idle then .next (run s) else .next s

/-- The checks and the digest request of `ENC` (R91, R93 to R95), the operands already in the registers. -/
def startEnc (mbz : BitVec 12) (bytes : List ByteBeat) (s : State) : State :=
  if encBad mbz bytes then raise s .illegalFrame
  else if bytes.length % 4 ≠ 0 then raise s .entropyUnaligned
  else if ¬ legalEntropyBytes bytes.length then raise s .entropyLength
  else askDigest s

/-- `ENC` under a configuration (R91). -/
def execEncUnder (cfg : Config) (mbz : BitVec 12) (bytes : List ByteBeat) (s : State) :
    Host.Outcome State Fault Refusal :=
  whenIdle s fun s => settle cfg (startEnc mbz bytes (received (encode (.enc mbz bytes)) (encRegs mbz bytes) s))

/-- The checks and the entropy request of `GEN` (R105, R107, R108). -/
def startGen (mbz : BitVec 3) (strength : BitVec 9) (extra : List Half) (s : State) : State :=
  if genBad mbz extra then raise s .illegalFrame
  else if ¬ legalStrength strength.toNat then raise s .badStrength
  else askEntropy { s with regs := { s.regs with el := BitVec.ofNat 6 (strength.toNat / 8) } }

/-- `GEN` under a configuration (R105). -/
def execGenUnder (cfg : Config) (mbz : BitVec 3) (strength : BitVec 9) (extra : List Half) (s : State) :
    Host.Outcome State Fault Refusal :=
  whenIdle s fun s =>
    settle cfg (startGen mbz strength extra
      (received (encode (.gen mbz strength extra)) (genRegs mbz strength extra) s))

/-- `ENC` (R91). -/
def execEnc (mbz : BitVec 12) (bytes : List ByteBeat) (s : State) : Host.Outcome State Fault Refusal :=
  execEncUnder platformConfig mbz bytes s

/-- `GEN` (R105). -/
def execGen (mbz : BitVec 3) (strength : BitVec 9) (extra : List Half) (s : State) :
    Host.Outcome State Fault Refusal :=
  execGenUnder platformConfig mbz strength extra s

end Sys2Proof.Machine
end

