-- ==== Sys2Proof/Machine/DecoderFamily.lean ====
section
/-! DEFINITION. The meaning of `DEC` (spec/41_decoder.md), and the run of a token frame that it shares with `VAL`. -/

namespace Sys2Proof.Machine

/-- The structural check, the reconstruction and the digest request of `DEC` and `VAL` (R121 to R124, R127). -/
def startTokens (mbz : BitVec 12) (tokens : List TokenBeat) (s : State) : State :=
  if tokensBad mbz tokens then raise s .illegalFrame
  else if ¬ legalWordCount tokens.length then noValue s
  else if tokensMiss tokens then noValue s
  else askDigest { s with regs := reconstruct (tokens.map TokenBeat.idx) s.regs }

/-- `DEC` under a configuration (R121). -/
def execDecUnder (cfg : Config) (mbz : BitVec 12) (tokens : List TokenBeat) (s : State) :
    Host.Outcome State Fault Refusal :=
  whenIdle s fun s =>
    settle cfg (startTokens mbz tokens (received (encode (.dec mbz tokens)) (tokenRegs opDec mbz tokens) s))

/-- `DEC` (R121). -/
def execDec (mbz : BitVec 12) (tokens : List TokenBeat) (s : State) : Host.Outcome State Fault Refusal :=
  execDecUnder platformConfig mbz tokens s

end Sys2Proof.Machine
end

