-- ==== Sys2Proof/Machine/ValidatorFamily.lean ====
section
/-! DEFINITION. The meaning of `VAL` (spec/42_validator.md): every step of `DEC` with opcode nibble 3; the full checksum
verification is always made (R141), and no payload is sent (R140, by `concludeDigest` and `responsePayload`). -/

namespace Sys2Proof.Machine

/-- `VAL` under a configuration (R140). -/
def execValUnder (cfg : Config) (mbz : BitVec 12) (tokens : List TokenBeat) (s : State) :
    Host.Outcome State Fault Refusal :=
  whenIdle s fun s =>
    settle cfg (startTokens mbz tokens (received (encode (.val mbz tokens)) (tokenRegs opVal mbz tokens) s))

/-- `VAL` (R140). -/
def execVal (mbz : BitVec 12) (tokens : List TokenBeat) (s : State) : Host.Outcome State Fault Refusal :=
  execValUnder platformConfig mbz tokens s

/-- The operations under any configuration: `exec` is this at `platformConfig` (R7, R152). -/
def execUnder (cfg : Config) : Instr → State → Host.Outcome State Fault Refusal
  | .enc mbz bytes, s => execEncUnder cfg mbz bytes s
  | .dec mbz tokens, s => execDecUnder cfg mbz tokens s
  | .val mbz tokens, s => execValUnder cfg mbz tokens s
  | .gen mbz strength extra, s => execGenUnder cfg mbz strength extra s

end Sys2Proof.Machine
end

