-- ==== Sys2Proof/Machine/Dispatch.lean ====
section
/-! DEFINITION. `exec`: one arm per operation of spec/opcode_table.json. -/

namespace Sys2Proof.Machine

def exec (i : Instr) (s : State) : Host.Outcome State Fault Refusal :=
  match i with
  | .enc mbz bytes => Sys2Proof.Machine.execEnc mbz bytes s
  | .dec mbz tokens => Sys2Proof.Machine.execDec mbz tokens s
  | .val mbz tokens => Sys2Proof.Machine.execVal mbz tokens s
  | .gen mbz strength extra => Sys2Proof.Machine.execGen mbz strength extra s

end Sys2Proof.Machine
end

