-- ==== Sys2Proof/Machine/Sequencer.lean ====
section
/-! DEFINITION. The sequencer, one step per phase (spec/10_state.md R29 to R35), and the moves of the other agents. The
sequencer runs a frame whose beats come one after the other, every wait, and whatever a meaning left unfinished. -/

namespace Sys2Proof.Machine

/-- Dispatch (R31), in its order: the first check that applies decides. -/
def dispatch (s : State) : State :=
  let r := s.regs
  if r.ill then raise s .illegalOp
  else if r.bad then raise s .illegalFrame
  else if r.opr = opEnc then
    if r.ea ≠ 0 then raise s .entropyUnaligned
    else if ¬ legalEntropyBytes r.el.toNat then raise s .entropyLength
    else askDigest s
  else if r.opr = opGen then
    if ¬ legalStrength r.str.toNat then raise s .badStrength
    else askEntropy { s with regs := { r with el := BitVec.ofNat 6 (r.str.toNat / 8) } }
  else if ¬ legalWordCount r.wc.toNat ∨ r.ms then noValue s
  else askDigest { s with regs := reconstruct (indicesHeld r) r }

/-- After a request beat `b` has been latched: the frame ends here and is dispatched, or the block goes on receiving
(R29, R30). -/
def afterBeat (b : Beat) (s : State) : State :=
  let seen := s.reqSeen ++ [b]
  if b.last then dispatch { s with reqSeen := [], log := s.log ++ [.req seen] }
  else { s with reqSeen := seen, regs := { s.regs with ph := .recv } }

/-- The header step (R29); with no beat offered nothing changes. -/
def headerStep (s : State) : State :=
  match s.reqQ with
  | [] => s
  | b :: rest => afterBeat b { s with reqQ := rest, regs := latchHeader b.data s.regs }

/-- The payload step (R30); with no beat offered nothing changes (R222). -/
def payloadStep (s : State) : State :=
  match s.reqQ with
  | [] => s
  | b :: rest => afterBeat b { s with reqQ := rest, regs := latchPayload b.data s.regs }

/-- One step of the sequencer: the rule the phase enables (R29 to R35). -/
def seqStep (cfg : Config) (s : State) : State :=
  match s.regs.ph with
  | .idle => headerStep s
  | .recv => payloadStep s
  | .rngw => entropyStep s
  | .hashw => digestStep cfg s
  | .emit => emitStep s

/-- `k` steps of the sequencer. -/
def seqSteps (cfg : Config) : Nat → State → State
  | 0, s => s
  | k + 1, s => seqSteps cfg k (seqStep cfg s)

/-- A whole frame with a reserved `OP`: consumed and ignored, then `ILLEGAL_OP` (R69, R191). `ds` is its data. -/
def takeIllegalOp (cfg : Config) (ds : List Half) (s : State) : State :=
  settle cfg (raise (received (markLast ds) (reservedRegs (opField (ds.headD 0))) s) .illegalOp)

/-- Reset (R210, R212; DEDUCED, log 11, safe): the reset state, from any state; the frame in execution is abandoned without a response and the
ports are cleared with it. The other agents' coming moves and the events already seen are no part of the block and
stay. -/
def resetStep (s : State) : State := { State.reset with env := s.env, log := s.log ++ [.rst] }

/-- One move of another agent. -/
def applyMove (m : EnvMove) (s : State) : State :=
  match m with
  | .offer b => { s with reqQ := s.reqQ ++ [b] }
  | .take n => { s with rspReady := s.rspReady + n }
  | .digest c => { s with digQ := s.digQ ++ [c] }
  | .entropy a => { s with entQ := s.entQ ++ [a] }
  | .reset => { s with rst := true }

/-- The core waits: the next move of another agent happens; where none is left, nothing ever changes (R222). -/
def waitStep (s : State) : State :=
  match s.env with
  | [] => s
  | m :: rest => applyMove m { s with env := rest }

end Sys2Proof.Machine
end

