-- ==== Sys2Proof/Machine/Fetch.lean ====
section
/-! DEFINITION. How the core takes its next operation: the block fetches no instruction (spec/10_state.md R22), it takes
the next frame of the request channel (R29; spec/20_memory.md R52). -/

namespace Sys2Proof.Machine

/-- The core's move under a configuration, `run` being the operations under it. An idle block to which a whole frame is
offered consumes the frame and runs its operation, or takes `ILLEGAL_OP` for a reserved `OP`; in every other case the
sequencer takes one step (R29 to R35). DESIGN CHOICE (log 6), safe: a whole frame at once is what the sequencer's steps
make of it. -/
def coreStep (run : Instr → State → Host.Outcome State Fault Refusal) (cfg : Config) (s : State) :
    Host.Outcome State Fault Refusal :=
  if s.regs.ph = .idle then
    match splitFrame s.reqQ with
    | some (h :: ps, rest) =>
      match decodeWords h ps with
      | .ok i => run i { s with reqQ := rest }
      | .error _ => .next (takeIllegalOp cfg (h :: ps) { s with reqQ := rest })
    | _ => .next (seqStep cfg s)
  else .next (seqStep cfg s)

/-- One step of a lane: reset first, then the core's move if it has one, else a move of another agent (R210, R222). -/
def laneMove (run : Instr → State → Host.Outcome State Fault Refusal) (cfg : Config) (s : State) :
    Host.Outcome State Fault Refusal :=
  if s.rst then .next (resetStep s)
  else if coreEnabled s then coreStep run cfg s
  else .next (waitStep s)

/-- The beats `bs` placed in front of an idle block's request channel (log 3). -/
def placeBeats (bs : List Beat) (s : State) : State :=
  { s with regs := Regs.zero, reqQ := bs ++ s.reqQ, rst := false, reqSeen := [], rspSent := [] }

end Sys2Proof.Machine
end

