-- ==== Sys2Proof/Machine/Step.lean ====
section
/-! DEFINITION. One step of the machine: reset first (spec/70_reset_and_hazards.md R210), else the core's move if it has
one, else a move of another agent (log 2). -/

namespace Sys2Proof.Machine

/-- One step, the configuration being the platform's. A core that waits with no other agent's move left does not move:
that is a hang (R222). -/
def step (s : State) : Host.Outcome State Fault Refusal := laneMove exec platformConfig s

/-- One step under any configuration, the argument R7 and R11 give it; `step` is this at `platformConfig`. -/
def stepUnder (cfg : Config) (s : State) : Host.Outcome State Fault Refusal := laneMove (execUnder cfg) cfg s

/-- `s` with the table's instruction word as the next frame on the request channel of an idle block (log 3). -/
def State.withFetchWord (s : State) (nbits w : Nat) : State := placeBeats (tableBeats nbits w) s

end Sys2Proof.Machine
end

