-- ==== Sys2Proof/Machine/HostSide.lean ====
section
/-! DEFINITION. The host's lookups around the block (spec/43_external_units.md R165 to R168, R171, R172). The text
handling before them (trim, normalisation, splitting; R170) is outside the spec's scope (spec/00_scope.md R4). -/

namespace Sys2Proof.Machine

/-- A wordlist: exactly 2048 unique, lowercase, whitespace-free strings, immutable (R165, R167). What lowercase and
whitespace-free mean of a character is PRESUMED (log 8), safe: no statement uses it. -/
structure Wordlist where
  words : List String
  size : words.length = 2048
  unique : words.Nodup
  plain : ∀ w ∈ words, w.toList.all (fun c => !c.isWhitespace && !c.isUpper) = true

/-- Index to word, total on 0 to 2047 (R166). -/
def Wordlist.wordAt (wl : Wordlist) (i : Index) : String :=
  wl.words[i.toNat]'(by have := i.isLt; have := wl.size; omega)

/-- Word to index, defined for the listed words only (R166). -/
def Wordlist.indexOf (wl : Wordlist) (w : String) : Option Index :=
  (wl.words.findIdx? fun x => decide (x = w)).map (BitVec.ofNat 11)

/-- The token of a word (R171): `MISS = 0` and its index where it is listed, else `MISS = 1`, conventionally with
index 0. DESIGN CHOICE (log 8), safe: the index of a missed token is never used (R133). -/
def Wordlist.token (wl : Wordlist) (w : String) : TokenBeat :=
  match wl.indexOf w with
  | some i => ⟨0, false, i⟩
  | none => ⟨0, true, 0⟩

/-- The `DEC` frame of a phrase's words, one token each, with no filtering of the count (R171). -/
def Wordlist.decFrame (wl : Wordlist) (ws : List String) : Instr := .dec 0 (ws.map wl.token)

/-- The `VAL` frame of a phrase's words (R171). -/
def Wordlist.valFrame (wl : Wordlist) (ws : List String) : Instr := .val 0 (ws.map wl.token)

/-- The words of the returned indices, in the order received (R172). -/
def Wordlist.wordsAt (wl : Wordlist) (is : List Index) : List String := is.map wl.wordAt

/-- The phrase: the words joined by single spaces, none leading or trailing (R172). -/
def Wordlist.phrase (wl : Wordlist) (is : List Index) : String := String.intercalate " " (wl.wordsAt is)

end Sys2Proof.Machine
end

