-- ==== Sys2Proof/Machine/Lanes.lean ====
section
/-! DEFINITION. A platform of several lanes (spec/00_scope.md R7; spec/60_exceptions.md R204): each lane is one block as
specified, with its own ports, and lanes share nothing but the configuration. That an outside index picks the lane that moves is the
model's (log 10). -/

namespace Sys2Proof.Machine

/-- The lanes of a platform. -/
structure Platform where
  lanes : List State
deriving DecidableEq, Repr

/-- `NLANES` lanes, at least one, each in the reset state: lanes start independently at reset (R204), and the reset state
of a lane does not depend on the digest function (R28). -/
def Platform.reset (cfg : Config) : Platform := ⟨List.replicate cfg.nlanes State.reset⟩

/-- Lane `k` takes a step under the platform's configuration, the same for every lane (R155); no other lane moves (R56,
R204). -/
def laneStep (cfg : Config) (k : Nat) (p : Platform) : Host.Outcome Platform Fault Refusal :=
  match p.lanes[k]? with
  | none => .next p
  | some s =>
    match stepUnder cfg s with
    | .next t => .next ⟨p.lanes.set k t⟩
    | .fault r => .fault r
    | .refused r => .refused r

end Sys2Proof.Machine
end

