-- ==== Sys2Proof/Machine/Ports.lean ====
section
/-! DEFINITION. The step relation with its parameters as arguments (spec/00_scope.md R7, R10, R11): one step of the block
under a configuration and one choice of another agent. It is the sequencer of Machine/Sequencer.lean, offered that choice
and nothing else. -/

namespace Sys2Proof.Machine

/-- What another agent contributes to one step: the parameter of the step relation (R10, R11). -/
inductive PortMove where
  /-- The host's request beat is accepted (R42). -/
  | request (b : Beat)
  /-- The host accepts the response beat (R42). -/
  | accept
  /-- The digest unit answers the outstanding request (R151, R156). -/
  | digest (c : DigestChoice)
  /-- The entropy source answers the outstanding request (R160). -/
  | entropy (a : EntropyAnswer)
  /-- The reset input is asserted (R210). -/
  | reset
deriving DecidableEq, Repr

/-- Agents that offer, accept and answer nothing. -/
def quietAgents : Agents where
  reqQ := []
  rspReady := 0
  digQ := []
  entQ := []
  rst := false
  env := []

/-- Agents that make this one move and no other. -/
def agentsMaking : PortMove → Agents
  | .request b => { quietAgents with reqQ := [b] }
  | .accept => { quietAgents with rspReady := 1 }
  | .digest c => { quietAgents with digQ := [c] }
  | .entropy a => { quietAgents with entQ := [a] }
  | .reset => { quietAgents with rst := true }

/-- The step relation (R29 to R35, R210): the block after the move, where the phase enables it; a request beat while
`req_ready = 0`, an acceptance outside `EMIT`, or an answer nobody awaits has no step (R42). -/
def portStep (cfg : Config) (m : PortMove) (b : Block) : Option Block :=
  let s : State := { toBlock := b, toAgents := agentsMaking m }
  if s.rst then some (resetStep s).toBlock
  else if coreEnabled s then some (seqStep cfg s).toBlock
  else none

/-- The choice the agents of a state have ready for its phase: what the state's data supply for the parameter. -/
def suppliedMove (s : State) : Option PortMove :=
  if s.rst then some .reset
  else
    match s.regs.ph with
    | .idle => s.reqQ.head?.map .request
    | .recv => s.reqQ.head?.map .request
    | .rngw => s.entQ.head?.map .entropy
    | .hashw => s.digQ.head?.map .digest
    | .emit => if s.rspReady = 0 then none else some .accept

end Sys2Proof.Machine
end

