-- ==== Sys2Proof/Safety.lean ====
section
/-! DEFINITION. The terms claims are stated in: which states of the block are consistent (the invariant every step keeps),
which responses the block may send (spec/30_encoding.md R73 to R76), which histories it may have (spec/10_state.md R34),
and the state a completed frame leaves. -/

namespace Sys2Proof.Machine

/-- The registers inside `RECV` after the beats `bs` of a frame: the header latched, then each payload beat (R29, R30). -/
def frameRegs : List Beat → Regs
  | [] => Regs.zero
  | h :: ps => ps.foldl (fun r b => latchPayload b.data r) { latchHeader h.data Regs.zero with ph := .recv }

/-- The causes a frame with opcode `op` can fault with (R74, R185). -/
def causeFits (op : BitVec 4) : Cause → Bool
  | .illegalOp => reservedOp op
  | .illegalFrame => !reservedOp op
  | .entropyUnaligned => op == opEnc
  | .entropyLength => op == opEnc
  | .badStrength => op == opGen
  | .entropySourceFail => op == opGen
  | .digestFail => !reservedOp op

/-- Opcode, status and info of a response the block may send, with the counts they rest on (R73 to R76). -/
def ResponseFits (r : Regs) : Prop :=
  (r.rst = statusOk ∧ (r.opr = opEnc ∨ r.opr = opGen) ∧ legalWordCount r.wc.toNat = true ∧ r.rin = r.wc.setWidth 8) ∨
  (r.rst = statusOk ∧ r.opr = opDec ∧ legalEntropyBytes r.el.toNat = true ∧ r.rin = r.el.setWidth 8) ∨
  (r.rst = statusOk ∧ r.opr = opVal ∧ r.rin = 0) ∨
  (r.rst = statusNoValue ∧ (r.opr = opDec ∨ r.opr = opVal) ∧ r.rin = 0) ∨
  (r.rst = statusFault ∧ ∃ c : Cause, causeFits r.opr c = true ∧ r.rin = c.code)

/-- The invariant of the block, kept by every step and true at reset: what the registers and the frame observations are
in each phase (R21, R26, R27, R30 to R35, R43, R44). -/
def BlockInv (s : State) : Prop :=
  match s.regs.ph with
  | .idle => s.regs = Regs.zero ∧ s.reqSeen = [] ∧ s.rspSent = []
  | .recv =>
    s.regs = frameRegs s.reqSeen ∧ s.reqSeen ≠ [] ∧ (∀ b ∈ s.reqSeen, b.last = false) ∧ s.rspSent = []
  | .rngw =>
    s.regs = { genRegs 0 s.regs.str [] with ph := .rngw, el := s.regs.el } ∧
      legalStrength s.regs.str.toNat = true ∧ s.regs.el.toNat = s.regs.str.toNat / 8 ∧
      s.reqSeen = [] ∧ s.rspSent = []
  | .hashw =>
    s.regs.ill = false ∧ s.regs.bad = false ∧ s.regs.ms = false ∧ s.regs.rst = 0 ∧ s.regs.rin = 0 ∧
      s.regs.ec = 0 ∧ s.regs.hs = false ∧ reservedOp s.regs.opr = false ∧
      legalEntropyBytes s.regs.el.toNat = true ∧
      (s.regs.opr = opDec ∨ s.regs.opr = opVal →
        legalWordCount s.regs.wc.toNat = true ∧ 3 * s.regs.el.toNat = 4 * s.regs.wc.toNat) ∧
      s.reqSeen = [] ∧ s.rspSent = []
  | .emit =>
    ResponseFits s.regs ∧ s.reqSeen = [] ∧
      (if s.regs.hs then s.regs.ec.toNat < (responsePayload s.regs).length else s.regs.ec = 0) ∧
      s.rspSent = (responseFrame s.regs).take (if s.regs.hs then s.regs.ec.toNat + 1 else 0)

/-- Where a frame's trace stands (R34), with what the next event must agree with. -/
inductive TracePoint where
  /-- Between frames, or inside `RECV`. -/
  | between
  /-- The request frame is consumed. -/
  | reqDone
  /-- An entropy request for `n` bytes is out. -/
  | drawAsked (n : Nat)
  /-- The draw came. -/
  | drawn (b : List Byte)
  /-- The entropy source failed. -/
  | drawFailed
  /-- A digest request for `m` is out. -/
  | digestAsked (m : List Byte)
  /-- The digest unit has answered. -/
  | digested
deriving DecidableEq, Repr

/-- The trace grammar of R34: which event may come next. An entropy answer has the requested length (R44), a drawn
entropy is what is hashed, a digest answer is `cfg.sha256` of the message (R151). -/
def traceNext (cfg : Config) : TracePoint → Event → Option TracePoint
  | .between, .req _ => some .reqDone
  | .reqDone, .rsp _ => some .between
  | .reqDone, .ereq n => some (.drawAsked n)
  | .reqDone, .dreq m => some (.digestAsked m)
  | .drawAsked n, .ersp (some b) => if b.length = n then some (.drawn b) else none
  | .drawAsked _, .ersp none => some .drawFailed
  | .drawFailed, .rsp _ => some .between
  | .drawn b, .dreq m => if m = b then some (.digestAsked m) else none
  | .digestAsked m, .drsp (some d) => if d = (cfg.sha256 m).toList then some .digested else none
  | .digestAsked _, .drsp none => some .digested
  | .digested, .rsp _ => some .between
  | _, .rst => some .between
  | _, _ => none

/-- A history is a sequence of traces of R34, the last one possibly unfinished, each possibly cut by reset. -/
def traceRun (cfg : Config) (log : List Event) : Option TracePoint :=
  log.foldl (fun p e => p.bind fun q => traceNext cfg q e) (some .between)

/-- The history is one R34 allows, and stands where the phase says. -/
def TraceInv (cfg : Config) (s : State) : Prop :=
  match s.regs.ph with
  | .idle => traceRun cfg s.log = some .between
  | .recv => traceRun cfg s.log = some .between
  | .rngw => traceRun cfg s.log = some (.drawAsked s.regs.el.toNat)
  | .hashw => traceRun cfg s.log = some (.digestAsked (entropyHeld s.regs))
  | .emit => traceRun cfg s.log = some .reqDone ∨ traceRun cfg s.log = some .drawFailed ∨
      traceRun cfg s.log = some .digested

/-! The fairness assumptions of R222 beside the observation `log`: premises of a claim, never built into a step. -/

/-- A run at the ports: the blocks, and between them the moves of the other agents, `none` where none moves. -/
def IsPortRun (cfg : Config) (blocks : Nat → Block) (moves : Nat → Option PortMove) : Prop :=
  ∀ n, match moves n with
    | none => blocks (n + 1) = blocks n
    | some m => portStep cfg m (blocks n) = some (blocks (n + 1))

/-- The other agents eventually move (R157, R163, R222): none of the four waits of R222 lasts for ever. Each assumption is
discharged by reset too, the one other way out of a wait. -/
structure FairRun (blocks : Nat → Block) (moves : Nat → Option PortMove) : Prop where
  /-- The host: a frame being received gets its next beat (R222 (a)). -/
  host_offers : ∀ n, (blocks n).regs.ph = .recv →
    ∃ k, moves (n + k) = some .reset ∨ ∃ b, moves (n + k) = some (.request b)
  /-- The entropy source: every request is answered (R163, R222 (b)). -/
  entropy_answers : ∀ n, (blocks n).regs.ph = .rngw →
    ∃ k, moves (n + k) = some .reset ∨ ∃ a, moves (n + k) = some (.entropy a)
  /-- The digest unit: every request is answered (R157, R222 (c)). -/
  digest_answers : ∀ n, (blocks n).regs.ph = .hashw →
    ∃ k, moves (n + k) = some .reset ∨ ∃ c, moves (n + k) = some (.digest c)
  /-- The host: a response beat is accepted (R222 (d)). -/
  host_accepts : ∀ n, (blocks n).regs.ph = .emit →
    ∃ k, moves (n + k) = some .reset ∨ moves (n + k) = some .accept

/-- The host ends the frames it begins: a frame being received gets a beat with `last = 1` (R222 (a)). -/
def HostEndsFrames (blocks : Nat → Block) (moves : Nat → Option PortMove) : Prop :=
  ∀ n, (blocks n).regs.ph = .recv →
    ∃ k, moves (n + k) = some .reset ∨ ∃ b : Beat, moves (n + k) = some (.request b) ∧ b.last = true

/-- Response frames of R76: each status with its operations, its info byte and its payload. -/
def legalResponse (g : List Beat) : Prop :=
  ∃ (op status : BitVec 4) (info : BitVec 8) (ps : List Half),
    g = markLast ((op ++ (status ++ info)) :: ps) ∧
    ((status = statusOk ∧ (op = opEnc ∨ op = opGen) ∧ legalWordCount ps.length = true ∧
        info.toNat = ps.length ∧ ∀ p ∈ ps, p.toNat < 2048) ∨
     (status = statusOk ∧ op = opDec ∧ legalEntropyBytes ps.length = true ∧
        info.toNat = ps.length ∧ ∀ p ∈ ps, p.toNat < 256) ∨
     (status = statusOk ∧ op = opVal ∧ info = 0 ∧ ps = []) ∨
     (status = statusNoValue ∧ (op = opDec ∨ op = opVal) ∧ info = 0 ∧ ps = []) ∨
     (status = statusFault ∧ ps = [] ∧ ∃ c : Cause, causeFits op c = true ∧ info = c.code))

/-- Every response frame in the history is one of R76. -/
def ResponsesLegal (s : State) : Prop := ∀ g, .rsp g ∈ s.log → legalResponse g

/-- The state a frame leaves when its response of `beats` beats has been taken whole: every register zero (R26), the
events `evs` added, everything else as `s` has it. -/
def afterFrame (s : State) (beats : Nat) (evs : List Event) : State :=
  { s with regs := Regs.zero, rspReady := s.rspReady - beats, rspSent := [], log := s.log ++ evs }

/-- A one-beat response (R183, R186). -/
def oneBeat (header : Half) : List Beat := [⟨header, true⟩]

/-- An `OK` response with payload: the header `op << 12 | number of payload beats`, then the data (R71, R75). -/
def okResponse (op : BitVec 4) (payload : List Half) : List Beat :=
  markLast ((op ++ BitVec.ofNat 12 payload.length) :: payload)

/-- The byte beats of well-formed entropy bytes (R62). -/
def byteBeats (e : List Byte) : List ByteBeat := e.map fun b => ⟨0, b⟩

/-- The tokens of found words (R63). -/
def foundTokens (ws : List Index) : List TokenBeat := ws.map fun i => ⟨0, false, i⟩

/-- A digest written as one number, byte 0 most significant, as R154 prints it. -/
def digestNumber (d : Digest) : Nat := d.toList.foldl (fun acc b => acc * 256 + b.toNat) 0

/-- The bytes `00 01 .. n-1` (R154). -/
def countingBytes (n : Nat) : List Byte := (List.range n).map (BitVec.ofNat 8)

end Sys2Proof.Machine
end

