-- ==== Sys2Proof/Certificates/Slice0/Obligations.lean ====
section
/-! DEFINITION. The statements for the provers. Each docstring names the rules of spec/ it formalises. A statement about
`exec` takes an idle block; "the host takes the response" is `33 ≤ s.rspReady` (R226: 1 to 33 response beats). The
queues that hold the other agents' answers and coming moves are the model's form of them (log 2), the history and the
beats already moved are the model's observation (log 5), the header-sent bit is the model's (log 4), and that one step
of an idle block runs a whole frame is the model's choice (log 6). No statement rests on which function
`platformConfig.sha256` is, but for `ReferenceDigests` and `KnownVector` (log 1). -/

open Sys2Proof Sys2Proof.Machine

/-! Encodings -/

/-- Words written out from R61 to R65 and R77 decode to the operations they stand for; opcodes 0, 5 and 15 are refused
by name, and a frame without its `last` beat is incomplete. A sanity statement. -/
def Obligations.SpecWordsDecode : Prop :=
  decodeTableWord 16 0b0001000000000000 = some (.enc 0 []) ∧
  decodeTableWord 16 0b0010000000000000 = some (.dec 0 []) ∧
  decodeTableWord 16 0b0011000000000000 = some (.val 0 []) ∧
  decodeTableWord 16 0b0100000010000000 = some (.gen 0 128 []) ∧
  decodeTableWord 16 0b0100000100000000 = some (.gen 0 256 []) ∧
  decodeTableWord 16 0b0100001010000000 = some (.gen 1 128 []) ∧
  decode [⟨0x1000, false⟩, ⟨0x00AA, true⟩] = .ok (.enc 0 [⟨0, 0xAA⟩], []) ∧
  decode [⟨0x2000, false⟩, ⟨0x07FF, false⟩, ⟨0x0803, true⟩, ⟨0x1000, true⟩] =
    .ok (.dec 0 [⟨0, false, 2047⟩, ⟨0, true, 3⟩], [⟨0x1000, true⟩]) ∧
  decode [⟨0x3000, false⟩, ⟨0xF005, true⟩] = .ok (.val 0 [⟨0xF, false, 5⟩], []) ∧
  decode [⟨0x0000, true⟩] = .error (.illegalOp 0) ∧
  decode [⟨0x5123, false⟩, ⟨0xFFFF, true⟩] = .error (.illegalOp 5) ∧
  decode [⟨0xF000, true⟩] = .error (.illegalOp 15) ∧
  decode [⟨0x1000, false⟩] = .error .incomplete

/-- Decoding the frame of an operation, whatever beats follow it, gives that operation back with every field of its
frame, the must-be-zero ones too, and the beats that follow (R60 to R67). -/
def Obligations.DecodeOfEncode : Prop :=
  ∀ (i : Instr) (rest : List Beat), decode (encode i ++ rest) = .ok (i, rest)

/-- What decodes to an operation is that operation's frame, bit for bit, and the beats after it (R60 to R67). -/
def Obligations.EncodeOfDecode : Prop :=
  ∀ (bs rest : List Beat) (i : Instr), decode bs = .ok (i, rest) → bs = encode i ++ rest

/-- R69, its table of frames by raw bits: a frame with `OP` 0 or 5 to 15 is an illegal operation; any other frame is an
operation's, and it is well-formed exactly when no row of the table calls it malformed. -/
def Obligations.EveryFrameIsClassified : Prop :=
  ∀ (h : Half) (ps : List Half),
    ((h.toNat / 4096 = 0 ∨ 5 ≤ h.toNat / 4096) →
      decode (markLast (h :: ps)) = .error (.illegalOp (BitVec.ofNat 4 (h.toNat / 4096)))) ∧
    ((1 ≤ h.toNat / 4096 ∧ h.toNat / 4096 ≤ 4) →
      ∃ i : Instr, decode (markLast (h :: ps)) = .ok (i, []) ∧
        (i.wellFormed = true ↔
          (h.toNat / 4096 ≤ 3 → h.toNat % 4096 = 0) ∧
          (h.toNat / 4096 = 4 → h.toNat / 512 % 8 = 0 ∧ ps = []) ∧
          (h.toNat / 4096 = 1 → ∀ p ∈ ps, p.toNat < 256) ∧
          ((h.toNat / 4096 = 2 ∨ h.toNat / 4096 = 3) → ∀ p ∈ ps, p.toNat < 4096)))

/-! The step -/

/-- When the beats offered to an idle block begin with the frame of an operation, the step is that operation's `exec` on
the state with the frame taken off the request channel (R29, R52). -/
def Obligations.StepRunsDecodedInstr : Prop :=
  ∀ (s : State) (i : Instr) (rest : List Beat),
    s.rst = false → s.regs.ph = .idle → decode s.reqQ = .ok (i, rest) →
      step s = exec i { s with reqQ := rest }

/-- What `step` does besides: while the core waits it applies the next move of another agent; in every other state that
is not "an idle block with a whole frame offered" the sequencer takes one step (R29 to R35, R222; log 2, log 6). -/
def Obligations.StepOtherwise : Prop :=
  ∀ s : State, s.rst = false →
    (coreEnabled s = false → step s = .next (waitStep s)) ∧
    (coreEnabled s = true → (s.regs.ph ≠ .idle ∨ decode s.reqQ = .error .incomplete) →
      step s = .next (seqStep platformConfig s))

/-- R191, its response as R186 gives it: a frame with a reserved `OP`, header and payload whatever they hold, is consumed whole and answered by
the one beat `0xoF01`, `o` its nibble; every register is zero afterwards and nothing else of the state changes. That all of
this is ONE step is the model's choice (log 6): the spec's steps are one beat each (R29 to R35). -/
def Obligations.ReservedOpcodeFaults : Prop :=
  ∀ (s : State) (h : Half) (ps : List Half) (rest : List Beat),
    s.rst = false → s.regs.ph = .idle → 1 ≤ s.rspReady →
    (h.toNat / 4096 = 0 ∨ 5 ≤ h.toNat / 4096) → s.reqQ = markLast (h :: ps) ++ rest →
      step s = .next (afterFrame { s with reqQ := rest } 1
        [.req (markLast (h :: ps)), .rsp (oneBeat (BitVec.ofNat 16 (h.toNat / 4096 * 4096 + 0xF01)))])

/-- Every step ends in a next state: the block never stops (R188, R222); faults are responses. -/
def Obligations.StepAlwaysHasNextState : Prop := ∀ s : State, ∃ t : State, step s = .next t

/-- R222: with the other agents still, a block that waits in `RECV`, `RNGW`, `HASHW` or `EMIT` (or in `IDLE` for a first
beat) stays exactly where it is for ever. -/
def Obligations.WaitingLastsForEver : Prop :=
  ∀ (s : State) (k : Nat),
    s.rst = false → s.env = [] →
    ((s.regs.ph = .idle ∧ s.reqQ = []) ∨ (s.regs.ph = .recv ∧ s.reqQ = []) ∨ (s.regs.ph = .rngw ∧ s.entQ = []) ∨
      (s.regs.ph = .hashw ∧ s.digQ = []) ∨ (s.regs.ph = .emit ∧ s.rspReady = 0)) →
      Host.Core.run Sys2Proof.core k s = .next s

/-- While the core waits, whatever another agent does leaves every working register, the history and the beats already
moved as they are (R222: no rule lets the block move on by itself). -/
def Obligations.WaitingChangesNoRegister : Prop :=
  ∀ s : State, s.rst = false → coreEnabled s = false →
    ∃ t : State, step s = .next t ∧ t.regs = s.regs ∧ t.log = s.log ∧ t.reqSeen = s.reqSeen ∧
      t.rspSent = s.rspSent ∧ t.env = s.env.tail

/-- R42 and R52: a block that is not idle takes no frame, and outside `IDLE` and `RECV` a core step leaves every offered
beat on the request channel. -/
def Obligations.BusyBlockTakesNoFrame : Prop :=
  (∀ (i : Instr) (s : State), s.regs.ph ≠ .idle → exec i s = .next s) ∧
  (∀ s : State, s.rst = false → coreEnabled s = true → reqReady s = false →
    ∃ t : State, step s = .next t ∧ t.reqQ = s.reqQ)

/-- R35 at any moment of a response: the host's acceptance moves the next beat of the response frame the registers
describe; the last beat ends the frame, with every register zero and the frame in the history. -/
def Obligations.EmitSendsTheResponseInOrder : Prop :=
  ∀ s : State, BlockInv s → s.rst = false → s.regs.ph = .emit → 1 ≤ s.rspReady →
    ∃ b : Beat, (responseFrame s.regs)[s.rspSent.length]? = some b ∧
      step s = .next (if b.last
        then { s with regs := Regs.zero, rspReady := s.rspReady - 1, rspSent := [],
                      log := s.log ++ [.rsp (responseFrame s.regs)] }
        else { s with regs := { s.regs with hs := true, ec := BitVec.ofNat 6 s.rspSent.length },
                      rspReady := s.rspReady - 1, rspSent := s.rspSent ++ [b] })

/-- A header without `last` opens a frame (R29): the opcode, the flags and the strength are latched, the block is in
`RECV`, and nothing else changes. -/
def Obligations.HeaderOpensFrame : Prop :=
  ∀ (s : State) (h : Half) (bs : List Beat),
    BlockInv s → s.rst = false → s.regs.ph = .idle → s.reqQ = ⟨h, false⟩ :: bs → (∀ b ∈ bs, b.last = false) →
      step s = .next { s with
        reqQ := bs
        reqSeen := [⟨h, false⟩]
        regs := { Regs.zero with
          ph := .recv
          opr := BitVec.ofNat 4 (h.toNat / 4096)
          ill := decide (h.toNat / 4096 = 0 ∨ 5 ≤ h.toNat / 4096)
          bad := decide ((1 ≤ h.toNat / 4096 ∧ h.toNat / 4096 ≤ 3 ∧ h.toNat % 4096 ≠ 0) ∨
            (h.toNat / 4096 = 4 ∧ h.toNat / 512 % 8 ≠ 0))
          str := if h.toNat / 4096 = 4 then BitVec.ofNat 9 (h.toNat % 512) else 0 } }

/-- R32 at the moment the answer comes: `err` sets up the fault `ENTROPY_SOURCE_FAIL`; `ok` puts the `EL` drawn bytes
into `EB` and asks for their digest. Nothing else changes. -/
def Obligations.EntropyAnswerStep : Prop :=
  ∀ s : State, BlockInv s → s.rst = false → s.regs.ph = .rngw →
    (∀ q, s.entQ = .err :: q → step s = .next { s with
      entQ := q
      regs := { s.regs with ph := .emit, rst := 0xF, rin := 0x06 }
      log := s.log ++ [.ersp none] }) ∧
    (∀ (draw : Vector Byte 32) (q : List EntropyAnswer), s.entQ = .ok draw :: q →
      let e := draw.toList.take s.regs.el.toNat
      e.length = s.regs.el.toNat ∧
      step s = .next { s with
        entQ := q
        regs := { s.regs with ph := .hashw, eb := fill s.regs.eb e }
        log := s.log ++ [.ersp (some e), .dreq e] })

/-- R33 at the moment the answer comes: `err` sets up the fault `DIGEST_FAIL`; `ok` latches the digest of the bytes held
and finishes by the opcode: the `3·EL/4` indices into `WB` for `ENC` and `GEN`; for `DEC` and `VAL` the leading `EL/4`
digest bits against `CK`, then OK with `EL` (`DEC`) or 0 (`VAL`), or NOVALUE. Nothing else changes. -/
def Obligations.DigestAnswerStep : Prop :=
  ∀ s : State, BlockInv s → s.rst = false → s.regs.ph = .hashw →
    (∀ q, s.digQ = .err :: q → step s = .next { s with
      digQ := q
      regs := { s.regs with ph := .emit, rst := 0xF, rin := 0x07 }
      log := s.log ++ [.drsp none] }) ∧
    (∀ q, s.digQ = .ok :: q →
      let r := s.regs
      let e := entropyHeld r
      let d := platformConfig.sha256 e
      let n := 3 * r.el.toNat / 4
      step s = .next { s with
        digQ := q
        log := s.log ++ [.drsp (some d.toList)]
        regs :=
          if r.opr = 1 ∨ r.opr = 4 then
            { r with
              ph := .emit, dg := d, rst := 0, rin := BitVec.ofNat 8 n, wc := BitVec.ofNat 5 n
              wb := fill r.wb ((List.range n).map fun i => BitVec.ofNat 11
                (uint (slice (bitsOf e ++ (bitsOf d.toList).take (r.el.toNat / 4)) (11 * i) (11 * i + 11)))) }
          else if uint ((bitsOf d.toList).take (r.el.toNat / 4)) ≠ r.ck.toNat then
            { r with ph := .emit, dg := d, rst := 1 }
          else if r.opr = 2 then { r with ph := .emit, dg := d, rin := r.el.setWidth 8 }
          else { r with ph := .emit, dg := d } })

/-! What a received frame leaves in the registers -/

/-- R30 and R230 over a whole frame: latched beat by beat, the registers end as the operands say. For `ENC`, `EB` holds
the first 32 bytes, `EL` is the count saturated at 33 and `EA` the count modulo 4; for `DEC` and `VAL`, `WB` holds the
first 24 indices, `WC` the count saturated at 25, `MS` whether some token missed; `BAD` is set exactly by a frame that is
not well-formed. -/
def Obligations.ReceivedFrameRegisters : Prop :=
  (∀ (mbz : BitVec 12) (bytes : List ByteBeat),
    frameRegs (encode (.enc mbz bytes)) = { Regs.zero with
      ph := .recv
      opr := 1
      bad := !(Instr.enc mbz bytes).wellFormed
      eb := fill Regs.zero.eb (bytes.map ByteBeat.byte)
      el := BitVec.ofNat 6 (min bytes.length 33)
      ea := BitVec.ofNat 2 (bytes.length % 4) }) ∧
  (∀ (mbz : BitVec 12) (tokens : List TokenBeat),
    frameRegs (encode (.dec mbz tokens)) = { Regs.zero with
      ph := .recv
      opr := 2
      bad := !(Instr.dec mbz tokens).wellFormed
      ms := tokens.any TokenBeat.miss
      wb := fill Regs.zero.wb (tokens.map TokenBeat.idx)
      wc := BitVec.ofNat 5 (min tokens.length 25) }) ∧
  (∀ (mbz : BitVec 12) (tokens : List TokenBeat),
    frameRegs (encode (.val mbz tokens)) = { Regs.zero with
      ph := .recv
      opr := 3
      bad := !(Instr.val mbz tokens).wellFormed
      ms := tokens.any TokenBeat.miss
      wb := fill Regs.zero.wb (tokens.map TokenBeat.idx)
      wc := BitVec.ofNat 5 (min tokens.length 25) }) ∧
  (∀ (mbz : BitVec 3) (strength : BitVec 9) (extra : List Half),
    frameRegs (encode (.gen mbz strength extra)) = { Regs.zero with
      ph := .recv
      opr := 4
      bad := !(Instr.gen mbz strength extra).wellFormed
      str := strength })

/-! The operations -/

/-- R91, whole: `ENC` on an idle block whose response the host takes. The checks in their order, then the digest request
for the payload bytes: no answer yet leaves the block in `HASHW`, `err` gives `DIGEST_FAIL`, `ok` gives the `3L/4`
indices, each the unsigned integer of eleven consecutive bits of the entropy bits followed by the leading `L/4` digest
bits. Everything the state holds besides is as before. -/
def Obligations.EncFollowsItsRule : Prop :=
  ∀ (mbz : BitVec 12) (bytes : List ByteBeat) (s : State), s.regs.ph = .idle → 33 ≤ s.rspReady →
    exec (.enc mbz bytes) s = .next (
      let f := encode (.enc mbz bytes)
      let e := bytes.map ByteBeat.byte
      if (Instr.enc mbz bytes).wellFormed = false then afterFrame s 1 [.req f, .rsp (oneBeat 0x1F02)]
      else if e.length % 4 ≠ 0 then afterFrame s 1 [.req f, .rsp (oneBeat 0x1F03)]
      else if e.length ∉ [16, 20, 24, 28, 32] then afterFrame s 1 [.req f, .rsp (oneBeat 0x1F04)]
      else
        match s.digQ with
        | [] => { s with regs := { encRegs mbz bytes with ph := .hashw }, log := s.log ++ [.req f, .dreq e] }
        | .err :: q =>
          { afterFrame s 1 [.req f, .dreq e, .drsp none, .rsp (oneBeat 0x1F07)] with digQ := q }
        | .ok :: q =>
          let d := platformConfig.sha256 e
          let bits := bitsOf e ++ (bitsOf d.toList).take (e.length / 4)
          let words := (List.range (3 * e.length / 4)).map fun i =>
            BitVec.ofNat 16 (uint (slice bits (11 * i) (11 * i + 11)))
          { afterFrame s (3 * e.length / 4 + 1)
              [.req f, .dreq e, .drsp (some d.toList), .rsp (okResponse 1 words)] with digQ := q })

/-- R105, whole: `GEN` on an idle block whose response the host takes. The checks, then the entropy request for `S/8`
bytes (no answer yet: `RNGW`; `err`: `ENTROPY_SOURCE_FAIL` and no digest request), then as `ENC` on the drawn bytes, for
every draw. -/
def Obligations.GenFollowsItsRule : Prop :=
  ∀ (mbz : BitVec 3) (strength : BitVec 9) (extra : List Half) (s : State), s.regs.ph = .idle → 33 ≤ s.rspReady →
    exec (.gen mbz strength extra) s = .next (
      let f := encode (.gen mbz strength extra)
      let l := strength.toNat / 8
      let regs := { genRegs mbz strength extra with el := BitVec.ofNat 6 l }
      if (Instr.gen mbz strength extra).wellFormed = false then afterFrame s 1 [.req f, .rsp (oneBeat 0x4F02)]
      else if strength.toNat ∉ [128, 160, 192, 224, 256] then afterFrame s 1 [.req f, .rsp (oneBeat 0x4F05)]
      else
        match s.entQ with
        | [] => { s with regs := { regs with ph := .rngw }, log := s.log ++ [.req f, .ereq l] }
        | .err :: eq =>
          { afterFrame s 1 [.req f, .ereq l, .ersp none, .rsp (oneBeat 0x4F06)] with entQ := eq }
        | .ok draw :: eq =>
          let e := draw.toList.take l
          match s.digQ with
          | [] => { s with
              entQ := eq
              regs := { regs with ph := .hashw, eb := fill Regs.zero.eb e }
              log := s.log ++ [.req f, .ereq l, .ersp (some e), .dreq e] }
          | .err :: q =>
            { afterFrame s 1 [.req f, .ereq l, .ersp (some e), .dreq e, .drsp none, .rsp (oneBeat 0x4F07)] with
              entQ := eq, digQ := q }
          | .ok :: q =>
            let d := platformConfig.sha256 e
            let bits := bitsOf e ++ (bitsOf d.toList).take (l / 4)
            let words := (List.range (3 * l / 4)).map fun i =>
              BitVec.ofNat 16 (uint (slice bits (11 * i) (11 * i + 11)))
            { afterFrame s (3 * l / 4 + 1)
                [.req f, .ereq l, .ersp (some e), .dreq e, .drsp (some d.toList), .rsp (okResponse 4 words)] with
              entQ := eq, digQ := q })

/-- R121, whole (with R122 to R125 and R127): `DEC` on an idle block whose response the host takes. The format check, the
structural check with no digest request, the reconstruction, the split, the digest request for the reconstructed bytes,
and the bit-for-bit comparison of the claimed with the expected checksum. -/
def Obligations.DecFollowsItsRule : Prop :=
  ∀ (mbz : BitVec 12) (tokens : List TokenBeat) (s : State), s.regs.ph = .idle → 33 ≤ s.rspReady →
    exec (.dec mbz tokens) s = .next (
      let f := encode (.dec mbz tokens)
      let n := tokens.length
      let bits := tokens.flatMap fun t => bin t.idx
      let sp := 11 * n * 32 / 33
      let e := (List.range (sp / 8)).map fun k => BitVec.ofNat 8 (uint (slice bits (8 * k) (8 * k + 8)))
      if (Instr.dec mbz tokens).wellFormed = false then afterFrame s 1 [.req f, .rsp (oneBeat 0x2F02)]
      else if n ∉ [12, 15, 18, 21, 24] ∨ (∃ t ∈ tokens, t.miss = true) then
        afterFrame s 1 [.req f, .rsp (oneBeat 0x2100)]
      else
        match s.digQ with
        | [] => { s with
            regs := { reconstruct (tokens.map TokenBeat.idx) (tokenRegs 2 mbz tokens) with ph := .hashw }
            log := s.log ++ [.req f, .dreq e] }
        | .err :: q =>
          { afterFrame s 1 [.req f, .dreq e, .drsp none, .rsp (oneBeat 0x2F07)] with digQ := q }
        | .ok :: q =>
          let d := platformConfig.sha256 e
          if bits.drop sp ≠ (bitsOf d.toList).take (n / 3) then
            { afterFrame s 1 [.req f, .dreq e, .drsp (some d.toList), .rsp (oneBeat 0x2100)] with digQ := q }
          else
            { afterFrame s (4 * n / 3 + 1)
                [.req f, .dreq e, .drsp (some d.toList), .rsp (okResponse 2 (e.map (BitVec.setWidth 16)))] with
              digQ := q })

/-- R140, whole (with R141 and R143): `VAL` on an idle block whose response the host takes: every step of `DEC`, always
with the full checksum verification, answered by the one beat `0x3000` (true), `0x3100` (false) or a fault. -/
def Obligations.ValFollowsItsRule : Prop :=
  ∀ (mbz : BitVec 12) (tokens : List TokenBeat) (s : State), s.regs.ph = .idle → 33 ≤ s.rspReady →
    exec (.val mbz tokens) s = .next (
      let f := encode (.val mbz tokens)
      let n := tokens.length
      let bits := tokens.flatMap fun t => bin t.idx
      let sp := 11 * n * 32 / 33
      let e := (List.range (sp / 8)).map fun k => BitVec.ofNat 8 (uint (slice bits (8 * k) (8 * k + 8)))
      if (Instr.val mbz tokens).wellFormed = false then afterFrame s 1 [.req f, .rsp (oneBeat 0x3F02)]
      else if n ∉ [12, 15, 18, 21, 24] ∨ (∃ t ∈ tokens, t.miss = true) then
        afterFrame s 1 [.req f, .rsp (oneBeat 0x3100)]
      else
        match s.digQ with
        | [] => { s with
            regs := { reconstruct (tokens.map TokenBeat.idx) (tokenRegs 3 mbz tokens) with ph := .hashw }
            log := s.log ++ [.req f, .dreq e] }
        | .err :: q =>
          { afterFrame s 1 [.req f, .dreq e, .drsp none, .rsp (oneBeat 0x3F07)] with digQ := q }
        | .ok :: q =>
          let d := platformConfig.sha256 e
          if bits.drop sp ≠ (bitsOf d.toList).take (n / 3) then
            { afterFrame s 1 [.req f, .dreq e, .drsp (some d.toList), .rsp (oneBeat 0x3100)] with digQ := q }
          else
            { afterFrame s 1 [.req f, .dreq e, .drsp (some d.toList), .rsp (oneBeat 0x3000)] with digQ := q })

/-- The frame of every operation, in every phase, with every answer and however far the host takes the response: the
request channel, the reset input, the agents' coming moves and the beats of a frame being received are untouched; at
most one digest choice is used, at most one entropy answer and only by `GEN`; the history only grows; acceptance is only
used up (R45, R54, R98, R129, R223). -/
def Obligations.ExecFrame : Prop :=
  ∀ (i : Instr) (s t : State), exec i s = .next t →
    t.reqQ = s.reqQ ∧ t.env = s.env ∧ t.rst = s.rst ∧ t.reqSeen = s.reqSeen ∧
    (t.digQ = s.digQ ∨ t.digQ = s.digQ.tail) ∧
    (t.entQ = s.entQ ∨ ((∃ mbz strength extra, i = .gen mbz strength extra) ∧ t.entQ = s.entQ.tail)) ∧
    (∃ evs : List Event, t.log = s.log ++ evs) ∧ t.rspReady ≤ s.rspReady

/-- A host that stops reading in the middle of an `ENC` response: the block stays in `EMIT` with exactly the accepted
beats sent, a prefix of the response frame that a host reading on would get (R42, R222). -/
def Obligations.EncResponseWaitsForHost : Prop :=
  ∀ (e : List Byte) (s : State) (q : List DigestChoice),
    s.regs.ph = .idle → legalEntropyBytes e.length = true → s.digQ = .ok :: q → s.rspReady ≤ 3 * e.length / 4 →
      ∃ t : State, exec (.enc 0 (byteBeats e)) s = .next t ∧ t.regs.ph = .emit ∧ t.rspReady = 0 ∧
        t.rspSent = (okResponse 1 ((wordsOf e (platformConfig.sha256 e)).map (BitVec.setWidth 16))).take s.rspReady ∧
        t.log = s.log ++ [.req (encode (.enc 0 (byteBeats e))), .dreq e,
          .drsp (some (platformConfig.sha256 e).toList)]

/-- Suspension is invisible in the result: a digest answer that comes while an operation waits in `HASHW` leads the
sequencer to the very state the operation reaches when the answer is there from the start (R26, R33, R157). -/
def Obligations.LateDigestAnswerSameResult : Prop :=
  ∀ (cfg : Config) (i : Instr) (s t u : State) (c : DigestChoice),
    s.digQ = [] → execUnder cfg i s = .next t → t.regs.ph = .hashw → s.regs.ph = .idle →
    execUnder cfg i { s with digQ := [c] } = .next u →
      ∃ k : Nat, seqSteps cfg k { t with digQ := [c] } = u

/-! Equivalences -/

/-- The meaning of an operation is what the sequencer's beat-by-beat rules R29 to R35 make of its frame, wherever the
frame has been received so far: in every consistent state whose received and offered beats begin with an operation's
frame, some number of sequencer steps leads to the state the operation's meaning gives, for every configuration. -/
def Obligations.SequencerRefinesExec : Prop :=
  ∀ (cfg : Config) (i : Instr) (s : State) (rest : List Beat),
    BlockInv s → (s.regs.ph = .idle ∨ s.regs.ph = .recv) → s.reqSeen ++ s.reqQ = encode i ++ rest →
      ∃ k : Nat, execUnder cfg i { s with regs := Regs.zero, reqSeen := [], reqQ := rest } =
        .next (seqSteps cfg k s)

/-- The same for a frame with a reserved `OP` (R29 to R31, R191). -/
def Obligations.SequencerRefinesIllegalOp : Prop :=
  ∀ (cfg : Config) (h : Half) (ps : List Half) (s : State) (rest : List Beat),
    BlockInv s → (s.regs.ph = .idle ∨ s.regs.ph = .recv) → reservedOp (opField h) = true →
    s.reqSeen ++ s.reqQ = markLast (h :: ps) ++ rest →
      ∃ k : Nat, takeIllegalOp cfg (h :: ps) { s with regs := Regs.zero, reqSeen := [], reqQ := rest } =
        seqSteps cfg k s

/-- R144: on every token sequence and every answer of the digest unit, `VAL` and `DEC` have the same events between
request and response, and `VAL` answers OK, NOVALUE or a fault exactly where `DEC` does, a fault with the same cause. -/
def Obligations.ValAgreesWithDec : Prop :=
  ∀ (cfg : Config) (mbz : BitVec 12) (tokens : List TokenBeat) (s : State),
    s.regs.ph = .idle → 33 ≤ s.rspReady → s.digQ ≠ [] →
      ∃ (td tv : State) (evs : List Event) (gd gv : List Beat),
        execUnder cfg (.dec mbz tokens) s = .next td ∧ execUnder cfg (.val mbz tokens) s = .next tv ∧
        td.log = s.log ++ [.req (encode (.dec mbz tokens))] ++ evs ++ [.rsp gd] ∧
        tv.log = s.log ++ [.req (encode (.val mbz tokens))] ++ evs ++ [.rsp gv] ∧
        ((∃ e : List Byte, legalEntropyBytes e.length = true ∧
            gd = okResponse 2 (e.map (BitVec.setWidth 16)) ∧ gv = oneBeat 0x3000) ∨
         (gd = oneBeat 0x2100 ∧ gv = oneBeat 0x3100) ∨
         (∃ c : Cause, (c = .illegalFrame ∨ c = .digestFail) ∧
            gd = oneBeat (0x2F#8 ++ c.code) ∧ gv = oneBeat (0x3F#8 ++ c.code)))

/-- R130: for any valid entropy, the indices `ENC` answers, sent to `DEC` with every `MISS = 0`, give the entropy back,
for every digest function that answers both requests. -/
def Obligations.DecodeUndoesEncode : Prop :=
  ∀ (cfg : Config) (e : List Byte) (s s' : State) (q q' : List DigestChoice),
    legalEntropyBytes e.length = true →
    s.regs.ph = .idle → 33 ≤ s.rspReady → s.digQ = .ok :: q →
    s'.regs.ph = .idle → 33 ≤ s'.rspReady → s'.digQ = .ok :: q' →
      ∃ (ws : List Index) (t t' : State),
        execUnder cfg (.enc 0 (byteBeats e)) s = .next t ∧
        t.log.getLast? = some (.rsp (okResponse 1 (ws.map (BitVec.setWidth 16)))) ∧
        execUnder cfg (.dec 0 (foundTokens ws)) s' = .next t' ∧
        t'.log.getLast? = some (.rsp (okResponse 2 (e.map (BitVec.setWidth 16))))

/-- R110: for every strength of the five and every draw, `GEN` answers `(s + s/32) / 11` indices, and these indices sent
to `VAL` give true, for every digest function that answers both requests. -/
def Obligations.ValidatorAcceptsGenerated : Prop :=
  ∀ (cfg : Config) (strength : BitVec 9) (draw : Vector Byte 32) (eq : List EntropyAnswer) (s s' : State)
    (q q' : List DigestChoice),
    strength.toNat ∈ [128, 160, 192, 224, 256] →
    s.regs.ph = .idle → 33 ≤ s.rspReady → s.entQ = .ok draw :: eq → s.digQ = .ok :: q →
    s'.regs.ph = .idle → 33 ≤ s'.rspReady → s'.digQ = .ok :: q' →
      ∃ (ws : List Index) (t t' : State),
        ws.length = (strength.toNat + strength.toNat / 32) / 11 ∧
        execUnder cfg (.gen 0 strength []) s = .next t ∧
        t.log.getLast? = some (.rsp (okResponse 4 (ws.map (BitVec.setWidth 16)))) ∧
        execUnder cfg (.val 0 (foundTokens ws)) s' = .next t' ∧
        t'.log.getLast? = some (.rsp (oneBeat 0x3000))

/-- R131: flipping any single bit of the checksum portion (the last `N/3` bits of the last index) of a sequence that
`DEC` accepts gives NOVALUE, for every digest function. -/
def Obligations.ChecksumFlipIsCaught : Prop :=
  ∀ (cfg : Config) (ws : List Index) (w : Index) (j : Nat) (s s' t : State) (q q' : List DigestChoice)
    (e : List Byte),
    j < (ws.length + 1) / 3 → legalWordCount (ws.length + 1) = true →
    s.regs.ph = .idle → 33 ≤ s.rspReady → s.digQ = .ok :: q →
    s'.regs.ph = .idle → 33 ≤ s'.rspReady → s'.digQ = .ok :: q' →
    execUnder cfg (.dec 0 (foundTokens (ws ++ [w]))) s = .next t →
    t.log.getLast? = some (.rsp (okResponse 2 (e.map (BitVec.setWidth 16)))) →
      ∃ t' : State, execUnder cfg (.dec 0 (foundTokens (ws ++ [w ^^^ BitVec.twoPow 11 j]))) s' = .next t' ∧
        t'.log.getLast? = some (.rsp (oneBeat 0x2100))

/-- R132: a frame of 13 tokens, or one with a token that missed, gives NOVALUE from `DEC` and from `VAL`, with no digest
request, whatever the tokens and whatever the digest unit would do. -/
def Obligations.StructuralNoValue : Prop :=
  ∀ (tokens : List TokenBeat) (s : State),
    (∀ t ∈ tokens, t.mbz = 0) → (tokens.length = 13 ∨ ∃ t ∈ tokens, t.miss = true) →
    s.regs.ph = .idle → 1 ≤ s.rspReady →
      exec (.dec 0 tokens) s =
        .next (afterFrame s 1 [.req (encode (.dec 0 tokens)), .rsp (oneBeat 0x2100)]) ∧
      exec (.val 0 tokens) s =
        .next (afterFrame s 1 [.req (encode (.val 0 tokens)), .rsp (oneBeat 0x3100)])

/-- R111 (a): given the draw, `GEN` answers exactly what `ENC` answers for the drawn bytes, with nibble 4 for 1. -/
def Obligations.GenAnswersAsEncOfItsDraw : Prop :=
  ∀ (cfg : Config) (strength : BitVec 9) (draw : Vector Byte 32) (eq : List EntropyAnswer) (s : State)
    (q : List DigestChoice),
    strength.toNat ∈ [128, 160, 192, 224, 256] →
    s.regs.ph = .idle → 33 ≤ s.rspReady → s.entQ = .ok draw :: eq → s.digQ = .ok :: q →
      ∃ (tg te : State) (payload : List Half),
        execUnder cfg (.gen 0 strength []) s = .next tg ∧
        execUnder cfg (.enc 0 (byteBeats (draw.toList.take (strength.toNat / 8)))) s = .next te ∧
        tg.log.getLast? = some (.rsp (okResponse 4 payload)) ∧
        te.log.getLast? = some (.rsp (okResponse 1 payload))

/-! Bit strings -/

/-- R49: where each bit of the concatenated string lies in the entropy, the digest and the indices; index 0, index 1 and
the last index by their formulas. -/
def Obligations.IndexBitsInTheEntropy : Prop :=
  ∀ (e : List Byte) (d : Digest), legalEntropyBytes e.length = true →
    (∀ j : Nat, j < 11 * (3 * e.length / 4) →
      ((wordsOf e d).getD (j / 11) 0).getLsbD (10 - j % 11) =
        if j < 8 * e.length then (e.getD (j / 8) 0).getLsbD (7 - j % 8)
        else (d.toList.getD 0 0).getLsbD (7 - (j - 8 * e.length))) ∧
    ((wordsOf e d).getD 0 0).toNat = (e.getD 0 0).toNat * 8 + (e.getD 1 0).toNat / 32 ∧
    ((wordsOf e d).getD 1 0).toNat = (e.getD 1 0).toNat % 32 * 64 + (e.getD 2 0).toNat / 4 ∧
    ((wordsOf e d).getD (3 * e.length / 4 - 1) 0).toNat % 2 ^ (e.length / 4) =
      (d.toList.getD 0 0).toNat / 2 ^ (8 - e.length / 4)

/-- R231: the laws of the bit-string primitives. -/
def Obligations.BitStringLaws : Prop :=
  (∀ (n : Nat) (v : BitVec n), (bin v).length = n ∧ uint (bin v) = v.toNat) ∧
  (∀ s : List Bool, bin (BitVec.ofNat s.length (uint s)) = s ∧ uint s < 2 ^ s.length) ∧
  (∀ s t : List Bool, (s ++ t).length = s.length + t.length ∧ slice (s ++ t) 0 s.length = s ∧
    slice (s ++ t) s.length (s.length + t.length) = t) ∧
  (∀ b : List Byte, (bitsOf b).length = 8 * b.length ∧ bytesOf (bitsOf b) = b) ∧
  (∀ s : List Bool, s.length % 8 = 0 → bitsOf (bytesOf s) = s) ∧
  (∀ (b : List Byte) (k : Nat), k < b.length → slice (bitsOf b) (8 * k) (8 * k + 8) = bin (b.getD k 0)) ∧
  (∀ (b : List Byte) (c : Nat), 1 ≤ c → c ≤ 8 → 1 ≤ b.length →
    uint (slice (bitsOf b) 0 c) = (b.getD 0 0).toNat >>> (8 - c)) ∧
  (∀ (s : List Bool) (w : Nat), s.length = 11 * w →
    s = (List.range w).flatMap fun i => bin (BitVec.ofNat 11 (uint (slice s (11 * i) (11 * i + 11)))))

/-! Reset -/

/-- R28, whole: after reset every working register is zero, each entry of the buffers too; no request is outstanding on
the digest or the entropy port (the block is in neither wait) and no beat is in flight on the response channel. -/
def Obligations.ResetLeavesZero : Prop :=
  State.reset.regs.ph = .idle ∧ State.reset.regs.opr = 0 ∧ State.reset.regs.str = 0 ∧
  (∀ k, State.reset.regs.eb.toList.getD k 0 = 0) ∧ State.reset.regs.el = 0 ∧ State.reset.regs.ea = 0 ∧
  (∀ k, State.reset.regs.wb.toList.getD k 0 = 0) ∧ State.reset.regs.wc = 0 ∧ State.reset.regs.ck = 0 ∧
  (∀ k, State.reset.regs.dg.toList.getD k 0 = 0) ∧ State.reset.regs.ill = false ∧
  State.reset.regs.bad = false ∧ State.reset.regs.ms = false ∧ State.reset.regs.rst = 0 ∧
  State.reset.regs.rin = 0 ∧ State.reset.regs.ec = 0 ∧
  State.reset.regs.ph ≠ .hashw ∧ State.reset.regs.ph ≠ .rngw ∧ rspValid State.reset = false

/-- R210 and R212: from any state in which `rst` is asserted, in any phase, the step leads to the reset state, with no
response for the abandoned frame and nothing left on any port. That the other agents' coming moves and the history stay,
and the mark `rst` in the history, are the model's (log 2, log 5). -/
def Obligations.ResetFromAnyState : Prop :=
  ∀ s : State, s.rst = true →
    step s = .next { State.reset with env := s.env, log := s.log ++ [.rst] }

/-! Invariants -/

/-- The invariant holds at reset (R28). -/
def Obligations.InvAtReset : Prop :=
  BlockInv State.reset ∧ TraceInv platformConfig State.reset ∧ ResponsesLegal State.reset

/-- Every step keeps the invariant, from every state that has it: idle registers are zero (R26), a frame being received is
described by its beats (R29, R30), the two waits hold a legal request (R43, R44), and a response being sent is one of
R76 with exactly its first beats sent (R35). -/
def Obligations.StepKeepsInv : Prop :=
  ∀ s t : State, BlockInv s → step s = .next t → BlockInv t

/-- R34: every step keeps the history a sequence of the four traces, each entropy answer of the requested length, each
digest request for the drawn bytes after a draw, each digest answer `cfg.sha256` of the request, traces of successive
frames never interleaved. -/
def Obligations.StepKeepsTrace : Prop :=
  ∀ s t : State, BlockInv s → TraceInv platformConfig s → step s = .next t → TraceInv platformConfig t

/-- R76: every step keeps every response in the history one of the responses that can occur. -/
def Obligations.StepKeepsResponsesLegal : Prop :=
  ∀ s t : State, BlockInv s → ResponsesLegal s → step s = .next t → ResponsesLegal t

/-! Isolation -/

/-- R26: the events of a frame are a function of the frame, the configuration and the agents' answers during it: two
idle blocks that differ in anything else (their histories, their other offered beats) produce the same events and end with
every register zero. R26 says that an idle block's registers are zero; that stale register contents would not matter
either is the model's choice (log 7: a meaning loads the registers afresh). -/
def Obligations.FramesLeaveNothingBehind : Prop :=
  ∀ (cfg : Config) (i : Instr) (s s' : State),
    s.regs.ph = .idle → s'.regs.ph = .idle → 33 ≤ s.rspReady → 33 ≤ s'.rspReady →
    s.digQ ≠ [] → s.entQ ≠ [] → s'.digQ = s.digQ → s'.entQ = s.entQ →
      ∃ (t t' : State) (evs : List Event),
        execUnder cfg i s = .next t ∧ execUnder cfg i s' = .next t' ∧
        t.log = s.log ++ evs ∧ t'.log = s'.log ++ evs ∧ t.regs = Regs.zero ∧ t'.regs = Regs.zero

/-- R33 and R152: only the leading `L/4` bits of digest byte 0 influence the block. Two digest functions that agree on
them for every message the block can send lead every operation to the same state, but for the digests themselves in
the history. -/
def Obligations.OnlyLeadingDigestBitsMatter : Prop :=
  ∀ (cfg cfg' : Config) (i : Instr) (s t t' : State),
    (∀ m : List Byte, legalEntropyBytes m.length = true →
      (cfg.sha256 m)[0].toNat / 2 ^ (8 - m.length / 4) = (cfg'.sha256 m)[0].toNat / 2 ^ (8 - m.length / 4)) →
    s.regs.ph = .idle → 33 ≤ s.rspReady →
    execUnder cfg i s = .next t → execUnder cfg' i s = .next t' →
      { t with log := t.log.drop s.log.length |>.filter fun ev => match ev with | .drsp _ => false | _ => true } =
        { t' with log := t'.log.drop s.log.length |>.filter fun ev => match ev with | .drsp _ => false | _ => true }

/-- R56, R155 and R204: under any configuration, the same for every lane, a lane's step changes no other lane and depends
on no other lane. Which lane moves is the step's argument (log 10). -/
def Obligations.LanesShareNothing : Prop :=
  ∀ (cfg : Config) (k : Nat) (p p' : Platform), laneStep cfg k p = .next p' →
    (∀ j, j ≠ k → p'.lanes[j]? = p.lanes[j]?) ∧
    (∀ s : State, p.lanes[k]? = some s → ∃ t : State, stepUnder cfg s = .next t ∧ p'.lanes[k]? = some t)

/-! The external units and the host -/

/-- R154: the sixteen reference digests. The digest function is the model's instantiation (log 1). -/
def Obligations.ReferenceDigests : Prop :=
  digestNumber (sha256 (List.replicate 16 0x00)) = 0x374708fff7719dd5979ec875d56cd2286f6d3cf7ec317a3b25632aab28ec37bb ∧
  digestNumber (sha256 (List.replicate 20 0x00)) = 0xde47c9b27eb8d300dbb5f2c353e632c393262cf06340c4fa7f1b40c4cbd36f90 ∧
  digestNumber (sha256 (List.replicate 24 0x00)) = 0x9d908ecfb6b256def8b49a7c504e6c889c4b0e41fe6ce3e01863dd7b61a20aa0 ∧
  digestNumber (sha256 (List.replicate 28 0x00)) = 0x3addfb141cd7c9c4c6543a82191a3707ac29c7a041217782e61d4d91c691aee8 ∧
  digestNumber (sha256 (List.replicate 32 0x00)) = 0x66687aadf862bd776c8fc18b8e9f8e20089714856ee233b3902a591d0d5f2925 ∧
  digestNumber (sha256 (List.replicate 16 0x7f)) = 0x87dcde7fa6df23e15fa7ba9b2a1f31408eac832f4e615ea815ae92024e3d818b ∧
  digestNumber (sha256 (List.replicate 16 0x80)) = 0x4e972baaee2ad54f78153134ef6484cd1a8e383d21582a21a481d4d214161916 ∧
  digestNumber (sha256 (List.replicate 16 0xff)) = 0x5ac6a5945f16500911219129984ba8b387a06f24fe383ce4e81a73294065461b ∧
  digestNumber (sha256 (List.replicate 32 0xff)) = 0xaf9613760f72635fbdb44a5a0a63c39f12af30f950a6ee5c971be188e89c4051 ∧
  digestNumber (sha256 (countingBytes 16)) = 0xbe45cb2605bf36bebde684841a28f0fd43c69850a3dce5fedba69928ee3a8991 ∧
  digestNumber (sha256 (countingBytes 20)) = 0xe7aebf577f60412f0312d442c70a1fa6148c090bf5bab404caec29482ae779e8 ∧
  digestNumber (sha256 (countingBytes 24)) = 0x1d64add2a6388367c9bc2d1f1b384b069a6ef382cdaaa89771dd103e28613a25 ∧
  digestNumber (sha256 (countingBytes 28)) = 0xdc27f8e8ee2d08a2bccbb2dbd6c8e07ffba194101fc3458c34ded55f72c0971a ∧
  digestNumber (sha256 (countingBytes 32)) = 0x630dcd2966c4336691125448bbb25b4ff412a49c732db2c8abc1b8581bd710dd ∧
  digestNumber (sha256 (List.replicate 15 0x00 ++ [0x01])) =
    0x7c3ccd10bb7ec37b46d37926ae6274267f007a34aeaf15c882a715a7f3300529 ∧
  digestNumber (sha256 (0x80 :: List.replicate 15 0x00)) =
    0x3c79f1b5ca0a59275ca1b3236f81b5547ddc9dfca6a21236d85ef63060aaccaf

/-- The source's known vector at the block's ports (R100, R134, R147), under the reference digest: sixteen zero bytes
encode to eleven times 0 and then 3, these indices decode to the bytes and validate, and with the checksum 2 they do
not. -/
def Obligations.KnownVector : Prop :=
  let s : State := { State.reset with rspReady := 33, digQ := [.ok] }
  let known : List Index := [0, 0, 0, 0, 0, 0, 0, 0, 0, 0, 0, 3]
  let flipped : List Index := [0, 0, 0, 0, 0, 0, 0, 0, 0, 0, 0, 2]
  (∃ t : State, execUnder referenceConfig (.enc 0 (byteBeats (List.replicate 16 0))) s = .next t ∧
    t.log.getLast? = some (.rsp (markLast (0x100C :: known.map (BitVec.setWidth 16))))) ∧
  (∃ t : State, execUnder referenceConfig (.dec 0 (foundTokens known)) s = .next t ∧
    t.log.getLast? = some (.rsp (markLast (0x2010 :: List.replicate 16 0)))) ∧
  (∃ t : State, execUnder referenceConfig (.val 0 (foundTokens known)) s = .next t ∧
    t.log.getLast? = some (.rsp (oneBeat 0x3000))) ∧
  (∃ t : State, execUnder referenceConfig (.val 0 (foundTokens flipped)) s = .next t ∧
    t.log.getLast? = some (.rsp (oneBeat 0x3100)))

/-- R166 and R171: in every wordlist index-to-word then word-to-index is the identity, word-to-index then index-to-word
is the word, and a word has the token of its index exactly when it is listed, else `MISS = 1`. That the token of an unlisted word has
`IDX = 0` is the model's choice (log 8): R171 allows any `IDX`. -/
def Obligations.WordlistLookups : Prop :=
  ∀ wl : Wordlist,
    (∀ i : Index, wl.indexOf (wl.wordAt i) = some i) ∧
    (∀ (w : String) (i : Index), wl.indexOf w = some i → wl.wordAt i = w) ∧
    (∀ w : String, (w ∈ wl.words → ∃ i : Index, wl.token w = ⟨0, false, i⟩ ∧ wl.wordAt i = w) ∧
      (w ∉ wl.words → wl.token w = ⟨0, true, 0⟩))

/-- The string-level round trip (R130, R166, R171, R172): the words of the indices `ENC` answers, looked up again by the host
and sent to `DEC`, give the entropy back, for every wordlist and every digest function. -/
def Obligations.PhraseRoundTrip : Prop :=
  ∀ (wl : Wordlist) (cfg : Config) (e : List Byte) (s s' : State) (q q' : List DigestChoice),
    legalEntropyBytes e.length = true →
    s.regs.ph = .idle → 33 ≤ s.rspReady → s.digQ = .ok :: q →
    s'.regs.ph = .idle → 33 ≤ s'.rspReady → s'.digQ = .ok :: q' →
      ∃ (ws : List Index) (t t' : State),
        execUnder cfg (.enc 0 (byteBeats e)) s = .next t ∧
        t.log.getLast? = some (.rsp (okResponse 1 (ws.map (BitVec.setWidth 16)))) ∧
        execUnder cfg (wl.decFrame (wl.wordsAt ws)) s' = .next t' ∧
        t'.log.getLast? = some (.rsp (okResponse 2 (e.map (BitVec.setWidth 16))))

/-! The parameters of the step relation (R7, R11) -/

/-- R7 and R152: the step of the machine is the step under any configuration, taken at the platform's. -/
def Obligations.StepIsThePlatforms : Prop := ∀ s : State, step s = stepUnder platformConfig s

/-- The three invariants under every configuration (R26 to R35, R76): whatever the digest function, a step keeps the block
consistent, the history a sequence of the traces of R34 with its digests those of `cfg.sha256`, and every response one
that can occur. The history is the model's observation (log 5). -/
def Obligations.EveryConfigurationKeepsInvariants : Prop :=
  ∀ (cfg : Config) (s t : State),
    BlockInv s → TraceInv cfg s → ResponsesLegal s → stepUnder cfg s = .next t →
      BlockInv t ∧ TraceInv cfg t ∧ ResponsesLegal t

/-- R11: of the agents, a sequencer step uses exactly the one choice that the phase asks for, and no other field: the block
after it is what `portStep` gives for that choice as its parameter. Reset likewise, in every phase; and where no step is
enabled there is no such choice. That State holds the coming choices is the model's (log 2). -/
def Obligations.AgentsSupplyTheParameters : Prop :=
  ∀ (cfg : Config) (s : State),
    (s.rst = true →
      suppliedMove s = some .reset ∧ portStep cfg .reset s.toBlock = some (resetStep s).toBlock) ∧
    (s.rst = false → coreEnabled s = true →
      ∃ m : PortMove, suppliedMove s = some m ∧ portStep cfg m s.toBlock = some (seqStep cfg s).toBlock) ∧
    (s.rst = false → coreEnabled s = false → suppliedMove s = none)

/-- R222 with R157 and R163: in a run without reset in which the other agents eventually move and the host ends its frames,
every frame begun is answered: from any block that is not idle the run comes to one with every register zero whose
history ends in a response. The runs, and resting between moves, are the model's form (log 13). -/
def Obligations.FairRunsAnswer : Prop :=
  ∀ (cfg : Config) (blocks : Nat → Block) (moves : Nat → Option PortMove) (n : Nat),
    IsPortRun cfg blocks moves → FairRun blocks moves → HostEndsFrames blocks moves →
    (∀ m, moves m ≠ some .reset) → (blocks n).regs.ph ≠ .idle →
      ∃ (k : Nat) (evs : List Event) (g : List Beat),
        (blocks (n + k)).regs = Regs.zero ∧ (blocks (n + k)).log = (blocks n).log ++ evs ++ [.rsp g]
end

