-- ==== Sys2Proof/Laws/State.lean ====
section
/-! SUPPORT. What each shared operation does to each field of State: one lemma per field per operation, so that no proof
unfolds a record update. -/

namespace Sys2Proof.Machine

variable (s : State)

/-! `finish` -/

@[simp] theorem finish_regs (status : BitVec 4) (info : BitVec 8) : (finish s status info).regs = { s.regs with ph := .emit, rst := status, rin := info, ec := 0, hs := false } := rfl
@[simp] theorem finish_reqQ (status : BitVec 4) (info : BitVec 8) : (finish s status info).reqQ = s.reqQ := rfl
@[simp] theorem finish_rspReady (status : BitVec 4) (info : BitVec 8) : (finish s status info).rspReady = s.rspReady := rfl
@[simp] theorem finish_digQ (status : BitVec 4) (info : BitVec 8) : (finish s status info).digQ = s.digQ := rfl
@[simp] theorem finish_entQ (status : BitVec 4) (info : BitVec 8) : (finish s status info).entQ = s.entQ := rfl
@[simp] theorem finish_rst (status : BitVec 4) (info : BitVec 8) : (finish s status info).rst = s.rst := rfl
@[simp] theorem finish_env (status : BitVec 4) (info : BitVec 8) : (finish s status info).env = s.env := rfl
@[simp] theorem finish_reqSeen (status : BitVec 4) (info : BitVec 8) : (finish s status info).reqSeen = s.reqSeen := rfl
@[simp] theorem finish_rspSent (status : BitVec 4) (info : BitVec 8) : (finish s status info).rspSent = [] := rfl
@[simp] theorem finish_log (status : BitVec 4) (info : BitVec 8) : (finish s status info).log = s.log := rfl

/-! `raise` -/

@[simp] theorem raise_regs (c : Cause) : (raise s c).regs = { s.regs with ph := .emit, rst := statusFault, rin := c.code, ec := 0, hs := false } := rfl
@[simp] theorem raise_reqQ (c : Cause) : (raise s c).reqQ = s.reqQ := rfl
@[simp] theorem raise_rspReady (c : Cause) : (raise s c).rspReady = s.rspReady := rfl
@[simp] theorem raise_digQ (c : Cause) : (raise s c).digQ = s.digQ := rfl
@[simp] theorem raise_entQ (c : Cause) : (raise s c).entQ = s.entQ := rfl
@[simp] theorem raise_rst (c : Cause) : (raise s c).rst = s.rst := rfl
@[simp] theorem raise_env (c : Cause) : (raise s c).env = s.env := rfl
@[simp] theorem raise_reqSeen (c : Cause) : (raise s c).reqSeen = s.reqSeen := rfl
@[simp] theorem raise_rspSent (c : Cause) : (raise s c).rspSent = [] := rfl
@[simp] theorem raise_log (c : Cause) : (raise s c).log = s.log := rfl

/-! `noValue` -/

@[simp] theorem noValue_regs : (noValue s).regs = { s.regs with ph := .emit, rst := statusNoValue, rin := 0, ec := 0, hs := false } := rfl
@[simp] theorem noValue_reqQ : (noValue s).reqQ = s.reqQ := rfl
@[simp] theorem noValue_rspReady : (noValue s).rspReady = s.rspReady := rfl
@[simp] theorem noValue_digQ : (noValue s).digQ = s.digQ := rfl
@[simp] theorem noValue_entQ : (noValue s).entQ = s.entQ := rfl
@[simp] theorem noValue_rst : (noValue s).rst = s.rst := rfl
@[simp] theorem noValue_env : (noValue s).env = s.env := rfl
@[simp] theorem noValue_reqSeen : (noValue s).reqSeen = s.reqSeen := rfl
@[simp] theorem noValue_rspSent : (noValue s).rspSent = [] := rfl
@[simp] theorem noValue_log : (noValue s).log = s.log := rfl

/-! `endFrame` -/

@[simp] theorem endFrame_regs : (endFrame s).regs = Regs.zero := rfl
@[simp] theorem endFrame_reqQ : (endFrame s).reqQ = s.reqQ := rfl
@[simp] theorem endFrame_rspReady : (endFrame s).rspReady = s.rspReady := rfl
@[simp] theorem endFrame_digQ : (endFrame s).digQ = s.digQ := rfl
@[simp] theorem endFrame_entQ : (endFrame s).entQ = s.entQ := rfl
@[simp] theorem endFrame_rst : (endFrame s).rst = s.rst := rfl
@[simp] theorem endFrame_env : (endFrame s).env = s.env := rfl
@[simp] theorem endFrame_reqSeen : (endFrame s).reqSeen = s.reqSeen := rfl
@[simp] theorem endFrame_rspSent : (endFrame s).rspSent = [] := rfl
@[simp] theorem endFrame_log : (endFrame s).log = s.log ++ [.rsp s.rspSent] := rfl

/-! `askDigest` -/

@[simp] theorem askDigest_regs : (askDigest s).regs = { s.regs with ph := .hashw } := rfl
@[simp] theorem askDigest_reqQ : (askDigest s).reqQ = s.reqQ := rfl
@[simp] theorem askDigest_rspReady : (askDigest s).rspReady = s.rspReady := rfl
@[simp] theorem askDigest_digQ : (askDigest s).digQ = s.digQ := rfl
@[simp] theorem askDigest_entQ : (askDigest s).entQ = s.entQ := rfl
@[simp] theorem askDigest_rst : (askDigest s).rst = s.rst := rfl
@[simp] theorem askDigest_env : (askDigest s).env = s.env := rfl
@[simp] theorem askDigest_reqSeen : (askDigest s).reqSeen = s.reqSeen := rfl
@[simp] theorem askDigest_rspSent : (askDigest s).rspSent = s.rspSent := rfl
@[simp] theorem askDigest_log : (askDigest s).log = s.log ++ [.dreq (entropyHeld s.regs)] := rfl

/-! `askEntropy` -/

@[simp] theorem askEntropy_regs : (askEntropy s).regs = { s.regs with ph := .rngw } := rfl
@[simp] theorem askEntropy_reqQ : (askEntropy s).reqQ = s.reqQ := rfl
@[simp] theorem askEntropy_rspReady : (askEntropy s).rspReady = s.rspReady := rfl
@[simp] theorem askEntropy_digQ : (askEntropy s).digQ = s.digQ := rfl
@[simp] theorem askEntropy_entQ : (askEntropy s).entQ = s.entQ := rfl
@[simp] theorem askEntropy_rst : (askEntropy s).rst = s.rst := rfl
@[simp] theorem askEntropy_env : (askEntropy s).env = s.env := rfl
@[simp] theorem askEntropy_reqSeen : (askEntropy s).reqSeen = s.reqSeen := rfl
@[simp] theorem askEntropy_rspSent : (askEntropy s).rspSent = s.rspSent := rfl
@[simp] theorem askEntropy_log : (askEntropy s).log = s.log ++ [.ereq s.regs.el.toNat] := rfl

/-! `received` -/

@[simp] theorem received_regs (f : List Beat) (r : Regs) : (received f r s).regs = r := rfl
@[simp] theorem received_reqQ (f : List Beat) (r : Regs) : (received f r s).reqQ = s.reqQ := rfl
@[simp] theorem received_rspReady (f : List Beat) (r : Regs) : (received f r s).rspReady = s.rspReady := rfl
@[simp] theorem received_digQ (f : List Beat) (r : Regs) : (received f r s).digQ = s.digQ := rfl
@[simp] theorem received_entQ (f : List Beat) (r : Regs) : (received f r s).entQ = s.entQ := rfl
@[simp] theorem received_rst (f : List Beat) (r : Regs) : (received f r s).rst = s.rst := rfl
@[simp] theorem received_env (f : List Beat) (r : Regs) : (received f r s).env = s.env := rfl
@[simp] theorem received_reqSeen (f : List Beat) (r : Regs) : (received f r s).reqSeen = s.reqSeen := rfl
@[simp] theorem received_rspSent (f : List Beat) (r : Regs) : (received f r s).rspSent = s.rspSent := rfl
@[simp] theorem received_log (f : List Beat) (r : Regs) : (received f r s).log = s.log ++ [.req f] := rfl

/-! `resetStep` -/

@[simp] theorem resetStep_regs : (resetStep s).regs = Regs.zero := rfl
@[simp] theorem resetStep_reqQ : (resetStep s).reqQ = [] := rfl
@[simp] theorem resetStep_rspReady : (resetStep s).rspReady = 0 := rfl
@[simp] theorem resetStep_digQ : (resetStep s).digQ = [] := rfl
@[simp] theorem resetStep_entQ : (resetStep s).entQ = [] := rfl
@[simp] theorem resetStep_rst : (resetStep s).rst = false := rfl
@[simp] theorem resetStep_env : (resetStep s).env = s.env := rfl
@[simp] theorem resetStep_reqSeen : (resetStep s).reqSeen = [] := rfl
@[simp] theorem resetStep_rspSent : (resetStep s).rspSent = [] := rfl
@[simp] theorem resetStep_log : (resetStep s).log = s.log ++ [.rst] := rfl

/-! `afterFrame` -/

@[simp] theorem afterFrame_regs (n : Nat) (evs : List Event) : (afterFrame s n evs).regs = Regs.zero := rfl
@[simp] theorem afterFrame_reqQ (n : Nat) (evs : List Event) : (afterFrame s n evs).reqQ = s.reqQ := rfl
@[simp] theorem afterFrame_rspReady (n : Nat) (evs : List Event) : (afterFrame s n evs).rspReady = s.rspReady - n := rfl
@[simp] theorem afterFrame_digQ (n : Nat) (evs : List Event) : (afterFrame s n evs).digQ = s.digQ := rfl
@[simp] theorem afterFrame_entQ (n : Nat) (evs : List Event) : (afterFrame s n evs).entQ = s.entQ := rfl
@[simp] theorem afterFrame_rst (n : Nat) (evs : List Event) : (afterFrame s n evs).rst = s.rst := rfl
@[simp] theorem afterFrame_env (n : Nat) (evs : List Event) : (afterFrame s n evs).env = s.env := rfl
@[simp] theorem afterFrame_reqSeen (n : Nat) (evs : List Event) : (afterFrame s n evs).reqSeen = s.reqSeen := rfl
@[simp] theorem afterFrame_rspSent (n : Nat) (evs : List Event) : (afterFrame s n evs).rspSent = [] := rfl
@[simp] theorem afterFrame_log (n : Nat) (evs : List Event) : (afterFrame s n evs).log = s.log ++ evs := rfl

/-! The registers at zero -/

@[simp] theorem zero_ph : Regs.zero.ph = .idle := rfl
@[simp] theorem zero_opr : Regs.zero.opr = 0 := rfl
@[simp] theorem zero_str : Regs.zero.str = 0 := rfl
@[simp] theorem zero_el : Regs.zero.el = 0 := rfl
@[simp] theorem zero_ea : Regs.zero.ea = 0 := rfl
@[simp] theorem zero_wc : Regs.zero.wc = 0 := rfl
@[simp] theorem zero_ck : Regs.zero.ck = 0 := rfl
@[simp] theorem zero_ill : Regs.zero.ill = false := rfl
@[simp] theorem zero_bad : Regs.zero.bad = false := rfl
@[simp] theorem zero_ms : Regs.zero.ms = false := rfl
@[simp] theorem zero_rst : Regs.zero.rst = 0 := rfl
@[simp] theorem zero_rin : Regs.zero.rin = 0 := rfl
@[simp] theorem zero_ec : Regs.zero.ec = 0 := rfl
@[simp] theorem zero_hs : Regs.zero.hs = false := rfl

end Sys2Proof.Machine
end

