-- ==== Sys2Proof/Laws/Buffers.lean ====
section
/-! SUPPORT. Buffers, the lengths of the bit strings, and the registers a whole frame loads. -/

namespace Sys2Proof.Machine

/-! Buffers. -/

@[simp] theorem fill_toList {α : Type} {n : Nat} (v : Vector α n) (xs : List α) :
    (fill v xs).toList = xs.take n ++ v.toList.drop xs.length := by
  simp [fill]

/-- The first places of a filled buffer are what was written. -/
theorem fill_take {α : Type} {n : Nat} (v : Vector α n) (xs : List α) (h : xs.length ≤ n) :
    (fill v xs).toList.take xs.length = xs := by
  simp [List.take_of_length_le h]

/-- Filling is writing place by place: one more element goes to the next place, if there is one (R30). -/
theorem fill_snoc {α : Type} {n : Nat} (v : Vector α n) (xs : List α) (x : α) :
    fill v (xs ++ [x]) = if xs.length < n then setAt (fill v xs) xs.length x else fill v xs := by
  apply Vector.toList_inj.1
  split
  · rename_i h
    have hv : xs.length < v.toList.length := by simpa using h
    simp only [setAt, Vector.toList_setIfInBounds, fill_toList, List.take_of_length_le h.le]
    rw [List.set_append_right _ _ (Nat.le_refl _), Nat.sub_self, List.drop_eq_getElem_cons hv, List.set_cons_zero,
      List.take_of_length_le (by simp; omega)]
    simp
  · rename_i h
    rw [fill_toList, fill_toList, List.take_append_of_le_length (by omega), List.drop_of_length_le (by simp; omega),
      List.drop_of_length_le (by simp; omega)]

theorem entropyHeld_fill (r : Regs) (e : List Byte) (h : e.length ≤ 32) (hel : r.el.toNat = e.length) :
    entropyHeld { r with eb := fill r.eb e } = e := by
  simp only [entropyHeld, hel]; exact fill_take r.eb e h

theorem indicesHeld_fill (r : Regs) (ws : List Index) (h : ws.length ≤ 24) (hwc : r.wc.toNat = ws.length) :
    indicesHeld { r with wb := fill r.wb ws } = ws := by
  simp only [indicesHeld, hwc]; exact fill_take r.wb ws h

/-! Legal sizes (R6). -/

theorem legalEntropyBytes_cases {l : Nat} (h : legalEntropyBytes l = true) :
    l = 16 ∨ l = 20 ∨ l = 24 ∨ l = 28 ∨ l = 32 := by
  simpa [legalEntropyBytes] using h

theorem legalWordCount_cases {n : Nat} (h : legalWordCount n = true) :
    n = 12 ∨ n = 15 ∨ n = 18 ∨ n = 21 ∨ n = 24 := by
  simpa [legalWordCount] using h

theorem legalStrength_cases {n : Nat} (h : legalStrength n = true) :
    n = 128 ∨ n = 160 ∨ n = 192 ∨ n = 224 ∨ n = 256 := by
  simpa [legalStrength] using h

/-! Lengths of bit strings (R231). -/

@[simp] theorem bin_length {n : Nat} (v : BitVec n) : (bin v).length = n := by simp [bin]

@[simp] theorem bitsOf_length (b : List Byte) : (bitsOf b).length = 8 * b.length := by
  induction b with
  | nil => rfl
  | cons x xs ih => simp_all [bitsOf]; omega

@[simp] theorem indexBits_length (ws : List Index) : (indexBits ws).length = 11 * ws.length := by
  induction ws with
  | nil => rfl
  | cons x xs ih => simp_all [indexBits]; omega

@[simp] theorem groups_length (k n : Nat) (s : List Bool) : (groups k n s).length = n := by simp [groups]

@[simp] theorem bytesOf_length (s : List Bool) : (bytesOf s).length = s.length / 8 := by simp [bytesOf]

theorem checksumBits_length (c : Nat) (d : Digest) (h : c ≤ 8) : (checksumBits c d).length = c := by
  simp [checksumBits]; omega

@[simp] theorem wordsOf_length (e : List Byte) (d : Digest) : (wordsOf e d).length = 3 * e.length / 4 := by
  simp [wordsOf]

theorem entropyOf_length (ws : List Index) (h : legalWordCount ws.length = true) :
    (entropyOf ws).length = 4 * ws.length / 3 := by
  rcases legalWordCount_cases h with h | h | h | h | h <;> simp [entropyOf, splitPoint, h]

/-! The registers a whole frame loads. -/

theorem byteBeats_map (e : List Byte) : (byteBeats e).map ByteBeat.byte = e := by
  simp [byteBeats, Function.comp_def]

@[simp] theorem byteBeats_length (e : List Byte) : (byteBeats e).length = e.length := by simp [byteBeats]

theorem foundTokens_map (ws : List Index) : (foundTokens ws).map TokenBeat.idx = ws := by
  simp [foundTokens, Function.comp_def]

@[simp] theorem foundTokens_length (ws : List Index) : (foundTokens ws).length = ws.length := by
  simp [foundTokens]

@[simp] theorem encBad_byteBeats (e : List Byte) : encBad 0 (byteBeats e) = false := by
  simp [encBad, byteBeats]

@[simp] theorem tokensBad_foundTokens (ws : List Index) : tokensBad 0 (foundTokens ws) = false := by
  simp [tokensBad, foundTokens]

@[simp] theorem tokensMiss_foundTokens (ws : List Index) : tokensMiss (foundTokens ws) = false := by
  simp [tokensMiss, foundTokens]

theorem entropyHeld_encRegs (mbz : BitVec 12) (bytes : List ByteBeat) (h : bytes.length ≤ 32) :
    entropyHeld (encRegs mbz bytes) = bytes.map ByteBeat.byte := by
  have hel : (encRegs mbz bytes).el.toNat = (bytes.map ByteBeat.byte).length := by
    simp [encRegs]; omega
  unfold entropyHeld
  rw [hel]
  exact fill_take Regs.zero.eb (bytes.map ByteBeat.byte) (by simpa using h)

theorem indicesHeld_tokenRegs (op : BitVec 4) (mbz : BitVec 12) (tokens : List TokenBeat) (h : tokens.length ≤ 24) :
    indicesHeld (tokenRegs op mbz tokens) = tokens.map TokenBeat.idx := by
  have hwc : (tokenRegs op mbz tokens).wc.toNat = (tokens.map TokenBeat.idx).length := by
    simp [tokenRegs]; omega
  unfold indicesHeld
  rw [hwc]
  exact fill_take Regs.zero.wb (tokens.map TokenBeat.idx) (by simpa using h)

end Sys2Proof.Machine
end

