-- ==== Sys2Proof/Laws/Emit.lean ====
section
/-! SUPPORT. The response: what one beat does, and what the emit steps of a whole response come to (spec/10_state.md R35). -/

namespace Sys2Proof.Machine

/-! Frames marked at their last beat. -/

@[simp] theorem markLast_length (ds : List Half) : (markLast ds).length = ds.length := by
  induction ds with
  | nil => rfl
  | cons d ds ih => cases ds <;> simp_all [markLast]

theorem markLast_getElem? (ds : List Half) (k : Nat) :
    (markLast ds)[k]? = ds[k]?.map fun d => ⟨d, decide (k + 1 = ds.length)⟩ := by
  induction ds generalizing k with
  | nil => simp [markLast]
  | cons d ds ih =>
    cases ds with
    | nil => cases k <;> simp [markLast]
    | cons d' ds =>
      cases k with
      | zero => simp [markLast]
      | succ k => simpa [markLast] using ih k

@[simp] theorem markLast_map_data (ds : List Half) : (markLast ds).map Beat.data = ds := by
  induction ds with
  | nil => rfl
  | cons d ds ih => cases ds <;> simp_all [markLast]

theorem markLast_snoc (ds : List Half) (d : Half) :
    markLast (ds ++ [d]) = ds.map (fun x => ⟨x, false⟩) ++ [⟨d, true⟩] := by
  induction ds with
  | nil => rfl
  | cons x ds ih => cases ds <;> simp_all [markLast]

/-! Where the response stands. -/

/-- The number of response beats already sent. -/
def sentCount (r : Regs) : Nat := if r.hs then r.ec.toNat + 1 else 0

/-- The registers after `k` beats of the response, the last of them not sent. -/
def regsAt (r : Regs) (k : Nat) : Regs :=
  if k = 0 then r else { r with hs := true, ec := BitVec.ofNat 6 (k - 1) }

@[simp] theorem responsePayload_regsAt (r : Regs) (k : Nat) : responsePayload (regsAt r k) = responsePayload r := by
  unfold regsAt; split <;> rfl

@[simp] theorem responseFrame_regsAt (r : Regs) (k : Nat) : responseFrame (regsAt r k) = responseFrame r := by
  unfold regsAt; split <;> rfl

@[simp] theorem regsAt_ph (r : Regs) (k : Nat) : (regsAt r k).ph = r.ph := by
  unfold regsAt; split <;> rfl

theorem responsePayload_length_le (r : Regs) : (responsePayload r).length ≤ 32 := by
  unfold responsePayload indicesHeld entropyHeld
  split
  · simp
  · split <;> simp

@[simp] theorem responseFrame_length (r : Regs) : (responseFrame r).length = (responsePayload r).length + 1 := by
  simp [responseFrame]

/-- The beat offered after `k` beats are sent is beat `k` of the response frame. -/
theorem responseBeat_regsAt (r : Regs) (k : Nat) (h0 : r.hs = false) (hk : k ≤ (responsePayload r).length) :
    (responseFrame r)[k]? = some (responseBeat (regsAt r k)) := by
  have hle := responsePayload_length_le r
  unfold responseFrame
  rw [markLast_getElem?]
  cases k with
  | zero =>
    cases hp : responsePayload r <;> simp [regsAt, responseBeat, h0, hp]
  | succ k =>
    have hmod : k % 64 = k := Nat.mod_eq_of_lt (by omega)
    have hp : responsePayload { r with hs := true, ec := BitVec.ofNat 6 k } = responsePayload r := rfl
    have hk' : k < (responsePayload r).length := by omega
    simp [regsAt, responseBeat, hp, hmod, List.getElem?_eq_getElem hk']
    omega

theorem responseBeat_last (r : Regs) (k : Nat) (h0 : r.hs = false) (hk : k ≤ (responsePayload r).length) :
    (responseBeat (regsAt r k)).last = decide (k = (responsePayload r).length) := by
  have h := responseBeat_regsAt r k h0 hk
  unfold responseFrame at h
  rw [markLast_getElem?] at h
  cases hx : (responseHeader r :: responsePayload r)[k]? with
  | none => simp [hx] at h
  | some d => simp [hx] at h; rw [← h]

/-! One beat. -/

/-- What the host's acceptance of a beat does: the frame ends with its last beat, else the count goes on. -/
theorem sendBeat_regsAt (s : State) (r : Regs) (k : Nat) (h0 : r.hs = false) (hr : s.regs = regsAt r k)
    (hk : k ≤ (responsePayload r).length) (hs : s.rspSent = (responseFrame r).take k) :
    sendBeat s =
      if k = (responsePayload r).length then
        { s with regs := Regs.zero, rspReady := s.rspReady - 1, rspSent := [],
                 log := s.log ++ [.rsp (responseFrame r)] }
      else
        { s with regs := regsAt r (k + 1), rspReady := s.rspReady - 1,
                 rspSent := (responseFrame r).take (k + 1) } := by
  have hle := responsePayload_length_le r
  have hb := responseBeat_regsAt r k h0 hk
  have htake : (responseFrame r).take k ++ [responseBeat (regsAt r k)] = (responseFrame r).take (k + 1) := by
    rw [List.take_add_one, hb]; rfl
  unfold sendBeat
  simp only [hr, responseBeat_last r k h0 hk, hs, htake]
  by_cases hlast : k = (responsePayload r).length
  · have hfull : (responseFrame r).take (k + 1) = responseFrame r := by
      apply List.take_of_length_le; simp [hlast]
    simp [hlast, endFrame]
  · simp only [hlast, decide_false, Bool.false_eq_true, if_false]
    cases k with
    | zero => simp [regsAt, h0]
    | succ k =>
      have : (BitVec.ofNat 6 k + 1#6 : BitVec 6) = BitVec.ofNat 6 (k + 1) := by
        apply BitVec.eq_of_toNat_eq; simp
      simpa [regsAt] using this

/-! The whole response. -/

theorem emitSteps_of_not_emit (n : Nat) (s : State) (h : s.regs.ph ≠ .emit) : emitSteps n s = s := by
  cases n <;> simp [emitSteps, h]

theorem emitSteps_of_not_ready (n : Nat) (s : State) (h : s.rspReady = 0) : emitSteps n s = s := by
  induction n generalizing s with
  | zero => rfl
  | succ n ih => simp only [emitSteps, emitStep, h, if_true]; split <;> [exact ih s h; rfl]

/-- A response the host takes whole: every register is zero afterwards and the frame is in the history. -/
theorem emitSteps_whole (n : Nat) (s : State) (r : Regs) (k : Nat) (h0 : r.hs = false) (he : r.ph = .emit)
    (hr : s.regs = regsAt r k) (hk : k ≤ (responsePayload r).length) (hs : s.rspSent = (responseFrame r).take k)
    (hready : (responsePayload r).length + 1 ≤ s.rspReady + k) (hn : (responsePayload r).length + 1 ≤ n + k) :
    emitSteps n s =
      { s with regs := Regs.zero, rspReady := s.rspReady - ((responsePayload r).length + 1 - k), rspSent := [],
               log := s.log ++ [.rsp (responseFrame r)] } := by
  induction n generalizing s k with
  | zero => omega
  | succ n ih =>
    have hph : s.regs.ph = .emit := by simp [hr, he]
    have hrdy : s.rspReady ≠ 0 := by omega
    simp only [emitSteps, hph, if_true, emitStep, hrdy, if_false]
    rw [sendBeat_regsAt s r k h0 hr hk hs]
    by_cases hlast : k = (responsePayload r).length
    · rw [if_pos hlast, emitSteps_of_not_emit _ _ (by simp)]
      simp [hlast]
    · rw [if_neg hlast, ih _ (k + 1) rfl (by omega) rfl (by simp; omega) (by omega)]
      simp; omega

/-- A response the host takes only in part: the core stays in `EMIT`, the beats taken are a prefix of the frame (R222). -/
theorem emitSteps_part (n : Nat) (s : State) (r : Regs) (k : Nat) (h0 : r.hs = false) (he : r.ph = .emit)
    (hr : s.regs = regsAt r k) (hk : k + s.rspReady ≤ (responsePayload r).length)
    (hs : s.rspSent = (responseFrame r).take k) (hn : s.rspReady ≤ n) :
    emitSteps n s =
      { s with regs := regsAt r (k + s.rspReady), rspReady := 0,
               rspSent := (responseFrame r).take (k + s.rspReady) } := by
  induction n generalizing s k with
  | zero =>
    have hz : s.rspReady = 0 := by omega
    rcases s with ⟨⟨⟩, ⟨⟩⟩; simp_all [emitSteps]
  | succ n ih =>
    by_cases hz : s.rspReady = 0
    · rw [emitSteps_of_not_ready _ _ hz]; rcases s with ⟨⟨⟩, ⟨⟩⟩; simp_all
    · have hph : s.regs.ph = .emit := by simp [hr, he]
      simp only [emitSteps, hph, if_true, emitStep, hz, if_false]
      rw [sendBeat_regsAt s r k h0 hr (by omega) hs, if_neg (by omega), ih _ (k + 1) rfl (by simp; omega) rfl (by simp; omega)]
      have : k + 1 + (s.rspReady - 1) = k + s.rspReady := by omega
      simp [this]

/-- A finished operation whose response the host takes whole (R35, R188). -/
theorem emitSteps_finish (s : State) (status : BitVec 4) (info : BitVec 8)
    (hready : (responseFrame (finish s status info).regs).length ≤ s.rspReady) :
    emitSteps 33 (finish s status info) =
      afterFrame s (responseFrame (finish s status info).regs).length
        [.rsp (responseFrame (finish s status info).regs)] := by
  have hle := responsePayload_length_le (finish s status info).regs
  rw [responseFrame_length] at hready
  rw [emitSteps_whole 33 (finish s status info) (finish s status info).regs 0 rfl rfl rfl (by omega) rfl
    (by simpa using hready) (by omega)]
  simp [afterFrame, finish]

end Sys2Proof.Machine
end

