-- ==== Sys2Proof/Laws/Settle.lean ====
section
/-! SUPPORT. What `settle` comes to in each case: a fault, NOVALUE, a wait, a failing unit, an answering unit. -/

namespace Sys2Proof.Machine

/-! Responses without payload. -/

theorem responsePayload_of_status (r : Regs) (h : r.rst ≠ statusOk) : responsePayload r = [] := by
  simp [responsePayload, h]

theorem responseFrame_of_status (r : Regs) (h : r.rst ≠ statusOk) :
    responseFrame r = oneBeat (r.opr ++ (r.rst ++ r.rin)) := by
  simp [responseFrame, responsePayload_of_status r h, markLast, oneBeat, responseHeader]

theorem responseFrame_raise (s : State) (c : Cause) :
    responseFrame (raise s c).regs = oneBeat (s.regs.opr ++ (statusFault ++ c.code)) :=
  responseFrame_of_status _ (by simp [statusFault, statusOk])

theorem responseFrame_noValue (s : State) :
    responseFrame (noValue s).regs = oneBeat (s.regs.opr ++ (statusNoValue ++ 0#8)) :=
  responseFrame_of_status _ (by simp [statusNoValue, statusOk])

/-! A finished operation. -/

theorem settle_of_emit (cfg : Config) (s : State) (h : s.regs.ph = .emit) : settle cfg s = emitSteps 33 s := by
  simp [settle, h]

theorem settle_finish (cfg : Config) (s : State) (status : BitVec 4) (info : BitVec 8)
    (hready : (responseFrame (finish s status info).regs).length ≤ s.rspReady) :
    settle cfg (finish s status info) =
      afterFrame s (responseFrame (finish s status info).regs).length
        [.rsp (responseFrame (finish s status info).regs)] := by
  rw [settle_of_emit _ _ rfl, emitSteps_finish _ _ _ hready]

/-- A fault the host takes: its one beat is in the history and the block is idle again (R186, R188). -/
theorem settle_raise (cfg : Config) (s : State) (c : Cause) (hready : 1 ≤ s.rspReady) :
    settle cfg (raise s c) = afterFrame s 1 [.rsp (oneBeat (s.regs.opr ++ (statusFault ++ c.code)))] := by
  have h := responseFrame_raise s c
  have hl : (responseFrame (raise s c).regs).length = 1 := by rw [h]; rfl
  have := settle_finish cfg s statusFault c.code (by change (responseFrame (raise s c).regs).length ≤ _; omega)
  change settle cfg (raise s c) = afterFrame s (responseFrame (raise s c).regs).length
    [.rsp (responseFrame (raise s c).regs)] at this
  rw [this, hl, h]

/-- A NOVALUE the host takes (R183). -/
theorem settle_noValue (cfg : Config) (s : State) (hready : 1 ≤ s.rspReady) :
    settle cfg (noValue s) = afterFrame s 1 [.rsp (oneBeat (s.regs.opr ++ (statusNoValue ++ 0#8)))] := by
  have h := responseFrame_noValue s
  have hl : (responseFrame (noValue s).regs).length = 1 := by rw [h]; rfl
  have := settle_finish cfg s statusNoValue 0 (by change (responseFrame (noValue s).regs).length ≤ _; omega)
  change settle cfg (noValue s) = afterFrame s (responseFrame (noValue s).regs).length
    [.rsp (responseFrame (noValue s).regs)] at this
  rw [this, hl, h]

/-! A digest request. -/

/-- No answer: the core waits in `HASHW` (R33, R222). -/
theorem settle_askDigest_wait (cfg : Config) (s : State) (h : s.digQ = []) :
    settle cfg (askDigest s) = askDigest s := by
  have : digestStep cfg (askDigest s) = askDigest s := by simp [digestStep, h]
  simp only [settle, askDigest_regs, reduceCtorEq, if_false, if_true, this]
  exact emitSteps_of_not_emit _ _ (by simp)

/-- Answer `err`: `DIGEST_FAIL` (R198). -/
theorem settle_askDigest_err (cfg : Config) (s : State) (q : List DigestChoice) (h : s.digQ = .err :: q) :
    settle cfg (askDigest s) =
      settle cfg (raise { askDigest s with digQ := q, log := (askDigest s).log ++ [.drsp none] } .digestFail) := by
  rw [settle_of_emit _ (raise _ _) rfl]
  simp [settle, digestStep, h]

/-- Answer `ok`: the digest is latched and the operation concludes (R33). -/
theorem settle_askDigest_ok (cfg : Config) (s : State) (q : List DigestChoice) (h : s.digQ = .ok :: q) :
    settle cfg (askDigest s) =
      emitSteps 33 (concludeDigest { askDigest s with
        digQ := q
        log := (askDigest s).log ++ [.drsp (some (cfg.sha256 (entropyHeld s.regs)).toList)]
        regs := { (askDigest s).regs with dg := cfg.sha256 (entropyHeld s.regs) } }) := by
  simp [settle, digestStep, h, entropyHeld]

/-! An entropy request. -/

/-- No answer: the core waits in `RNGW` (R32, R222). -/
theorem settle_askEntropy_wait (cfg : Config) (s : State) (h : s.entQ = []) :
    settle cfg (askEntropy s) = askEntropy s := by
  have : entropyStep (askEntropy s) = askEntropy s := by simp [entropyStep, h]
  simp only [settle, askEntropy_regs, if_true, this, reduceCtorEq, if_false]
  exact emitSteps_of_not_emit _ _ (by simp)

/-- Answer `err`: `ENTROPY_SOURCE_FAIL` (R197). -/
theorem settle_askEntropy_err (cfg : Config) (s : State) (q : List EntropyAnswer) (h : s.entQ = .err :: q) :
    settle cfg (askEntropy s) =
      settle cfg (raise { askEntropy s with entQ := q, log := (askEntropy s).log ++ [.ersp none] }
        .entropySourceFail) := by
  rw [settle_of_emit _ (raise _ _) rfl]
  simp [settle, entropyStep, h]

/-- Answer `ok`: the drawn bytes stand in `EB` and their digest is asked for (R32). -/
theorem settle_askEntropy_ok (cfg : Config) (s : State) (draw : Vector Byte 32) (q : List EntropyAnswer)
    (h : s.entQ = .ok draw :: q) :
    settle cfg (askEntropy s) =
      settle cfg (askDigest { askEntropy s with
        entQ := q
        log := (askEntropy s).log ++ [.ersp (some (draw.toList.take s.regs.el.toNat))]
        regs := { (askEntropy s).regs with eb := fill s.regs.eb (draw.toList.take s.regs.el.toNat) } }) := by
  simp [settle, entropyStep, h]

end Sys2Proof.Machine
end

