-- ==== Sys2Proof/Laws/Conclude.lean ====
section
/-! SUPPORT. A digest request that is answered, in terms of what the registers hold when it is issued: the whole of what
the operation does from there (spec/10_state.md R33, R35). -/

namespace Sys2Proof.Machine

theorem entropyHeld_length (r : Regs) (h : r.el.toNat ≤ 32) : (entropyHeld r).length = r.el.toNat := by
  simp [entropyHeld]; omega

/-! How an answered request concludes (R33). -/

theorem concludeDigest_words (s : State) (hop : s.regs.opr = opEnc ∨ s.regs.opr = opGen) :
    concludeDigest s = finish
      { s with regs := { s.regs with
          wb := fill s.regs.wb (wordsOf (entropyHeld s.regs) s.regs.dg)
          wc := BitVec.ofNat 5 (3 * s.regs.el.toNat / 4) } }
      statusOk (BitVec.ofNat 8 (3 * s.regs.el.toNat / 4)) := by
  unfold concludeDigest; exact if_pos hop

theorem concludeDigest_mismatch (s : State) (hop : s.regs.opr = opDec ∨ s.regs.opr = opVal)
    (hne : uint (checksumBits (s.regs.el.toNat / 4) s.regs.dg) ≠ s.regs.ck.toNat) :
    concludeDigest s = noValue s := by
  have h1 : ¬ (s.regs.opr = opEnc ∨ s.regs.opr = opGen) := by rcases hop with h | h <;> rw [h] <;> decide
  unfold concludeDigest; exact (if_neg h1).trans (if_pos hne)

theorem concludeDigest_bytes (s : State) (hop : s.regs.opr = opDec)
    (heq : uint (checksumBits (s.regs.el.toNat / 4) s.regs.dg) = s.regs.ck.toNat) :
    concludeDigest s = finish s statusOk (s.regs.el.setWidth 8) := by
  have h1 : ¬ (s.regs.opr = opEnc ∨ s.regs.opr = opGen) := by rw [hop]; decide
  unfold concludeDigest; exact (if_neg h1).trans ((if_neg (not_not.mpr heq)).trans (if_pos hop))

theorem concludeDigest_valid (s : State) (hop : s.regs.opr = opVal)
    (heq : uint (checksumBits (s.regs.el.toNat / 4) s.regs.dg) = s.regs.ck.toNat) :
    concludeDigest s = finish s statusOk 0 := by
  have h1 : ¬ (s.regs.opr = opEnc ∨ s.regs.opr = opGen) := by rw [hop]; decide
  have h2 : s.regs.opr ≠ opDec := by rw [hop]; decide
  unfold concludeDigest; exact (if_neg h1).trans ((if_neg (not_not.mpr heq)).trans (if_neg h2))

/-! The response frames with payload (R71, R72, R75). -/

theorem responseFrame_words (r : Regs) (ws : List Index) (hst : r.rst = statusOk) (hop : r.opr = opEnc ∨ r.opr = opGen)
    (hheld : indicesHeld r = ws) (hrin : statusOk ++ r.rin = BitVec.ofNat 12 ws.length) :
    responseFrame r = okResponse r.opr (ws.map (BitVec.setWidth 16)) := by
  simp [responseFrame, okResponse, responseHeader, responsePayload, hst, hop, hheld, hrin]

theorem responseFrame_bytes (r : Regs) (e : List Byte) (hst : r.rst = statusOk) (hop : r.opr = opDec)
    (hheld : entropyHeld r = e) (hrin : statusOk ++ r.rin = BitVec.ofNat 12 e.length) :
    responseFrame r = okResponse opDec (e.map (BitVec.setWidth 16)) := by
  have h1 : ¬ (opDec = opEnc ∨ opDec = opGen) := by decide
  simp [responseFrame, okResponse, responseHeader, responsePayload, hst, hop, hheld, hrin, h1]

theorem responseFrame_valid (r : Regs) (hst : r.rst = statusOk) (hop : r.opr = opVal) (hrin : r.rin = 0) :
    responseFrame r = oneBeat 0x3000 := by
  have h1 : ¬ (opVal = opEnc ∨ opVal = opGen) := by decide
  have h2 : opVal ≠ opDec := by decide
  simp [responseFrame, oneBeat, responseHeader, responsePayload, hst, hop, hrin, h1, h2, markLast]
  decide

theorem emitSteps_finish_as (s : State) (status : BitVec 4) (info : BitVec 8) (g : List Beat)
    (hg : responseFrame (finish s status info).regs = g) (hready : g.length ≤ s.rspReady) :
    emitSteps 33 (finish s status info) = afterFrame s g.length [.rsp g] := by
  subst hg; exact emitSteps_finish s status info hready

/-! The answer and the response together. -/

/-- Answer `err`, the fault beat taken by the host (R198). -/
theorem settle_askDigest_fail (cfg : Config) (s : State) (q : List DigestChoice) (h : s.digQ = .err :: q)
    (hready : 1 ≤ s.rspReady) :
    settle cfg (askDigest s) =
      { afterFrame s 1 [.dreq (entropyHeld s.regs), .drsp none,
          .rsp (oneBeat (s.regs.opr ++ (statusFault ++ Cause.digestFail.code)))] with digQ := q } := by
  rw [settle_askDigest_err cfg s q h, settle_raise _ _ _ (by simpa using hready)]
  simp [afterFrame, askDigest]

/-- `ENC` and `GEN`, answer `ok`, the response taken whole. -/
theorem settle_askDigest_words (cfg : Config) (s : State) (q : List DigestChoice) (h : s.digQ = .ok :: q)
    (hop : s.regs.opr = opEnc ∨ s.regs.opr = opGen) (hl : legalEntropyBytes s.regs.el.toNat = true)
    (hready : 3 * s.regs.el.toNat / 4 + 1 ≤ s.rspReady) :
    settle cfg (askDigest s) =
      { afterFrame s (3 * s.regs.el.toNat / 4 + 1)
          [.dreq (entropyHeld s.regs), .drsp (some (cfg.sha256 (entropyHeld s.regs)).toList),
            .rsp (okResponse s.regs.opr
              ((wordsOf (entropyHeld s.regs) (cfg.sha256 (entropyHeld s.regs))).map (BitVec.setWidth 16)))] with
        digQ := q } := by
  have hel : s.regs.el.toNat ≤ 32 := by rcases legalEntropyBytes_cases hl with h | h | h | h | h <;> omega
  have hlen := entropyHeld_length s.regs hel
  have hws : (wordsOf (entropyHeld s.regs) (cfg.sha256 (entropyHeld s.regs))).length = 3 * s.regs.el.toNat / 4 := by
    rw [wordsOf_length, hlen]
  rw [settle_askDigest_ok cfg s q h, concludeDigest_words _ (by exact hop)]
  rw [emitSteps_finish_as _ _ _ (okResponse s.regs.opr
    ((wordsOf (entropyHeld s.regs) (cfg.sha256 (entropyHeld s.regs))).map (BitVec.setWidth 16)))]
  · simp [afterFrame, askDigest, okResponse, hlen]
  · refine responseFrame_words _ _ rfl hop ?_ ?_
    · have hwc : (BitVec.ofNat 5 (3 * s.regs.el.toNat / 4)).toNat =
          (wordsOf (entropyHeld s.regs) (cfg.sha256 (entropyHeld s.regs))).length := by
        rw [hws, BitVec.toNat_ofNat]; omega
      exact indicesHeld_fill
        { s.regs with wc := BitVec.ofNat 5 (3 * s.regs.el.toNat / 4) }
        (wordsOf (entropyHeld s.regs) (cfg.sha256 (entropyHeld s.regs))) (by rw [hws]; omega) hwc
    · rw [hws]
      change statusOk ++ BitVec.ofNat 8 (3 * s.regs.el.toNat / 4) = _
      rcases legalEntropyBytes_cases hl with h | h | h | h | h <;> rw [h] <;> decide
  · simpa [okResponse, hlen] using hready

/-- `DEC` and `VAL`, answer `ok`, the checksum not as claimed: NOVALUE (R125, R183). -/
theorem settle_askDigest_mismatch (cfg : Config) (s : State) (q : List DigestChoice) (h : s.digQ = .ok :: q)
    (hop : s.regs.opr = opDec ∨ s.regs.opr = opVal) (hready : 1 ≤ s.rspReady)
    (hne : uint (checksumBits (s.regs.el.toNat / 4) (cfg.sha256 (entropyHeld s.regs))) ≠ s.regs.ck.toNat) :
    settle cfg (askDigest s) =
      { afterFrame s 1
          [.dreq (entropyHeld s.regs), .drsp (some (cfg.sha256 (entropyHeld s.regs)).toList),
            .rsp (oneBeat (s.regs.opr ++ (statusNoValue ++ 0#8)))] with digQ := q } := by
  rw [settle_askDigest_ok cfg s q h, concludeDigest_mismatch _ (by exact hop) (by exact hne),
    ← settle_of_emit cfg _ rfl, settle_noValue _ _ (by simpa using hready)]
  simp [afterFrame, askDigest]

/-- `DEC`, answer `ok`, the checksum as claimed: the entropy bytes (R126). -/
theorem settle_askDigest_bytes (cfg : Config) (s : State) (q : List DigestChoice) (h : s.digQ = .ok :: q)
    (hop : s.regs.opr = opDec) (hel : s.regs.el.toNat ≤ 32) (hready : s.regs.el.toNat + 1 ≤ s.rspReady)
    (heq : uint (checksumBits (s.regs.el.toNat / 4) (cfg.sha256 (entropyHeld s.regs))) = s.regs.ck.toNat) :
    settle cfg (askDigest s) =
      { afterFrame s (s.regs.el.toNat + 1)
          [.dreq (entropyHeld s.regs), .drsp (some (cfg.sha256 (entropyHeld s.regs)).toList),
            .rsp (okResponse opDec ((entropyHeld s.regs).map (BitVec.setWidth 16)))] with digQ := q } := by
  have hlen := entropyHeld_length s.regs hel
  rw [settle_askDigest_ok cfg s q h, concludeDigest_bytes _ (by exact hop) (by exact heq)]
  rw [emitSteps_finish_as _ _ _ (okResponse opDec ((entropyHeld s.regs).map (BitVec.setWidth 16)))]
  · simp [afterFrame, askDigest, okResponse, hlen]
  · refine responseFrame_bytes _ _ rfl hop rfl ?_
    rw [hlen]
    change statusOk ++ s.regs.el.setWidth 8 = _
    generalize s.regs.el = el
    revert el
    decide
  · simpa [okResponse, hlen] using hready

/-- `VAL`, answer `ok`, the checksum as claimed: true (R140). -/
theorem settle_askDigest_valid (cfg : Config) (s : State) (q : List DigestChoice) (h : s.digQ = .ok :: q)
    (hop : s.regs.opr = opVal) (hready : 1 ≤ s.rspReady)
    (heq : uint (checksumBits (s.regs.el.toNat / 4) (cfg.sha256 (entropyHeld s.regs))) = s.regs.ck.toNat) :
    settle cfg (askDigest s) =
      { afterFrame s 1
          [.dreq (entropyHeld s.regs), .drsp (some (cfg.sha256 (entropyHeld s.regs)).toList),
            .rsp (oneBeat 0x3000)] with digQ := q } := by
  rw [settle_askDigest_ok cfg s q h, concludeDigest_valid _ (by exact hop) (by exact heq)]
  rw [emitSteps_finish_as _ _ _ (oneBeat 0x3000) (by exact responseFrame_valid _ rfl hop rfl) (by exact hready)]
  simp [afterFrame, askDigest, oneBeat]

end Sys2Proof.Machine
end

