-- ==== Sys2Proof/Laws/Fields.lean ====
section
/-! SUPPORT. The fields of a beat: each field read back from the beat built from it (spec/30_encoding.md R61 to R65). -/

namespace Sys2Proof

theorem extract_high {m n : Nat} (x : BitVec m) (y : BitVec n) : (x ++ y).extractLsb' n m = x := by
  ext i hi; simp [BitVec.getLsbD_append, hi]

theorem extract_low {m n : Nat} (x : BitVec m) (y : BitVec n) : (x ++ y).extractLsb' 0 n = y := by
  ext i hi; simp [BitVec.getLsbD_append, hi]

theorem extract_inner {m n j k : Nat} (x : BitVec m) (y : BitVec n) (h : j + k ≤ n) :
    (x ++ y).extractLsb' j k = y.extractLsb' j k := by
  ext i hi
  simp [BitVec.getLsbD_append]
  omega

theorem opField_append (op : BitVec 4) (low : BitVec 12) : opField (op ++ low) = op := extract_high op low

theorem lowField_append (op : BitVec 4) (low : BitVec 12) : lowField (op ++ low) = low := extract_low op low

theorem genMbzField_append (op : BitVec 4) (mbz : BitVec 3) (strength : BitVec 9) :
    genMbzField (op ++ (mbz ++ strength)) = mbz :=
  (extract_inner op (mbz ++ strength) (by omega)).trans (extract_high mbz strength)

theorem strengthField_append (op : BitVec 4) (mbz : BitVec 3) (strength : BitVec 9) :
    strengthField (op ++ (mbz ++ strength)) = strength :=
  (extract_inner op (mbz ++ strength) (by omega)).trans (extract_low mbz strength)

theorem byteBeat_byteData (b : ByteBeat) : byteBeat (byteData b) = b :=
  congrArg₂ ByteBeat.mk (extract_high b.mbz b.byte) (extract_low b.mbz b.byte)

theorem tokenBeat_tokenData (t : TokenBeat) : tokenBeat (tokenData t) = t := by
  obtain ⟨m, s, x⟩ := t
  have h1 := extract_high m (BitVec.ofBool s ++ x)
  have h2 : (m ++ (BitVec.ofBool s ++ x)).getLsbD 11 = s := by
    rw [BitVec.getLsbD_append, if_pos (by omega), BitVec.getLsbD_append]; simp
  have h3 : (m ++ (BitVec.ofBool s ++ x)).extractLsb' 0 11 = x :=
    (extract_inner m (BitVec.ofBool s ++ x) (by omega)).trans (extract_low _ _)
  exact congr (congrArg₂ TokenBeat.mk h1 h2) h3

end Sys2Proof
end

