-- ==== Sys2Proof/Laws/Frame.lean ====
section
/-! SUPPORT. What the shared operations leave alone: the request channel, the coming moves, the reset input and the beats
of a frame being received; which answers they use up; and that the history only grows. -/

namespace Sys2Proof.Machine

/-- Nothing but the registers, the response channel and the history has changed, and the history has grown. -/
def Keeps (s t : State) : Prop :=
  t.reqQ = s.reqQ ∧ t.env = s.env ∧ t.rst = s.rst ∧ t.reqSeen = s.reqSeen ∧ (∃ evs, t.log = s.log ++ evs) ∧
    t.rspReady ≤ s.rspReady

theorem Keeps.refl (s : State) : Keeps s s := ⟨rfl, rfl, rfl, rfl, ⟨[], by simp⟩, Nat.le_refl _⟩

theorem Keeps.trans {s t u : State} (h : Keeps s t) (h' : Keeps t u) : Keeps s u := by
  obtain ⟨h1, h2, h3, h4, ⟨e, h5⟩, h6⟩ := h
  obtain ⟨g1, g2, g3, g4, ⟨e', g5⟩, g6⟩ := h'
  exact ⟨g1.trans h1, g2.trans h2, g3.trans h3, g4.trans h4, ⟨e ++ e', by rw [g5, h5, List.append_assoc]⟩,
    Nat.le_trans g6 h6⟩

theorem finish_keeps (s : State) (status : BitVec 4) (info : BitVec 8) : Keeps s (finish s status info) :=
  ⟨rfl, rfl, rfl, rfl, ⟨[], by simp⟩, Nat.le_refl _⟩

theorem raise_keeps (s : State) (c : Cause) : Keeps s (raise s c) := finish_keeps s _ _

theorem noValue_keeps (s : State) : Keeps s (noValue s) := finish_keeps s _ _

theorem askDigest_keeps (s : State) : Keeps s (askDigest s) := ⟨rfl, rfl, rfl, rfl, ⟨_, rfl⟩, Nat.le_refl _⟩

theorem askEntropy_keeps (s : State) : Keeps s (askEntropy s) := ⟨rfl, rfl, rfl, rfl, ⟨_, rfl⟩, Nat.le_refl _⟩

theorem received_keeps (f : List Beat) (r : Regs) (s : State) : Keeps s (received f r s) :=
  ⟨rfl, rfl, rfl, rfl, ⟨_, rfl⟩, Nat.le_refl _⟩

theorem concludeDigest_keeps (s : State) : Keeps s (concludeDigest s) ∧ (concludeDigest s).digQ = s.digQ ∧
    (concludeDigest s).entQ = s.entQ ∧ (concludeDigest s).regs.ph = .emit := by
  unfold concludeDigest
  simp only
  split
  · exact ⟨⟨rfl, rfl, rfl, rfl, ⟨[], by simp⟩, Nat.le_refl _⟩, rfl, rfl, rfl⟩
  · split
    · exact ⟨noValue_keeps s, rfl, rfl, rfl⟩
    · split <;> exact ⟨finish_keeps s _ _, rfl, rfl, rfl⟩

/-- The digest wait uses at most one choice of the digest unit, and nothing else of the agents. -/
theorem digestStep_keeps (cfg : Config) (s : State) :
    Keeps s (digestStep cfg s) ∧ (digestStep cfg s).digQ = s.digQ.tail ∧ (digestStep cfg s).entQ = s.entQ := by
  unfold digestStep
  split
  · exact ⟨Keeps.refl s, by simp_all, rfl⟩
  · exact ⟨⟨rfl, rfl, rfl, rfl, ⟨_, rfl⟩, Nat.le_refl _⟩, by simp_all, rfl⟩
  · rename_i rest hq
    obtain ⟨h1, h2, h3, -⟩ := concludeDigest_keeps
      { s with
        digQ := rest
        log := s.log ++ [.drsp (some (cfg.sha256 (entropyHeld s.regs)).toList)]
        regs := { s.regs with dg := cfg.sha256 (entropyHeld s.regs) } }
    exact ⟨Keeps.trans (t := { s with
        digQ := rest
        log := s.log ++ [.drsp (some (cfg.sha256 (entropyHeld s.regs)).toList)]
        regs := { s.regs with dg := cfg.sha256 (entropyHeld s.regs) } })
      ⟨rfl, rfl, rfl, rfl, ⟨_, rfl⟩, Nat.le_refl _⟩ h1, by rw [h2, hq]; rfl, h3⟩

/-- The entropy wait uses at most one answer of the entropy source, and nothing else of the agents. -/
theorem entropyStep_keeps (s : State) :
    Keeps s (entropyStep s) ∧ (entropyStep s).digQ = s.digQ ∧ (entropyStep s).entQ = s.entQ.tail := by
  unfold entropyStep
  split
  · exact ⟨Keeps.refl s, rfl, by simp_all⟩
  · exact ⟨⟨rfl, rfl, rfl, rfl, ⟨_, rfl⟩, Nat.le_refl _⟩, rfl, by simp_all⟩
  · refine ⟨Keeps.trans ?_ (askDigest_keeps _), rfl, by simp_all⟩
    exact ⟨rfl, rfl, rfl, rfl, ⟨_, rfl⟩, Nat.le_refl _⟩

theorem emitStep_keeps (s : State) :
    Keeps s (emitStep s) ∧ (emitStep s).digQ = s.digQ ∧ (emitStep s).entQ = s.entQ := by
  unfold emitStep
  split
  · exact ⟨Keeps.refl s, rfl, rfl⟩
  · unfold sendBeat
    simp only
    split
    · exact ⟨⟨rfl, rfl, rfl, rfl, ⟨_, rfl⟩, Nat.sub_le _ _⟩, rfl, rfl⟩
    · exact ⟨⟨rfl, rfl, rfl, rfl, ⟨[], by simp⟩, Nat.sub_le _ _⟩, rfl, rfl⟩

theorem emitSteps_keeps (n : Nat) (s : State) :
    Keeps s (emitSteps n s) ∧ (emitSteps n s).digQ = s.digQ ∧ (emitSteps n s).entQ = s.entQ := by
  induction n generalizing s with
  | zero => exact ⟨Keeps.refl s, rfl, rfl⟩
  | succ n ih =>
    unfold emitSteps
    split
    · obtain ⟨h1, h2, h3⟩ := emitStep_keeps s
      obtain ⟨g1, g2, g3⟩ := ih (emitStep s)
      exact ⟨h1.trans g1, g2.trans h2, g3.trans h3⟩
    · exact ⟨Keeps.refl s, rfl, rfl⟩

/-- `settle` uses at most one entropy answer, and only from `RNGW`, and at most one digest choice. -/
theorem settle_keeps (cfg : Config) (s : State) :
    Keeps s (settle cfg s) ∧ ((settle cfg s).digQ = s.digQ ∨ (settle cfg s).digQ = s.digQ.tail) ∧
      ((settle cfg s).entQ = s.entQ ∨ s.regs.ph = .rngw ∧ (settle cfg s).entQ = s.entQ.tail) := by
  unfold settle
  obtain ⟨e1, e2, e3⟩ := entropyStep_keeps s
  obtain ⟨d1, d2, d3⟩ := digestStep_keeps cfg s
  obtain ⟨f1, f2, f3⟩ := digestStep_keeps cfg (entropyStep s)
  by_cases h : s.regs.ph = .rngw
  · simp only [h, if_true]
    by_cases h' : (entropyStep s).regs.ph = .hashw
    · simp only [h', if_true]
      obtain ⟨g1, g2, g3⟩ := emitSteps_keeps 33 (digestStep cfg (entropyStep s))
      exact ⟨(e1.trans f1).trans g1, Or.inr (by rw [g2, f2, e2]), Or.inr ⟨trivial, by rw [g3, f3, e3]⟩⟩
    · simp only [h', if_false]
      obtain ⟨g1, g2, g3⟩ := emitSteps_keeps 33 (entropyStep s)
      exact ⟨e1.trans g1, Or.inl (by rw [g2, e2]), Or.inr ⟨trivial, by rw [g3, e3]⟩⟩
  · simp only [h, if_false]
    by_cases h' : s.regs.ph = .hashw
    · simp only [h', if_true]
      obtain ⟨g1, g2, g3⟩ := emitSteps_keeps 33 (digestStep cfg s)
      exact ⟨d1.trans g1, Or.inr (by rw [g2, d2]), Or.inl (by rw [g3, d3])⟩
    · simp only [h', if_false]
      obtain ⟨g1, g2, g3⟩ := emitSteps_keeps 33 s
      exact ⟨g1, Or.inl g2, Or.inl g3⟩

end Sys2Proof.Machine
end

