-- ==== Sys2Proof/Laws/PerInstr.lean ====
section
/-! SUPPORT. The per-instruction family `FrameShape`: the shape of every operation's request frame (spec/30_encoding.md R60
to R65, R68). -/

namespace Sys2Proof.Laws.FrameShape

/-- The opcode nibble of an operation (R68). -/
def opcode : Instr → BitVec 4
  | .enc _ _ => 1
  | .dec _ _ => 2
  | .val _ _ => 3
  | .gen _ _ _ => 4

/-- The number of payload beats of an operation's frame. -/
def payloadBeats : Instr → Nat
  | .enc _ bytes => bytes.length
  | .dec _ tokens => tokens.length
  | .val _ tokens => tokens.length
  | .gen _ _ extra => extra.length

/-- The frame is a header, whose top nibble is the opcode, and one beat per payload element; `last = 1` on the final beat
and on no other. -/
def Statement (i : Instr) : Prop :=
  (encode i).length = 1 + payloadBeats i ∧
  ((encode i)[0]?.map fun b => opField b.data) = some (opcode i) ∧
  ∀ (k : Nat) (b : Beat), (encode i)[k]? = some b → (b.last = true ↔ k + 1 = (encode i).length)

theorem of_words (i : Instr) (hlen : (payloadData i).length = payloadBeats i)
    (hop : opField (headerData i) = opcode i) : Statement i := by
  refine ⟨?_, ?_, ?_⟩
  · simp [encode, hlen, Nat.add_comm]
  · rw [encode, Machine.markLast_getElem?]; simp [hop]
  · intro k b hb
    rw [encode, Machine.markLast_getElem?] at hb
    simp only [encode, Machine.markLast_length]
    obtain ⟨d, -, rfl⟩ := Option.map_eq_some_iff.mp hb
    simp

theorem enc (mbz : BitVec 12) (bytes : List ByteBeat) : Statement (.enc mbz bytes) :=
  of_words _ (by simp [payloadData, payloadBeats]) (opField_append opEnc mbz)

theorem dec (mbz : BitVec 12) (tokens : List TokenBeat) : Statement (.dec mbz tokens) :=
  of_words _ (by simp [payloadData, payloadBeats]) (opField_append opDec mbz)

theorem val (mbz : BitVec 12) (tokens : List TokenBeat) : Statement (.val mbz tokens) :=
  of_words _ (by simp [payloadData, payloadBeats]) (opField_append opVal mbz)

theorem gen (mbz : BitVec 3) (strength : BitVec 9) (extra : List Half) : Statement (.gen mbz strength extra) :=
  of_words _ rfl (opField_append opGen (mbz ++ strength))

end Sys2Proof.Laws.FrameShape
end

