-- ==== Sys2Proof/Laws/Ports.lean ====
section
/-! SUPPORT. The step relation with its parameters as arguments: what each single move offers, and when it is enabled. -/

namespace Sys2Proof.Machine

/-! What the agents of one move offer -/

@[simp] theorem agentsMaking_request (b : Beat) : (agentsMaking (.request b)).reqQ = [b] := rfl
@[simp] theorem agentsMaking_accept : (agentsMaking .accept).rspReady = 1 := rfl
@[simp] theorem agentsMaking_digest (c : DigestChoice) : (agentsMaking (.digest c)).digQ = [c] := rfl
@[simp] theorem agentsMaking_entropy (a : EntropyAnswer) : (agentsMaking (.entropy a)).entQ = [a] := rfl
@[simp] theorem agentsMaking_rst (m : PortMove) : (agentsMaking m).rst = decide (m = .reset) := by cases m <;> rfl

/-! When a move is enabled (R42) -/

/-- The phase that a move other than reset needs. -/
def moveFits : PortMove → Phase → Prop
  | .request _, p => p = .idle ∨ p = .recv
  | .accept, p => p = .emit
  | .digest _, p => p = .hashw
  | .entropy _, p => p = .rngw
  | .reset, _ => False

theorem coreEnabled_agentsMaking (m : PortMove) (b : Block) :
    coreEnabled { toBlock := b, toAgents := agentsMaking m } = true ↔ moveFits m b.regs.ph := by
  cases m <;> cases h : b.regs.ph <;> simp [coreEnabled, agentsMaking, quietAgents, moveFits, h]

/-- Reset is a step of every block (R210). -/
theorem portStep_reset (cfg : Config) (b : Block) :
    portStep cfg .reset b = some (resetStep { toBlock := b, toAgents := agentsMaking .reset }).toBlock := rfl

/-- Every other move is a step of the sequencer, exactly in the phase that awaits it. -/
theorem portStep_of_fits (cfg : Config) (m : PortMove) (b : Block) (h : moveFits m b.regs.ph) :
    portStep cfg m b = some (seqStep cfg { toBlock := b, toAgents := agentsMaking m }).toBlock := by
  have hr : m ≠ .reset := by rintro rfl; exact h
  have he := (coreEnabled_agentsMaking m b).mpr h
  simp [portStep, hr, he]

theorem portStep_of_not_fits (cfg : Config) (m : PortMove) (b : Block) (hr : m ≠ .reset)
    (h : ¬ moveFits m b.regs.ph) : portStep cfg m b = none := by
  have he : ¬ coreEnabled { toBlock := b, toAgents := agentsMaking m } = true :=
    fun hc => h ((coreEnabled_agentsMaking m b).mp hc)
  simp [portStep, hr, he]

/-! The operations under the platform's configuration -/

/-- `exec` is `execUnder` at the platform's configuration. -/
theorem exec_eq_execUnder (i : Instr) (s : State) : exec i s = execUnder platformConfig i s := by
  cases i <;> rfl

end Sys2Proof.Machine
end

