-- ==== Sys2Proof/Tests/Slice0.lean ====
section
/-! SUPPORT. The model's own tests, each with the vector of spec/95_test_vectors.md it is taken from, and for every
obligation with hypotheses a witness: a concrete state and operands that meet all of them together. -/

open Sys2Proof Sys2Proof.Machine

namespace Sys2Proof.Tests

/-! Helpers -/

/-- A state right after reset whose host takes `ready` response beats, with the agents' answers given. -/
def idleBlock (ready : Nat) (digQ : List DigestChoice) (entQ : List EntropyAnswer) : State :=
  { State.reset with rspReady := ready, digQ := digQ, entQ := entQ }

/-- A draw of thirty-two equal bytes. -/
def evenDraw (b : Byte) : Vector Byte 32 := Vector.replicate 32 b

/-- The state a step gives, if it gives one. -/
def nextOf (o : Host.Outcome State Fault Refusal) : Option State :=
  match o with
  | .next t => some t
  | .fault _ => none
  | .refused _ => none

/-- The data of the last response in the history after an outcome, with the registers then. -/
def answered (o : Host.Outcome State Fault Refusal) : Option (List Half) :=
  match nextOf o with
  | some t =>
    match t.log.getLast? with
    | some (.rsp g) => some (g.map Beat.data)
    | _ => none
  | none => none

/-- The events of a step on an empty history. -/
def events (o : Host.Outcome State Fault Refusal) : List Event :=
  match nextOf o with
  | some t => t.log
  | none => []

/-! Well-formedness (R69): one ill-formed frame for each check. -/

theorem test_wf_enc_header : (Instr.enc 1 []).wellFormed = false := by decide
theorem test_wf_enc_byte : (Instr.enc 0 [⟨0, 0⟩, ⟨1, 0⟩]).wellFormed = false := by decide
theorem test_wf_dec_header : (Instr.dec 0x800 []).wellFormed = false := by decide
theorem test_wf_dec_token : (Instr.dec 0 [⟨0, true, 3⟩, ⟨8, false, 0⟩]).wellFormed = false := by decide
theorem test_wf_val_header : (Instr.val 4 []).wellFormed = false := by decide
theorem test_wf_val_token : (Instr.val 0 [⟨1, false, 0⟩]).wellFormed = false := by decide
theorem test_wf_gen_header : (Instr.gen 4 128 []).wellFormed = false := by decide
theorem test_wf_gen_payload : (Instr.gen 0 128 [0]).wellFormed = false := by decide
theorem test_wf_good : (Instr.enc 0 (byteBeats [0xFF])).wellFormed = true ∧
    (Instr.dec 0 [⟨0, true, 2047⟩]).wellFormed = true ∧ (Instr.val 0 []).wellFormed = true ∧
    (Instr.gen 0 511 []).wellFormed = true := by decide

/-! Decoding: words written out bit by bit from R61 to R65. -/

/-- `ENC aa` (V61): `0001` then MBZ; a payload beat with the byte in bits 7:0. -/
theorem test_decode_enc : decode [⟨0b0001000000000000, false⟩, ⟨0b0000000010101010, true⟩] =
    .ok (.enc 0 [⟨0, 0xAA⟩], []) := by decide
/-- `DEC` with index 2047 and a miss with index 3 (V54's last beat): `0010`; a token has `MISS` in bit 11. -/
theorem test_decode_dec :
    decode [⟨0b0010000000000000, false⟩, ⟨0b0000011111111111, false⟩, ⟨0b0000100000000011, true⟩] =
      .ok (.dec 0 [⟨0, false, 2047⟩, ⟨0, true, 3⟩], []) := by decide
/-- `VAL` with an MBZ bit (bit 12) of its token set: `0011`. -/
theorem test_decode_val : decode [⟨0b0011000000000000, false⟩, ⟨0b0001000000000101, true⟩] =
    .ok (.val 0 [⟨1, false, 5⟩], []) := by decide
/-- `GEN 256` (V44) and a header with bit 11 set: `0100`, MBZ in bits 11:9, `STRENGTH` in bits 8:0. -/
theorem test_decode_gen : decode [⟨0b0100000100000000, true⟩] = .ok (.gen 0 256 [], []) ∧
    decode [⟨0b0100100010000000, true⟩] = .ok (.gen 4 128 [], []) := by decide
/-- Reserved opcodes and an unfinished frame are refused by name. -/
theorem test_decode_refused : decode [⟨0x5123, true⟩] = .error (.illegalOp 5) ∧ decode [⟨0x0000, true⟩] = .error (.illegalOp 0) ∧
    decode [⟨0x4080, false⟩, ⟨0, false⟩] = .error .incomplete ∧ decode [] = .error .incomplete := by decide

/-! The operations: at most two each, one step on a small state. -/

/-- V2: sixteen bytes `7f`. -/
theorem test_enc_words : answered (exec (.enc 0 (byteBeats (List.replicate 16 0x7F))) (idleBlock 33 [.ok] [])) =
    some [0x100C, 0x3FB, 0x7DF, 0x6FE, 0x7F7, 0x7BF, 0x5FD, 0x7EF, 0x77F, 0x3FB, 0x7DF, 0x6FE, 0x7F8] := by
  decide +kernel
/-- V70: a malformed beat wins over five unaligned bytes; V67: thirty-six bytes, the counter saturated. -/
theorem test_enc_faults :
    answered (exec (.enc 0 [⟨0, 0⟩, ⟨0, 0⟩, ⟨0xFF, 0⟩, ⟨0, 0⟩, ⟨0, 0⟩]) (idleBlock 1 [] [])) = some [0x1F02] ∧
    answered (exec (.enc 0 (byteBeats (List.replicate 36 0))) (idleBlock 1 [] [])) = some [0x1F04] := by decide +kernel
/-- V20 and the pair of V2: decoding gives the bytes back. -/
theorem test_dec_bytes :
    answered (exec (.dec 0 (foundTokens [1019, 2015, 1790, 2039, 1983, 1533, 2031, 1919, 1019, 2015, 1790, 2040]))
      (idleBlock 33 [.ok] [])) = some (0x2010 :: List.replicate 16 0x7F) := by decide +kernel
/-- V52 and V57: a missed token, and twenty-five tokens, give NOVALUE and ask for no digest. -/
theorem test_dec_structural :
    events (exec (.dec 0 (⟨0, true, 0⟩ :: foundTokens (List.replicate 11 0))) (idleBlock 1 [.err] [])) =
      [.req (encode (.dec 0 (⟨0, true, 0⟩ :: foundTokens (List.replicate 11 0)))), .rsp (oneBeat 0x2100)] ∧
    answered (exec (.dec 0 (foundTokens (List.replicate 25 0))) (idleBlock 1 [.err] [])) = some [0x2100] := by
  decide +kernel
/-- V30: the known vector validates. -/
theorem test_val_true : answered (exec (.val 0 (foundTokens [0, 0, 0, 0, 0, 0, 0, 0, 0, 0, 0, 3])) (idleBlock 1 [.ok] [])) =
    some [0x3000] := by decide +kernel
/-- V32: with checksum bit 0 flipped it does not. -/
theorem test_val_false : answered (exec (.val 0 (foundTokens [0, 0, 0, 0, 0, 0, 0, 0, 0, 0, 0, 2])) (idleBlock 1 [.ok] [])) =
    some [0x3100] := by decide +kernel
/-- V40: `GEN 128`, draw sixteen bytes `7f`. -/
theorem test_gen_words : answered (exec (.gen 0 128 []) (idleBlock 33 [.ok] [.ok (evenDraw 0x7F)])) =
    some [0x400C, 0x3FB, 0x7DF, 0x6FE, 0x7F7, 0x7BF, 0x5FD, 0x7EF, 0x77F, 0x3FB, 0x7DF, 0x6FE, 0x7F8] := by
  decide +kernel
/-- V46 and R197: no draw for a bad strength; a failing source is answered without a digest request. -/
theorem test_gen_faults : answered (exec (.gen 0 0 []) (idleBlock 1 [] [.err])) = some [0x4F05] ∧
    events (exec (.gen 0 256 []) (idleBlock 1 [.ok] [.err])) =
      [.req (encode (.gen 0 256 [])), .ereq 32, .ersp none, .rsp (oneBeat 0x4F06)] := by decide +kernel
/-- The table's word for `GEN 128`, placed at reset, is what the next step runs: it waits in `RNGW`. -/
theorem test_step_fetches : (nextOf (step (State.reset.withFetchWord 16 0x4080))).map (fun t => (t.regs.ph, t.log)) =
    some (.rngw, [.req [⟨0x4080, true⟩], .ereq 16]) := by decide +kernel

/-! Witnesses -/

/-- An `ENC` response in `EMIT`, `k` beats sent: twelve indices, all zero. -/
def emitting (k ready : Nat) : State :=
  let r := { Regs.zero with ph := .emit, opr := opEnc, wc := 12, rin := 12, hs := decide (k ≠ 0), ec := BitVec.ofNat 6 (k - 1) }
  { idleBlock ready [] [] with regs := r, rspSent := (responseFrame r).take k }

theorem emitting_inv (k : Nat) (h : k = 0 ∨ k = 12) : BlockInv (emitting k 1) := by
  rcases h with rfl | rfl
  · exact ⟨Or.inl ⟨rfl, Or.inl rfl, by decide, by decide⟩, rfl, by decide, by decide⟩
  · exact ⟨Or.inl ⟨rfl, Or.inl rfl, by decide, by decide⟩, rfl, by decide, by decide⟩

/-- A `VAL` frame in `RECV`, its header accepted, its one token offered. -/
def receiving : State :=
  { idleBlock 33 [] [] with
    regs := frameRegs [⟨0x3000, false⟩], reqSeen := [⟨0x3000, false⟩], reqQ := [⟨0x0005, true⟩, ⟨0x4080, true⟩] }

theorem receiving_inv : BlockInv receiving := ⟨rfl, by decide, by decide, rfl⟩

/-- A reserved-opcode frame in `RECV`. -/
def receivingReserved : State :=
  { idleBlock 33 [] [] with
    regs := frameRegs [⟨0x5000, false⟩], reqSeen := [⟨0x5000, false⟩], reqQ := [⟨0xFFFF, true⟩] }

theorem receivingReserved_inv : BlockInv receivingReserved := ⟨rfl, by decide, by decide, rfl⟩

theorem witness_EncodeOfDecode : decode [⟨0x4080, true⟩, ⟨0x2000, true⟩] = .ok (.gen 0 128 [], [⟨0x2000, true⟩]) := by
  decide

/-- The boundary headers of both clauses. -/
theorem witness_EveryFrameIsClassified :
    ((0x0FFF : Half).toNat / 4096 = 0 ∧ 5 ≤ (0x5000 : Half).toNat / 4096 ∧ 5 ≤ (0xFFFF : Half).toNat / 4096) ∧
    (1 ≤ (0x1000 : Half).toNat / 4096 ∧ (0x1000 : Half).toNat / 4096 ≤ 4) ∧
    (1 ≤ (0x4FFF : Half).toNat / 4096 ∧ (0x4FFF : Half).toNat / 4096 ≤ 4) := by decide

theorem witness_StepRunsDecodedInstr :
    let s : State := { idleBlock 33 [.ok] [] with reqQ := [⟨0x1000, false⟩, ⟨0x00AA, true⟩, ⟨0x4080, true⟩] }
    s.rst = false ∧ s.regs.ph = .idle ∧ decode s.reqQ = .ok (.enc 0 [⟨0, 0xAA⟩], [⟨0x4080, true⟩]) := by decide

theorem witness_ReservedOpcodeFaults :
    let s : State := { idleBlock 1 [] [] with reqQ := [⟨0x5123, false⟩, ⟨0xFFFF, true⟩, ⟨0x4080, true⟩] }
    let s0 : State := { idleBlock 1 [] [] with reqQ := [⟨0x0FFF, true⟩] }
    (s.rst = false ∧ s.regs.ph = .idle ∧ 1 ≤ s.rspReady ∧ 5 ≤ (0x5123 : Half).toNat / 4096 ∧
      s.reqQ = markLast (0x5123 :: [0xFFFF]) ++ [⟨0x4080, true⟩]) ∧
    (s0.rst = false ∧ s0.regs.ph = .idle ∧ 1 ≤ s0.rspReady ∧ (0x0FFF : Half).toNat / 4096 = 0 ∧
      s0.reqQ = markLast (0x0FFF :: []) ++ []) := by decide

/-- One state for each of the five waits. -/
theorem witness_WaitingLastsForEver :
    let s (p : Phase) : State := { State.reset with regs := { Regs.zero with ph := p } }
    ∀ p ∈ [Phase.idle, .recv, .rngw, .hashw, .emit], (s p).rst = false ∧ (s p).env = [] ∧
      (((s p).regs.ph = .idle ∧ (s p).reqQ = []) ∨ ((s p).regs.ph = .recv ∧ (s p).reqQ = []) ∨
        ((s p).regs.ph = .rngw ∧ (s p).entQ = []) ∨ ((s p).regs.ph = .hashw ∧ (s p).digQ = []) ∨
        ((s p).regs.ph = .emit ∧ (s p).rspReady = 0)) := by decide

theorem witness_WaitingChangesNoRegister :
    let s : State := { State.reset with regs := { Regs.zero with ph := .hashw, opr := opEnc, el := 16 }, env := [.digest .ok] }
    s.rst = false ∧ coreEnabled s = false := by decide

/-- A state for each clause: nothing to do, an unfinished frame offered to an idle block, and a busy block. -/
theorem witness_StepOtherwise :
    (State.reset.rst = false ∧ coreEnabled State.reset = false) ∧
    (let s : State := { State.reset with reqQ := [⟨0x1000, false⟩] }
     s.rst = false ∧ coreEnabled s = true ∧ decode s.reqQ = .error .incomplete) ∧
    ((emitting 0 1).rst = false ∧ coreEnabled (emitting 0 1) = true ∧ (emitting 0 1).regs.ph ≠ .idle) :=
  ⟨by decide, ⟨rfl, by decide, rfl⟩, by decide⟩

/-- `GEN` of 128 or 256 bits, waiting for its draw. -/
def drawing (strength : BitVec 9) (el : BitVec 6) (entQ : List EntropyAnswer) : State :=
  { idleBlock 33 [] entQ with regs := { genRegs 0 strength [] with ph := .rngw, el := el } }

theorem witness_EntropyAnswerStep :
    (BlockInv (drawing 128 16 [.err]) ∧ (drawing 128 16 [.err]).rst = false ∧ (drawing 128 16 [.err]).regs.ph = .rngw ∧
      (drawing 128 16 [.err]).entQ = .err :: []) ∧
    (BlockInv (drawing 256 32 [.ok (evenDraw 7)]) ∧ (drawing 256 32 [.ok (evenDraw 7)]).rst = false ∧
      (drawing 256 32 [.ok (evenDraw 7)]).regs.ph = .rngw ∧
      (drawing 256 32 [.ok (evenDraw 7)]).entQ = .ok (evenDraw 7) :: []) :=
  ⟨⟨⟨rfl, by decide, by decide, rfl, rfl⟩, by decide⟩, ⟨⟨rfl, by decide, by decide, rfl, rfl⟩, by decide⟩⟩

/-- An operation with opcode `op` waiting for the digest of sixteen zero bytes; for `DEC` and `VAL` the checksum 3. -/
def hashing (op : BitVec 4) (c : DigestChoice) : State :=
  { idleBlock 33 [c] [] with regs := { Regs.zero with ph := .hashw, opr := op, el := 16, wc := 12, ck := 3 } }

theorem hashing_inv (op : BitVec 4) (c : DigestChoice) (h : op = 1 ∨ op = 2 ∨ op = 3 ∨ op = 4) :
    BlockInv (hashing op c) := by
  cases c <;> rcases h with rfl | rfl | rfl | rfl <;>
    exact ⟨rfl, rfl, rfl, rfl, rfl, rfl, rfl, by decide, by decide, fun _ => by decide, rfl, rfl⟩

theorem witness_DigestAnswerStep :
    (BlockInv (hashing 1 .err) ∧ (hashing 1 .err).rst = false ∧ (hashing 1 .err).regs.ph = .hashw ∧
      (hashing 1 .err).digQ = .err :: []) ∧
    ∀ op : BitVec 4, op = 1 ∨ op = 2 ∨ op = 3 ∨ op = 4 →
      BlockInv (hashing op .ok) ∧ (hashing op .ok).rst = false ∧ (hashing op .ok).regs.ph = .hashw ∧
        (hashing op .ok).digQ = .ok :: [] :=
  ⟨⟨hashing_inv 1 .err (Or.inl rfl), rfl, rfl, rfl⟩, fun op h => ⟨hashing_inv op .ok h, rfl, rfl, rfl⟩⟩

theorem witness_BusyBlockTakesNoFrame : (emitting 0 5).regs.ph ≠ .idle ∧ (emitting 0 5).rst = false ∧
    coreEnabled (emitting 0 5) = true ∧ reqReady (emitting 0 5) = false := by decide

/-- The first beat of a response, and its last. -/
theorem witness_EmitSendsTheResponseInOrder :
    (BlockInv (emitting 0 1) ∧ (emitting 0 1).rst = false ∧ (emitting 0 1).regs.ph = .emit ∧ 1 ≤ (emitting 0 1).rspReady) ∧
    (BlockInv (emitting 12 1) ∧ (emitting 12 1).rst = false ∧ (emitting 12 1).regs.ph = .emit ∧
      1 ≤ (emitting 12 1).rspReady) :=
  ⟨⟨emitting_inv 0 (Or.inl rfl), by decide⟩, ⟨emitting_inv 12 (Or.inr rfl), by decide⟩⟩

theorem witness_HeaderOpensFrame :
    let s : State := { idleBlock 0 [] [] with reqQ := [⟨0x2001, false⟩, ⟨0x0003, false⟩] }
    BlockInv s ∧ s.rst = false ∧ s.regs.ph = .idle ∧ s.reqQ = ⟨0x2001, false⟩ :: [⟨0x0003, false⟩] ∧
      (∀ b ∈ [(⟨0x0003, false⟩ : Beat)], b.last = false) :=
  ⟨⟨rfl, rfl, rfl⟩, by decide⟩

/-- An idle block whose host takes any response meets the hypotheses of the four operations' rules, whatever the frame. -/
theorem witness_EncFollowsItsRule : (idleBlock 33 [.ok] []).regs.ph = .idle ∧ 33 ≤ (idleBlock 33 [.ok] []).rspReady := by
  decide
theorem witness_GenFollowsItsRule :
    (idleBlock 40 [.ok] [.ok (evenDraw 1)]).regs.ph = .idle ∧ 33 ≤ (idleBlock 40 [.ok] [.ok (evenDraw 1)]).rspReady := by
  decide
theorem witness_DecFollowsItsRule : (idleBlock 33 [.err] []).regs.ph = .idle ∧ 33 ≤ (idleBlock 33 [.err] []).rspReady := by
  decide
theorem witness_ValFollowsItsRule : (idleBlock 33 [] []).regs.ph = .idle ∧ 33 ≤ (idleBlock 33 [] []).rspReady := by decide

theorem witness_ExecFrame : ∃ t : State, exec (.gen 0 128 []) (idleBlock 0 [] []) = .next t := ⟨_, rfl⟩

/-- Nothing of the response taken, and all of it but one beat. -/
theorem witness_EncResponseWaitsForHost :
    ((idleBlock 0 [.ok] []).regs.ph = .idle ∧ legalEntropyBytes (List.replicate 16 (0 : Byte)).length = true ∧
      (idleBlock 0 [.ok] []).digQ = .ok :: [] ∧ (idleBlock 0 [.ok] []).rspReady ≤ 3 * (List.replicate 16 (0 : Byte)).length / 4) ∧
    ((idleBlock 24 [.ok] []).regs.ph = .idle ∧ legalEntropyBytes (List.replicate 32 (0 : Byte)).length = true ∧
      (idleBlock 24 [.ok] []).digQ = .ok :: [] ∧
      (idleBlock 24 [.ok] []).rspReady ≤ 3 * (List.replicate 32 (0 : Byte)).length / 4) := by decide

theorem witness_LateDigestAnswerSameResult :
    ∃ t u : State, (idleBlock 33 [] []).digQ = [] ∧
      execUnder referenceConfig (.enc 0 (byteBeats (List.replicate 16 0))) (idleBlock 33 [] []) = .next t ∧
      t.regs.ph = .hashw ∧ (idleBlock 33 [] []).regs.ph = .idle ∧
      execUnder referenceConfig (.enc 0 (byteBeats (List.replicate 16 0))) { idleBlock 33 [] [] with digQ := [.ok] } =
        .next u :=
  ⟨_, _, rfl, rfl, by decide +kernel, rfl, rfl⟩

/-- A frame not begun, and one whose header has been received. -/
theorem witness_SequencerRefinesExec :
    (let s : State := { idleBlock 33 [.ok] [] with reqQ := [⟨0x4080, true⟩] }
     BlockInv s ∧ (s.regs.ph = .idle ∨ s.regs.ph = .recv) ∧ s.reqSeen ++ s.reqQ = encode (.gen 0 128 []) ++ []) ∧
    (BlockInv receiving ∧ (receiving.regs.ph = .idle ∨ receiving.regs.ph = .recv) ∧
      receiving.reqSeen ++ receiving.reqQ = encode (.val 0 (foundTokens [5])) ++ [⟨0x4080, true⟩]) :=
  ⟨⟨⟨rfl, rfl, rfl⟩, Or.inl rfl, by decide⟩, ⟨receiving_inv, Or.inr rfl, by decide⟩⟩

theorem witness_SequencerRefinesIllegalOp :
    (let s : State := { idleBlock 33 [] [] with reqQ := [⟨0x0000, true⟩] }
     BlockInv s ∧ (s.regs.ph = .idle ∨ s.regs.ph = .recv) ∧ reservedOp (opField 0x0000) = true ∧
       s.reqSeen ++ s.reqQ = markLast (0x0000 :: []) ++ []) ∧
    (BlockInv receivingReserved ∧ (receivingReserved.regs.ph = .idle ∨ receivingReserved.regs.ph = .recv) ∧
      reservedOp (opField 0x5000) = true ∧
      receivingReserved.reqSeen ++ receivingReserved.reqQ = markLast (0x5000 :: [0xFFFF]) ++ []) :=
  ⟨⟨⟨rfl, rfl, rfl⟩, Or.inl rfl, by decide, by decide⟩, ⟨receivingReserved_inv, Or.inr rfl, by decide, by decide⟩⟩

theorem witness_ValAgreesWithDec :
    (idleBlock 33 [.err] []).regs.ph = .idle ∧ 33 ≤ (idleBlock 33 [.err] []).rspReady ∧ (idleBlock 33 [.err] []).digQ ≠ [] := by
  decide

/-- The shortest and the longest entropy. -/
theorem witness_DecodeUndoesEncode :
    legalEntropyBytes (List.replicate 16 (0 : Byte)).length = true ∧
    legalEntropyBytes (List.replicate 32 (0xFF : Byte)).length = true ∧
    (idleBlock 33 [.ok] []).regs.ph = .idle ∧ 33 ≤ (idleBlock 33 [.ok] []).rspReady ∧
    (idleBlock 33 [.ok] []).digQ = .ok :: [] := by decide

/-- The smallest and the largest strength. -/
theorem witness_ValidatorAcceptsGenerated :
    (128 : BitVec 9).toNat ∈ [128, 160, 192, 224, 256] ∧ (256 : BitVec 9).toNat ∈ [128, 160, 192, 224, 256] ∧
    (idleBlock 33 [.ok] [.ok (evenDraw 0)]).regs.ph = .idle ∧ 33 ≤ (idleBlock 33 [.ok] [.ok (evenDraw 0)]).rspReady ∧
    (idleBlock 33 [.ok] [.ok (evenDraw 0)]).entQ = .ok (evenDraw 0) :: [] ∧
    (idleBlock 33 [.ok] [.ok (evenDraw 0)]).digQ = .ok :: [] := by decide

/-- V27: bit 0 and bit 3 of the known vector's checksum. -/
theorem witness_ChecksumFlipIsCaught :
    ∃ t : State,
      0 < ((List.replicate 11 (0 : Index)).length + 1) / 3 ∧ 3 < ((List.replicate 11 (0 : Index)).length + 1) / 3 ∧
      legalWordCount ((List.replicate 11 (0 : Index)).length + 1) = true ∧
      (idleBlock 33 [.ok] []).regs.ph = .idle ∧ 33 ≤ (idleBlock 33 [.ok] []).rspReady ∧
      (idleBlock 33 [.ok] []).digQ = .ok :: [] ∧
      execUnder referenceConfig (.dec 0 (foundTokens (List.replicate 11 0 ++ [3]))) (idleBlock 33 [.ok] []) = .next t ∧
      t.log.getLast? = some (.rsp (okResponse 2 ((List.replicate 16 (0 : Byte)).map (BitVec.setWidth 16)))) :=
  ⟨_, by decide, by decide, by decide, by decide, by decide, by decide, rfl, by decide +kernel⟩

/-- Thirteen tokens, and twelve of which one missed. -/
theorem witness_StructuralNoValue :
    ((∀ t ∈ foundTokens (List.replicate 13 0), t.mbz = 0) ∧ (foundTokens (List.replicate 13 0)).length = 13) ∧
    ((∀ t ∈ (⟨0, true, 7⟩ : TokenBeat) :: foundTokens (List.replicate 11 0), t.mbz = 0) ∧
      ∃ t ∈ (⟨0, true, 7⟩ : TokenBeat) :: foundTokens (List.replicate 11 0), t.miss = true) ∧
    (idleBlock 1 [] []).regs.ph = .idle ∧ 1 ≤ (idleBlock 1 [] []).rspReady := by decide

theorem witness_GenAnswersAsEncOfItsDraw :
    (160 : BitVec 9).toNat ∈ [128, 160, 192, 224, 256] ∧
    (idleBlock 33 [.ok] [.ok (evenDraw 9)]).regs.ph = .idle ∧ 33 ≤ (idleBlock 33 [.ok] [.ok (evenDraw 9)]).rspReady ∧
    (idleBlock 33 [.ok] [.ok (evenDraw 9)]).entQ = .ok (evenDraw 9) :: [] ∧
    (idleBlock 33 [.ok] [.ok (evenDraw 9)]).digQ = .ok :: [] := by decide

theorem witness_IndexBitsInTheEntropy : legalEntropyBytes (List.replicate 20 (0x80 : Byte)).length = true ∧
    0 < 11 * (3 * (List.replicate 20 (0x80 : Byte)).length / 4) ∧
    164 < 11 * (3 * (List.replicate 20 (0x80 : Byte)).length / 4) := by decide

/-- The hypotheses of the laws that have some, at the ends of their ranges. -/
theorem witness_BitStringLaws : (List.replicate 16 true).length % 8 = 0 ∧ 1 < [(1 : Byte), 2].length ∧
    (1 ≤ 1 ∧ 1 ≤ 8) ∧ (1 ≤ 8 ∧ 8 ≤ 8) ∧ 1 ≤ [(1 : Byte)].length ∧ (List.replicate 22 true).length = 11 * 2 := by decide

theorem witness_ResetFromAnyState : ({ emitting 12 1 with rst := true } : State).rst = true := rfl

/-- A step from a state of the invariant that gives a next state: in `RECV`, and in `EMIT`. -/
theorem witness_StepKeepsInv : ∃ t u : State, BlockInv receiving ∧ step receiving = .next t ∧
    BlockInv (emitting 12 1) ∧ step (emitting 12 1) = .next u :=
  ⟨_, _, receiving_inv, rfl, emitting_inv 12 (Or.inr rfl), rfl⟩

theorem witness_StepKeepsTrace :
    ∃ t : State, BlockInv receiving ∧ TraceInv platformConfig receiving ∧ step receiving = .next t :=
  ⟨_, receiving_inv, rfl, rfl⟩

/-- A history with a response in it. -/
theorem witness_StepKeepsResponsesLegal :
    ∃ t : State, BlockInv { receiving with log := [.req (encode (.val 0 [])), .rsp (oneBeat 0x3100)] } ∧
      ResponsesLegal { receiving with log := [.req (encode (.val 0 [])), .rsp (oneBeat 0x3100)] } ∧
      step { receiving with log := [.req (encode (.val 0 [])), .rsp (oneBeat 0x3100)] } = .next t := by
  refine ⟨_, receiving_inv, ?_, rfl⟩
  intro g hg
  have hg : g = oneBeat 0x3100 := by simpa using hg
  subst hg
  exact ⟨3, 1, 0, [], by decide, Or.inr (Or.inr (Or.inr (Or.inl ⟨rfl, Or.inr rfl, rfl, rfl⟩)))⟩

/-- Two idle blocks that differ in what they have done and in a stale register. -/
theorem witness_FramesLeaveNothingBehind :
    let s := idleBlock 33 [.ok] [.err]
    let s' : State := { idleBlock 50 [.ok] [.err] with
      regs := { Regs.zero with ck := 3 }, log := [.req [], .rsp []], reqQ := [⟨0x1000, false⟩] }
    s.regs.ph = .idle ∧ s'.regs.ph = .idle ∧ 33 ≤ s.rspReady ∧ 33 ≤ s'.rspReady ∧ s.digQ ≠ [] ∧ s.entQ ≠ [] ∧
      s'.digQ = s.digQ ∧ s'.entQ = s.entQ := by decide

/-- Two digest functions that differ in digest byte 31 only. -/
theorem witness_OnlyLeadingDigestBitsMatter :
    ∃ t t' : State,
      (∀ m : List Byte, legalEntropyBytes m.length = true →
        (referenceConfig.sha256 m)[0].toNat / 2 ^ (8 - m.length / 4) =
          (({ sha256 := fun m => (sha256 m).set 31 0 } : Config).sha256 m)[0].toNat / 2 ^ (8 - m.length / 4)) ∧
      (idleBlock 33 [.ok] []).regs.ph = .idle ∧ 33 ≤ (idleBlock 33 [.ok] []).rspReady ∧
      execUnder referenceConfig (.enc 0 (byteBeats (List.replicate 16 0))) (idleBlock 33 [.ok] []) = .next t ∧
      execUnder { sha256 := fun m => (sha256 m).set 31 0 } (.enc 0 (byteBeats (List.replicate 16 0)))
        (idleBlock 33 [.ok] []) = .next t' :=
  ⟨_, _, fun m _ => by simp [referenceConfig], by decide, by decide, rfl, rfl⟩

/-- Lane 1 of two. -/
theorem witness_LanesShareNothing : ∃ p' : Platform,
    laneStep referenceConfig 1 ⟨[State.reset, { State.reset with env := [.take 1] }]⟩ = .next p' := ⟨_, rfl⟩

/-- The strings of one to `n` letters `a`. -/
def aWords (n : Nat) : List String := (List.range n).map fun k => String.ofList (List.replicate (k + 1) 'a')

/-- A wordlist: the strings of one to 2048 letters `a`. -/
def aWordlist : Wordlist where
  words := aWords 2048
  size := by simp [aWords]
  unique := by
    refine List.Nodup.map ?_ List.nodup_range
    intro m n h
    have := congrArg (fun w : String => w.toList.length) h
    simpa using this
  plain := by
    intro w hw
    obtain ⟨n, -, rfl⟩ := List.mem_map.mp hw
    simp [Char.isWhitespace, Char.isUpper]

theorem mem_aWords (n : Nat) (w : String) :
    w ∈ aWords n ↔ ∃ k, k < n ∧ String.ofList (List.replicate (k + 1) 'a') = w := by
  simp [aWords]

/-- The list has its first word and not the empty string. -/
theorem witness_WordlistLookups : "a" ∈ aWordlist.words ∧ "" ∉ aWordlist.words := by
  simp only [aWordlist]
  constructor
  · exact (mem_aWords 2048 "a").mpr ⟨0, by decide, by decide⟩
  · intro h
    obtain ⟨n, -, h⟩ := (mem_aWords 2048 "").mp h
    have := congrArg (fun w : String => w.toList.length) h
    simp at this

theorem witness_PhraseRoundTrip :
    aWordlist.words.length = 2048 ∧ legalEntropyBytes (List.replicate 24 (0x55 : Byte)).length = true ∧
    (idleBlock 33 [.ok] []).regs.ph = .idle ∧ 33 ≤ (idleBlock 33 [.ok] []).rspReady ∧
    (idleBlock 33 [.ok] []).digQ = .ok :: [] :=
  ⟨aWordlist.size, by decide⟩

/-- A block in `RECV` is kept consistent by what it has received, under any digest function. -/
theorem witness_EveryConfigurationKeepsInvariants :
    ∃ t : State, BlockInv receiving ∧ TraceInv { sha256 := fun _ => Vector.replicate 32 0 } receiving ∧
      ResponsesLegal receiving ∧ stepUnder { sha256 := fun _ => Vector.replicate 32 0 } receiving = .next t :=
  ⟨_, receiving_inv, rfl, fun g hg => by simp [receiving, idleBlock, State.reset] at hg, rfl⟩

/-- A state for each clause: reset asserted, a step enabled in two phases, and none. -/
theorem witness_AgentsSupplyTheParameters :
    ({ emitting 12 1 with rst := true } : State).rst = true ∧
    ((hashing 1 .ok).rst = false ∧ coreEnabled (hashing 1 .ok) = true) ∧
    ((emitting 0 1).rst = false ∧ coreEnabled (emitting 0 1) = true) ∧
    (State.reset.rst = false ∧ coreEnabled State.reset = false) := by decide

/-- A run: an `ENC` block waits in `HASHW`, the digest unit fails, the host takes the fault beat, and all rest. -/
def failingRun : Nat → Block
  | 0 => (hashing 1 .err).toBlock
  | 1 => (raise { hashing 1 .err with log := [.drsp none] } .digestFail).toBlock
  | _ => { regs := Regs.zero, reqSeen := [], rspSent := [], log := [.drsp none, .rsp (oneBeat 0x1F07)] }

/-- The moves of that run. -/
def failingMoves : Nat → Option PortMove
  | 0 => some (.digest .err)
  | 1 => some .accept
  | _ => none

theorem failingRun_steps (n : Nat) : match failingMoves n with
    | none => failingRun (n + 1) = failingRun n
    | some m => portStep referenceConfig m (failingRun n) = some (failingRun (n + 1)) := by
  match n with
  | 0 => rfl
  | 1 =>
    change portStep referenceConfig .accept (failingRun 1) = some (failingRun 2)
    decide
  | n + 2 => rfl

theorem failingRun_phase (n : Nat) : (failingRun n).regs.ph = .hashw ∧ n = 0 ∨ (failingRun n).regs.ph = .emit ∧ n = 1 ∨
    (failingRun n).regs.ph = .idle := by
  match n with
  | 0 => exact Or.inl ⟨rfl, rfl⟩
  | 1 => exact Or.inr (Or.inl ⟨rfl, rfl⟩)
  | n + 2 => exact Or.inr (Or.inr rfl)

theorem failingRun_fair : FairRun failingRun failingMoves where
  host_offers n h := by have := failingRun_phase n; simp [h] at this
  entropy_answers n h := by have := failingRun_phase n; simp [h] at this
  digest_answers n h := by
    have : n = 0 := by have := failingRun_phase n; simpa [h] using this
    subst this; exact ⟨0, Or.inr ⟨.err, rfl⟩⟩
  host_accepts n h := by
    have : n = 1 := by have := failingRun_phase n; simpa [h] using this
    subst this; exact ⟨0, Or.inr rfl⟩

theorem witness_FairRunsAnswer :
    IsPortRun referenceConfig failingRun failingMoves ∧ FairRun failingRun failingMoves ∧
      HostEndsFrames failingRun failingMoves ∧ (∀ m, failingMoves m ≠ some .reset) ∧ (failingRun 0).regs.ph ≠ .idle := by
  refine ⟨failingRun_steps, failingRun_fair, fun n h => ?_, fun m => ?_, by decide⟩
  · have := failingRun_phase n
    simp [h] at this
  · match m with
    | 0 => decide
    | 1 => decide
    | m + 2 => exact nofun

end Sys2Proof.Tests
end

/-! SUPPORT. Scope proofs, part 1 (spec/00_scope.md R7, R11): the configuration and the agents' choices as
parameters of the step. -/

namespace Sys2Proof.Machine

/-- Settles O47: `exec` is `execUnder` at the platform's configuration, and both steps are `laneMove` of these. -/
theorem stepIsThePlatforms : Obligations.StepIsThePlatforms := by
  intro s
  have hexec : exec = execUnder platformConfig := funext₂ exec_eq_execUnder
  simp only [step, stepUnder, hexec]

/-! The block after an operation is a function of the block before it, whatever the agents' data hold. -/

theorem dispatch_toBlock_congr {s t : State} (h : s.toBlock = t.toBlock) :
    (dispatch s).toBlock = (dispatch t).toBlock := by
  obtain ⟨b, a⟩ := s
  obtain ⟨b', a'⟩ := t
  obtain rfl : b = b' := h
  simp only [dispatch]
  split_ifs <;> rfl

theorem afterBeat_toBlock_congr (x : Beat) {s t : State} (h : s.toBlock = t.toBlock) :
    (afterBeat x s).toBlock = (afterBeat x t).toBlock := by
  obtain ⟨b, a⟩ := s
  obtain ⟨b', a'⟩ := t
  obtain rfl : b = b' := h
  simp only [afterBeat]
  split_ifs
  · exact dispatch_toBlock_congr rfl
  · rfl

theorem concludeDigest_toBlock_congr {s t : State} (h : s.toBlock = t.toBlock) :
    (concludeDigest s).toBlock = (concludeDigest t).toBlock := by
  obtain ⟨b, a⟩ := s
  obtain ⟨b', a'⟩ := t
  obtain rfl : b = b' := h
  simp only [concludeDigest]
  split_ifs <;> rfl

theorem sendBeat_toBlock_congr {s t : State} (h : s.toBlock = t.toBlock) :
    (sendBeat s).toBlock = (sendBeat t).toBlock := by
  obtain ⟨b, a⟩ := s
  obtain ⟨b', a'⟩ := t
  obtain rfl : b = b' := h
  simp only [sendBeat]
  split_ifs <;> rfl

/-! What the sequencer makes of the one choice that its phase asks for (R29 to R35). -/

theorem headerStep_of_offer (s : State) (x : Beat) (rest : List Beat) (h : s.reqQ = x :: rest) :
    headerStep s = afterBeat x { s with reqQ := rest, regs := latchHeader x.data s.regs } := by
  simp [headerStep, h]

theorem payloadStep_of_offer (s : State) (x : Beat) (rest : List Beat) (h : s.reqQ = x :: rest) :
    payloadStep s = afterBeat x { s with reqQ := rest, regs := latchPayload x.data s.regs } := by
  simp [payloadStep, h]

theorem entropyStep_of_err (s : State) (q : List EntropyAnswer) (h : s.entQ = .err :: q) :
    entropyStep s = raise { s with entQ := q, log := s.log ++ [.ersp none] } .entropySourceFail := by
  simp [entropyStep, h]

theorem entropyStep_of_ok (s : State) (draw : Vector Byte 32) (q : List EntropyAnswer) (h : s.entQ = .ok draw :: q) :
    entropyStep s = askDigest { s with
      entQ := q
      log := s.log ++ [.ersp (some (draw.toList.take s.regs.el.toNat))]
      regs := { s.regs with eb := fill s.regs.eb (draw.toList.take s.regs.el.toNat) } } := by
  simp [entropyStep, h]

theorem digestStep_of_err (cfg : Config) (s : State) (q : List DigestChoice) (h : s.digQ = .err :: q) :
    digestStep cfg s = raise { s with digQ := q, log := s.log ++ [.drsp none] } .digestFail := by
  simp [digestStep, h]

theorem digestStep_of_ok (cfg : Config) (s : State) (q : List DigestChoice) (h : s.digQ = .ok :: q) :
    digestStep cfg s = concludeDigest { s with
      digQ := q
      log := s.log ++ [.drsp (some (cfg.sha256 (entropyHeld s.regs)).toList)]
      regs := { s.regs with dg := cfg.sha256 (entropyHeld s.regs) } } := by
  simp [digestStep, h]

theorem emitStep_of_ready (s : State) (h : s.rspReady ≠ 0) : emitStep s = sendBeat s := if_neg h

/-! Two states with one block and the same next choice step to one block. -/

theorem headerStep_toBlock_congr {s t : State} (h : s.toBlock = t.toBlock) (x : Beat) {rest rest' : List Beat}
    (hs : s.reqQ = x :: rest) (ht : t.reqQ = x :: rest') : (headerStep s).toBlock = (headerStep t).toBlock := by
  rw [headerStep_of_offer s x rest hs, headerStep_of_offer t x rest' ht]
  exact afterBeat_toBlock_congr x (by simp [h])

theorem payloadStep_toBlock_congr {s t : State} (h : s.toBlock = t.toBlock) (x : Beat) {rest rest' : List Beat}
    (hs : s.reqQ = x :: rest) (ht : t.reqQ = x :: rest') : (payloadStep s).toBlock = (payloadStep t).toBlock := by
  rw [payloadStep_of_offer s x rest hs, payloadStep_of_offer t x rest' ht]
  exact afterBeat_toBlock_congr x (by simp [h])

theorem entropyStep_toBlock_congr {s t : State} (h : s.toBlock = t.toBlock) (a : EntropyAnswer)
    {q q' : List EntropyAnswer} (hs : s.entQ = a :: q) (ht : t.entQ = a :: q') :
    (entropyStep s).toBlock = (entropyStep t).toBlock := by
  cases a with
  | err => rw [entropyStep_of_err s q hs, entropyStep_of_err t q' ht]; simp [raise, finish, h]
  | ok draw => rw [entropyStep_of_ok s draw q hs, entropyStep_of_ok t draw q' ht]; simp [askDigest, h]

theorem digestStep_toBlock_congr (cfg : Config) {s t : State} (h : s.toBlock = t.toBlock) (c : DigestChoice)
    {q q' : List DigestChoice} (hs : s.digQ = c :: q) (ht : t.digQ = c :: q') :
    (digestStep cfg s).toBlock = (digestStep cfg t).toBlock := by
  cases c with
  | err => rw [digestStep_of_err cfg s q hs, digestStep_of_err cfg t q' ht]; simp [raise, finish, h]
  | ok =>
    rw [digestStep_of_ok cfg s q hs, digestStep_of_ok cfg t q' ht]
    exact concludeDigest_toBlock_congr (by simp [h])

theorem emitStep_toBlock_congr {s t : State} (h : s.toBlock = t.toBlock) (hs : s.rspReady ≠ 0)
    (ht : t.rspReady ≠ 0) : (emitStep s).toBlock = (emitStep t).toBlock := by
  rw [emitStep_of_ready s hs, emitStep_of_ready t ht]
  exact sendBeat_toBlock_congr h

theorem seqStep_of_idle (cfg : Config) (s : State) (h : s.regs.ph = .idle) : seqStep cfg s = headerStep s := by
  simp [seqStep, h]

theorem seqStep_of_recv (cfg : Config) (s : State) (h : s.regs.ph = .recv) : seqStep cfg s = payloadStep s := by
  simp [seqStep, h]

theorem seqStep_of_rngw (cfg : Config) (s : State) (h : s.regs.ph = .rngw) : seqStep cfg s = entropyStep s := by
  simp [seqStep, h]

theorem seqStep_of_hashw (cfg : Config) (s : State) (h : s.regs.ph = .hashw) : seqStep cfg s = digestStep cfg s := by
  simp [seqStep, h]

theorem seqStep_of_emit (cfg : Config) (s : State) (h : s.regs.ph = .emit) : seqStep cfg s = emitStep s := by
  simp [seqStep, h]

/-- The sequencer's step on `s` agrees with its step on the same block beside agents that make the move `m` alone. -/
def StepsAsMove (cfg : Config) (m : PortMove) (s : State) : Prop :=
  (seqStep cfg { toBlock := s.toBlock, toAgents := agentsMaking m }).toBlock = (seqStep cfg s).toBlock

theorem portStep_of_stepsAsMove (cfg : Config) (m : PortMove) (s : State) (hfits : moveFits m s.regs.ph)
    (h : StepsAsMove cfg m s) : portStep cfg m s.toBlock = some (seqStep cfg s).toBlock :=
  (portStep_of_fits cfg m s.toBlock hfits).trans (congrArg some h)

theorem stepsAsMove_request_of_idle (cfg : Config) (s : State) (x : Beat) (rest : List Beat) (hph : s.regs.ph = .idle)
    (hq : s.reqQ = x :: rest) : StepsAsMove cfg (.request x) s := by
  rw [StepsAsMove, seqStep_of_idle cfg s hph, seqStep_of_idle cfg _ (by exact hph)]
  exact headerStep_toBlock_congr rfl x rfl hq

theorem stepsAsMove_request_of_recv (cfg : Config) (s : State) (x : Beat) (rest : List Beat) (hph : s.regs.ph = .recv)
    (hq : s.reqQ = x :: rest) : StepsAsMove cfg (.request x) s := by
  rw [StepsAsMove, seqStep_of_recv cfg s hph, seqStep_of_recv cfg _ (by exact hph)]
  exact payloadStep_toBlock_congr rfl x rfl hq

theorem stepsAsMove_entropy (cfg : Config) (s : State) (a : EntropyAnswer) (q : List EntropyAnswer)
    (hph : s.regs.ph = .rngw) (hq : s.entQ = a :: q) : StepsAsMove cfg (.entropy a) s := by
  rw [StepsAsMove, seqStep_of_rngw cfg s hph, seqStep_of_rngw cfg _ (by exact hph)]
  exact entropyStep_toBlock_congr rfl a rfl hq

theorem stepsAsMove_digest (cfg : Config) (s : State) (c : DigestChoice) (q : List DigestChoice)
    (hph : s.regs.ph = .hashw) (hq : s.digQ = c :: q) : StepsAsMove cfg (.digest c) s := by
  rw [StepsAsMove, seqStep_of_hashw cfg s hph, seqStep_of_hashw cfg _ (by exact hph)]
  exact digestStep_toBlock_congr cfg rfl c rfl hq

theorem stepsAsMove_accept (cfg : Config) (s : State) (hph : s.regs.ph = .emit) (hready : s.rspReady ≠ 0) :
    StepsAsMove cfg .accept s := by
  rw [StepsAsMove, seqStep_of_emit cfg s hph, seqStep_of_emit cfg _ (by exact hph)]
  exact emitStep_toBlock_congr rfl Nat.one_ne_zero hready

/-- An enabled core step has the choice its phase asks for among the agents' data, and is the step of that choice. -/
theorem exists_suppliedMove (cfg : Config) (s : State) (hr : s.rst = false) (he : coreEnabled s = true) :
    ∃ m : PortMove, suppliedMove s = some m ∧ moveFits m s.regs.ph ∧ StepsAsMove cfg m s := by
  cases hph : s.regs.ph with
  | idle =>
    obtain ⟨x, rest, hq⟩ := List.exists_cons_of_ne_nil (show s.reqQ ≠ [] by simpa [coreEnabled, hph] using he)
    exact ⟨.request x, by simp [suppliedMove, hr, hph, hq], Or.inl rfl, stepsAsMove_request_of_idle cfg s x rest hph hq⟩
  | recv =>
    obtain ⟨x, rest, hq⟩ := List.exists_cons_of_ne_nil (show s.reqQ ≠ [] by simpa [coreEnabled, hph] using he)
    exact ⟨.request x, by simp [suppliedMove, hr, hph, hq], Or.inr rfl, stepsAsMove_request_of_recv cfg s x rest hph hq⟩
  | rngw =>
    obtain ⟨a, q, hq⟩ := List.exists_cons_of_ne_nil (show s.entQ ≠ [] by simpa [coreEnabled, hph] using he)
    exact ⟨.entropy a, by simp [suppliedMove, hr, hph, hq], rfl, stepsAsMove_entropy cfg s a q hph hq⟩
  | hashw =>
    obtain ⟨c, q, hq⟩ := List.exists_cons_of_ne_nil (show s.digQ ≠ [] by simpa [coreEnabled, hph] using he)
    exact ⟨.digest c, by simp [suppliedMove, hr, hph, hq], rfl, stepsAsMove_digest cfg s c q hph hq⟩
  | emit =>
    have hready : s.rspReady ≠ 0 := by simpa [coreEnabled, hph] using he
    exact ⟨.accept, by simp [suppliedMove, hr, hph, hready], rfl, stepsAsMove_accept cfg s hph hready⟩

/-- Where the core waits, the agents' data hold no choice for its phase. -/
theorem suppliedMove_of_waiting (s : State) (hr : s.rst = false) (he : coreEnabled s = false) :
    suppliedMove s = none := by
  cases hph : s.regs.ph <;> simp_all [coreEnabled, suppliedMove]

/-- Settles O49, by the phase: each phase reads the head of one queue of the agents, and the rest of the step is a
function of the block. -/
theorem agentsSupplyTheParameters : Obligations.AgentsSupplyTheParameters := by
  intro cfg s
  refine ⟨fun hr => ⟨by simp [suppliedMove, hr], by rw [portStep_reset]; rfl⟩, fun hr he => ?_,
    suppliedMove_of_waiting s⟩
  obtain ⟨m, hm, hfits, hstep⟩ := exists_suppliedMove cfg s hr he
  exact ⟨m, hm, portStep_of_stepsAsMove cfg m s hfits hstep⟩

end Sys2Proof.Machine

/-! SUPPORT. Scope proofs, part 2: histories, and what it is to go on from a point of a trace to a consistent block. -/

namespace Sys2Proof.Machine

/-! Histories (R34) -/

/-- The events `evs` read from the point `p` of a trace: `traceRun` is this from `between`. -/
def traceFrom (cfg : Config) (p : TracePoint) (evs : List Event) : Option TracePoint :=
  evs.foldl (fun p e => p.bind fun q => traceNext cfg q e) (some p)

theorem traceFrom_between (cfg : Config) (log : List Event) : traceFrom cfg .between log = traceRun cfg log := rfl

@[simp] theorem traceFrom_nil (cfg : Config) (p : TracePoint) : traceFrom cfg p [] = some p := rfl

theorem traceFrom_cons {cfg : Config} {p q : TracePoint} {e : Event} (h : traceNext cfg p e = some q)
    (evs : List Event) : traceFrom cfg p (e :: evs) = traceFrom cfg q evs := by
  simp [traceFrom, h]

theorem traceFrom_append {cfg : Config} {p q : TracePoint} {evs : List Event} (h : traceFrom cfg p evs = some q)
    (evs' : List Event) : traceFrom cfg p (evs ++ evs') = traceFrom cfg q evs' := by
  simp only [traceFrom] at h ⊢
  rw [List.foldl_append, h]

/-- The points of R34's traces after which the response comes. -/
def AwaitsResponse (p : TracePoint) : Prop := p = .reqDone ∨ p = .drawFailed ∨ p = .digested

/-- The points of R34's traces at which a block with the registers `r` can stand. -/
def StandsAt (r : Regs) (p : TracePoint) : Prop :=
  match r.ph with
  | .idle => p = .between
  | .recv => p = .between
  | .rngw => p = .drawAsked r.el.toNat
  | .hashw => p = .digestAsked (entropyHeld r)
  | .emit => AwaitsResponse p

theorem standsAt_of_emit {r : Regs} (h : r.ph = .emit) (p : TracePoint) :
    StandsAt r p ↔ AwaitsResponse p := by
  simp [StandsAt, h]

theorem traceInv_iff (cfg : Config) (s : State) :
    TraceInv cfg s ↔ ∃ p, StandsAt s.regs p ∧ traceRun cfg s.log = some p := by
  cases h : s.regs.ph <;> simp [TraceInv, StandsAt, AwaitsResponse, h, or_and_right, exists_or]

theorem exists_standsAt (r : Regs) : ∃ p, StandsAt r p := by
  cases h : r.ph <;> simp [StandsAt, AwaitsResponse, h]

/-- From the point `p` of a trace, with the history `log`, the block comes to `s`: a consistent block, whose history
extends `log` by events that R34 allows after `p` and responses that R76 lists. -/
def Reaches (cfg : Config) (p : TracePoint) (log : List Event) (s : State) : Prop :=
  BlockInv s ∧ ∃ (evs : List Event) (q : TracePoint), s.log = log ++ evs ∧ (∀ g, .rsp g ∈ evs → legalResponse g) ∧
    traceFrom cfg p evs = some q ∧ StandsAt s.regs q

namespace Reaches

variable {cfg : Config} {p q : TracePoint} {log : List Event} {s t : State}

theorem blockInv (h : Reaches cfg p log s) : BlockInv s := h.1

/-- A consistent block reaches itself from where it stands. -/
theorem refl (hinv : BlockInv s) (hp : StandsAt s.regs p) : Reaches cfg p s.log s :=
  ⟨hinv, [], p, by simp, by simp, rfl, hp⟩

/-- One more event first. -/
theorem of_event {e : Event} (hnext : traceNext cfg p e = some q) (hlegal : ∀ g, e = .rsp g → legalResponse g)
    (h : Reaches cfg q (log ++ [e]) s) : Reaches cfg p log s := by
  obtain ⟨hinv, evs, r, hlog, hevs, htrace, hr⟩ := h
  refine ⟨hinv, e :: evs, r, by simp [hlog], fun g hg => ?_, (traceFrom_cons hnext evs).trans htrace, hr⟩
  rcases List.mem_cons.mp hg with he | hg
  · exact hlegal g he.symm
  · exact hevs g hg

/-- The block goes on from wherever it stands. -/
theorem trans (h : Reaches cfg p log s)
    (h' : ∀ q, BlockInv s → StandsAt s.regs q → Reaches cfg q s.log t) : Reaches cfg p log t := by
  obtain ⟨hinv, evs, q, hlog, hevs, htrace, hq⟩ := h
  obtain ⟨hinv', evs', q', hlog', hevs', htrace', hq'⟩ := h' q hinv hq
  refine ⟨hinv', evs ++ evs', q', by rw [hlog', hlog, List.append_assoc], fun g hg => ?_,
    (traceFrom_append htrace evs').trans htrace', hq'⟩
  exact (List.mem_append.mp hg).elim (hevs g) (hevs' g)

theorem traceInv (hlog : traceRun cfg log = some p) (h : Reaches cfg p log s) : TraceInv cfg s := by
  obtain ⟨-, evs, q, hs, -, htrace, hq⟩ := h
  rw [traceInv_iff, hs, ← traceFrom_between]
  exact ⟨q, hq, (traceFrom_append hlog evs).trans htrace⟩

theorem responsesLegal (hlegal : ∀ g, .rsp g ∈ log → legalResponse g) (h : Reaches cfg p log s) : ResponsesLegal s := by
  obtain ⟨-, evs, -, hs, hevs, -, -⟩ := h
  intro g hg
  rw [hs] at hg
  exact (List.mem_append.mp hg).elim (hlegal g) (hevs g)

end Reaches

/-- Consistency speaks of the block alone. -/
theorem blockInv_congr {s t : State} (h : t.toBlock = s.toBlock) : BlockInv s → BlockInv t := by
  obtain ⟨b, a⟩ := s
  obtain ⟨b', a'⟩ := t
  obtain rfl : b' = b := h
  exact id

theorem reaches_of_toBlock_eq (cfg : Config) {p : TracePoint} {s t : State} (h : t.toBlock = s.toBlock)
    (hinv : BlockInv s) (hp : StandsAt s.regs p) : Reaches cfg p s.log t := by
  have hregs : t.regs = s.regs := congrArg Block.regs h
  have hlog : t.log = s.log := congrArg Block.log h
  rw [← hlog]
  exact .refl (blockInv_congr h hinv) (hregs ▸ hp)

/-! The invariant in each phase (R26, R30, R32, R33) -/

theorem blockInv_of_idle {s : State} (hph : s.regs.ph = .idle) :
    BlockInv s ↔ s.regs = Regs.zero ∧ s.reqSeen = [] ∧ s.rspSent = [] := by
  simp only [BlockInv, hph]

theorem blockInv_of_recv {s : State} (hph : s.regs.ph = .recv) :
    BlockInv s ↔ s.regs = frameRegs s.reqSeen ∧ s.reqSeen ≠ [] ∧ (∀ b ∈ s.reqSeen, b.last = false) ∧
      s.rspSent = [] := by
  simp only [BlockInv, hph]

theorem blockInv_of_rngw {s : State} (hph : s.regs.ph = .rngw) :
    BlockInv s ↔ s.regs = { genRegs 0 s.regs.str [] with ph := .rngw, el := s.regs.el } ∧
      legalStrength s.regs.str.toNat = true ∧ s.regs.el.toNat = s.regs.str.toNat / 8 ∧
      s.reqSeen = [] ∧ s.rspSent = [] := by
  simp only [BlockInv, hph]

/-- `HASHW`'s part of the invariant, less the phase and the frames in flight (R31, R33, R43). -/
structure DigestReady (r : Regs) : Prop where
  flags : r.ill = false ∧ r.bad = false ∧ r.ms = false
  response : r.rst = 0 ∧ r.rin = 0 ∧ r.ec = 0 ∧ r.hs = false
  operation : reservedOp r.opr = false
  entropy : legalEntropyBytes r.el.toNat = true
  words : r.opr = opDec ∨ r.opr = opVal → legalWordCount r.wc.toNat = true ∧ 3 * r.el.toNat = 4 * r.wc.toNat

theorem blockInv_of_hashw {s : State} (hph : s.regs.ph = .hashw) :
    BlockInv s ↔ DigestReady s.regs ∧ s.reqSeen = [] ∧ s.rspSent = [] := by
  simp only [BlockInv, hph]
  exact ⟨fun ⟨h1, h2, h3, h4, h5, h6, h7, h8, h9, h10, h11⟩ => ⟨⟨⟨h1, h2, h3⟩, ⟨h4, h5, h6, h7⟩, h8, h9, h10⟩, h11⟩,
    fun ⟨⟨⟨h1, h2, h3⟩, ⟨h4, h5, h6, h7⟩, h8, h9, h10⟩, h11⟩ => ⟨h1, h2, h3, h4, h5, h6, h7, h8, h9, h10, h11⟩⟩

theorem blockInv_of_emit {s : State} (hph : s.regs.ph = .emit) :
    BlockInv s ↔ ResponseFits s.regs ∧ s.reqSeen = [] ∧
      (if s.regs.hs then s.regs.ec.toNat < (responsePayload s.regs).length else s.regs.ec = 0) ∧
      s.rspSent = (responseFrame s.regs).take (sentCount s.regs) := by
  simp only [BlockInv, hph, sentCount]

/-! The three ways out of a frame's checks: a response, a digest request, an entropy request -/

/-- A finished operation whose response fits stands at the start of its response (R35). -/
theorem reaches_finish (cfg : Config) (p : TracePoint) (s : State) (status : BitVec 4) (info : BitVec 8)
    (hp : AwaitsResponse p) (hseen : s.reqSeen = [])
    (hfits : ResponseFits (finish s status info).regs) : Reaches cfg p s.log (finish s status info) :=
  .refl (s := finish s status info) ((blockInv_of_emit rfl).mpr ⟨hfits, hseen, rfl, rfl⟩) hp

/-- A digest request, for the bytes of the operation or for the bytes drawn (R31, R32, R34). -/
theorem reaches_askDigest (cfg : Config) (p : TracePoint) (s : State)
    (hp : p = .reqDone ∨ p = .drawn (entropyHeld s.regs)) (hseen : s.reqSeen = []) (hsent : s.rspSent = []) (hready : DigestReady s.regs) :
    Reaches cfg p s.log (askDigest s) := by
  have hnext : traceNext cfg p (.dreq (entropyHeld s.regs)) = some (.digestAsked (entropyHeld s.regs)) := by
    rcases hp with rfl | rfl <;> simp [traceNext]
  refine .of_event hnext nofun (.refl (s := askDigest s) ?_ rfl)
  exact (blockInv_of_hashw (s := askDigest s) rfl).mpr
    ⟨⟨hready.flags, hready.response, hready.operation, hready.entropy, hready.words⟩, hseen, hsent⟩

/-- An entropy request (R31, R44). -/
theorem reaches_askEntropy (cfg : Config) (s : State) (hseen : s.reqSeen = []) (hsent : s.rspSent = [])
    (hregs : s.regs = { genRegs 0 s.regs.str [] with ph := s.regs.ph, el := s.regs.el })
    (hstr : legalStrength s.regs.str.toNat = true) (hel : s.regs.el.toNat = s.regs.str.toNat / 8) :
    Reaches cfg .reqDone s.log (askEntropy s) := by
  refine .of_event (e := .ereq s.regs.el.toNat) (q := .drawAsked s.regs.el.toNat) rfl nofun
    (.refl (s := askEntropy s) ?_ rfl)
  refine (blockInv_of_rngw (s := askEntropy s) rfl).mpr ⟨?_, hstr, hel, hseen, hsent⟩
  exact congrArg (fun r : Regs => { r with ph := .rngw }) hregs

end Sys2Proof.Machine

/-! SUPPORT. Scope proofs, part 3: the registers a whole frame loads, and the dispatch every frame goes through (R29 to
R31), received beat by beat or taken at once. -/

namespace Sys2Proof.Machine

/-! Opcodes -/

/-- The operations that take tokens take no bytes and no strength (R68). -/
theorem token_op_ne {op : BitVec 4} (h : op = opDec ∨ op = opVal) : op ≠ opEnc ∧ op ≠ opGen := by
  rcases h with rfl | rfl <;> decide

/-- An opcode that is neither reserved nor `ENC` nor `GEN` takes tokens (R68). -/
theorem token_op_of_not_reserved {op : BitVec 4} (h : reservedOp op = false) (henc : op ≠ opEnc) (hgen : op ≠ opGen) :
    op = opDec ∨ op = opVal := by
  revert op; decide

/-! What the registers hold when a frame ends -/

/-- The registers a whole frame leaves for dispatch: `ILL` says whether the opcode is reserved, the response registers
are zero, only tokens set `MS`, and a clean `GEN` frame has loaded nothing but its strength. -/
structure FrameLoaded (r : Regs) : Prop where
  ill : r.ill = reservedOp r.opr
  response : r.rst = 0 ∧ r.rin = 0 ∧ r.ec = 0 ∧ r.hs = false
  miss : r.opr = opEnc → r.ms = false
  gen : r.opr = opGen → r.bad = false → r = { genRegs 0 r.str [] with ph := r.ph }

theorem FrameLoaded.withPhase {r : Regs} (h : FrameLoaded r) (ph : Phase) : FrameLoaded { r with ph := ph } :=
  ⟨h.ill, h.response, h.miss, fun hop hbad => congrArg (fun r : Regs => { r with ph := ph }) (h.gen hop hbad)⟩

theorem frameLoaded_latchHeader (h : Half) : FrameLoaded (latchHeader h Regs.zero) := by
  refine ⟨by simp [latchHeader], ⟨rfl, rfl, rfl, rfl⟩, fun _ => rfl, fun hop hbad => ?_⟩
  have hop' : opField h = opGen := hop
  have hbad' : headerBad h = false := by simpa [latchHeader] using hbad
  simp [latchHeader, genRegs, genBad, hop', hbad']
  decide

@[simp] theorem latchPayload_ph (p : Half) (r : Regs) : (latchPayload p r).ph = r.ph := by
  unfold latchPayload; split_ifs <;> rfl

theorem FrameLoaded.latchPayload {r : Regs} (h : FrameLoaded r) (p : Half) : FrameLoaded (latchPayload p r) := by
  unfold Machine.latchPayload
  by_cases hill : r.ill
  · rwa [if_pos hill]
  rw [if_neg hill]
  by_cases henc : r.opr = opEnc
  · rw [if_pos henc]
    exact ⟨h.ill, h.response, h.miss, fun hop => absurd (henc.symm.trans hop) (by decide)⟩
  rw [if_neg henc]
  by_cases htok : r.opr = opDec ∨ r.opr = opVal
  · rw [if_pos htok]
    exact ⟨h.ill, h.response, fun hop => absurd hop henc, fun hop => absurd hop (token_op_ne htok).2⟩
  · rw [if_neg htok]
    exact ⟨h.ill, h.response, h.miss, fun _ => nofun⟩

/-- One more beat of a frame is latched by the payload step (R30). -/
theorem frameRegs_snoc (bs : List Beat) (b : Beat) (h : bs ≠ []) :
    frameRegs (bs ++ [b]) = latchPayload b.data (frameRegs bs) := by
  obtain ⟨x, xs, rfl⟩ := List.exists_cons_of_ne_nil h
  simp [frameRegs]

theorem frameRegs_loaded (bs : List Beat) (h : bs ≠ []) : FrameLoaded (frameRegs bs) := by
  induction bs using List.reverseRecOn with
  | nil => exact absurd rfl h
  | append_singleton bs b ih =>
    by_cases hbs : bs = []
    · subst hbs
      exact (frameLoaded_latchHeader b.data).withPhase .recv
    · rw [frameRegs_snoc bs b hbs]
      exact (ih hbs).latchPayload b.data

/-! Dispatch (R31) -/

theorem responseFits_raise (s : State) (c : Cause) (h : causeFits s.regs.opr c = true) :
    ResponseFits (raise s c).regs :=
  .inr (.inr (.inr (.inr ⟨rfl, c, h, rfl⟩)))

theorem responseFits_noValue (s : State) (h : s.regs.opr = opDec ∨ s.regs.opr = opVal) :
    ResponseFits (noValue s).regs :=
  .inr (.inr (.inr (.inl ⟨rfl, h, rfl⟩)))

theorem reaches_raise (cfg : Config) (p : TracePoint) (s : State) (c : Cause)
    (hp : AwaitsResponse p) (hseen : s.reqSeen = [])
    (hc : causeFits s.regs.opr c = true) : Reaches cfg p s.log (raise s c) :=
  reaches_finish cfg p s _ _ hp hseen (responseFits_raise s c hc)

theorem reaches_noValue (cfg : Config) (p : TracePoint) (s : State)
    (hp : AwaitsResponse p) (hseen : s.reqSeen = [])
    (hop : s.regs.opr = opDec ∨ s.regs.opr = opVal) : Reaches cfg p s.log (noValue s) :=
  reaches_finish cfg p s _ _ hp hseen (responseFits_noValue s hop)

/-- The byte count that a legal number of indices reconstructs to (R124, R127). -/
theorem reconstruct_el {n : Nat} (h : legalWordCount n = true) :
    legalEntropyBytes (BitVec.ofNat 6 (splitPoint n / 8)).toNat = true ∧
      3 * (BitVec.ofNat 6 (splitPoint n / 8)).toNat = 4 * n := by
  rcases legalWordCount_cases h with rfl | rfl | rfl | rfl | rfl <;> decide

theorem indicesHeld_length (r : Regs) (h : legalWordCount r.wc.toNat = true) : (indicesHeld r).length = r.wc.toNat := by
  have : r.wc.toNat ≤ 24 := by rcases legalWordCount_cases h with h | h | h | h | h <;> omega
  simpa [indicesHeld] using this

theorem digestReady_reconstruct {r : Regs} (h : FrameLoaded r) (hill : r.ill = false) (hbad : r.bad = false)
    (hms : r.ms = false) (hwc : legalWordCount r.wc.toNat = true) : DigestReady (reconstruct (indicesHeld r) r) := by
  obtain ⟨hel, hwords⟩ := reconstruct_el hwc
  rw [← indicesHeld_length r hwc] at hel hwords
  refine ⟨⟨hill, hbad, hms⟩, h.response, h.ill.symm.trans hill, hel, fun _ => ⟨hwc, ?_⟩⟩
  exact hwords.trans (by rw [indicesHeld_length r hwc]; rfl)

/-- The byte count of a legal strength (R105). -/
theorem strength_bytes {n : Nat} (h : legalStrength n = true) :
    (BitVec.ofNat 6 (n / 8)).toNat = n / 8 ∧ legalEntropyBytes (n / 8) = true := by
  rcases legalStrength_cases h with rfl | rfl | rfl | rfl | rfl <;> decide

/-- `ENC` after its checks asks for the digest of the bytes it holds (R31, R91). -/
theorem digestReady_enc {r : Regs} (h : FrameLoaded r) (hill : r.ill = false) (hbad : r.bad = false)
    (hop : r.opr = opEnc) (hel : legalEntropyBytes r.el.toNat = true) : DigestReady r := by
  exact ⟨⟨hill, hbad, h.miss hop⟩, h.response, h.ill.symm.trans hill, hel, fun htok => absurd hop (token_op_ne htok).1⟩

/-- `GEN` after its checks asks for the bytes of its strength (R31, R105). -/
theorem reaches_askEntropy_gen (cfg : Config) (s : State) (h : FrameLoaded s.regs) (hseen : s.reqSeen = [])
    (hsent : s.rspSent = []) (hbad : s.regs.bad = false) (hop : s.regs.opr = opGen)
    (hstr : legalStrength s.regs.str.toNat = true) :
    Reaches cfg .reqDone s.log
      (askEntropy { s with regs := { s.regs with el := BitVec.ofNat 6 (s.regs.str.toNat / 8) } }) := by
  refine reaches_askEntropy cfg { s with regs := { s.regs with el := BitVec.ofNat 6 (s.regs.str.toNat / 8) } }
    hseen hsent ?_ hstr (strength_bytes hstr).1
  exact congrArg (fun r : Regs => { r with el := BitVec.ofNat 6 (s.regs.str.toNat / 8) }) (h.gen hop hbad)

/-- Dispatch of a whole frame, check by check: a fault or NOVALUE that fits the opcode, or the request of the operation
(R31, R34). -/
theorem reaches_dispatch (cfg : Config) (s : State) (h : FrameLoaded s.regs) (hseen : s.reqSeen = [])
    (hsent : s.rspSent = []) : Reaches cfg .reqDone s.log (dispatch s) := by
  have faults (c : Cause) (hc : causeFits s.regs.opr c = true) : Reaches cfg .reqDone s.log (raise s c) :=
    reaches_raise cfg .reqDone s c (.inl rfl) hseen hc
  have hop (hill : ¬ s.regs.ill = true) : reservedOp s.regs.opr = false := h.ill.symm.trans (by simpa using hill)
  unfold dispatch
  simp only
  split_ifs with hill hbad henc hea hel hgen hstr hwords
  · exact faults .illegalOp (h.ill.symm.trans hill)
  · exact faults .illegalFrame (by simp [causeFits, hop hill])
  · exact faults .entropyUnaligned (by simp [causeFits, henc])
  · exact reaches_askDigest cfg _ s (.inl rfl) hseen hsent
      (digestReady_enc h (by simpa using hill) (by simpa using hbad) henc hel)
  · exact faults .entropyLength (by simp [causeFits, henc])
  · exact reaches_askEntropy_gen cfg s h hseen hsent (by simpa using hbad) hgen hstr
  · exact faults .badStrength (by simp [causeFits, hgen])
  · exact reaches_noValue cfg .reqDone s (.inl rfl) hseen (token_op_of_not_reserved (hop hill) henc hgen)
  · obtain ⟨hwc, hms⟩ := not_or.mp hwords
    exact reaches_askDigest cfg _ { s with regs := reconstruct (indicesHeld s.regs) s.regs } (.inl rfl) hseen hsent
      (digestReady_reconstruct h (by simpa using hill) (by simpa using hbad) (by simpa using hms) (not_not.mp hwc))

/-- A frame that ends and is dispatched: its event, then what dispatch does (R29, R30, R34). -/
theorem reaches_dispatch_of_frame (cfg : Config) (s : State) (f : List Beat) (h : FrameLoaded s.regs)
    (hsent : s.rspSent = []) :
    Reaches cfg .between s.log (dispatch { s with reqSeen := [], log := s.log ++ [.req f] }) :=
  .of_event (e := .req f) rfl nofun
    (reaches_dispatch cfg { s with reqSeen := [], log := s.log ++ [.req f] } h rfl hsent)

/-! Receiving beat by beat (R29, R30) -/

/-- After a beat of a frame whose beats so far leave the registers `r`: the frame is dispatched, or goes on. -/
theorem reaches_afterBeat (cfg : Config) (s : State) (b : Beat) (hloaded : FrameLoaded s.regs)
    (hregs : { s.regs with ph := .recv } = frameRegs (s.reqSeen ++ [b])) (hopen : ∀ x ∈ s.reqSeen, x.last = false)
    (hsent : s.rspSent = []) : Reaches cfg .between s.log (afterBeat b s) := by
  unfold afterBeat
  by_cases hlast : b.last = true
  · simp only [hlast, if_true]
    exact reaches_dispatch_of_frame cfg s _ hloaded hsent
  · simp only [hlast, if_false, Bool.false_eq_true]
    refine .refl (s := { s with reqSeen := s.reqSeen ++ [b], regs := { s.regs with ph := .recv } }) ?_ rfl
    refine (blockInv_of_recv rfl).mpr ⟨hregs, by simp, fun x hx => ?_, hsent⟩
    rcases List.mem_append.mp hx with hx | hx
    · exact hopen x hx
    · rw [List.mem_singleton.mp hx]; simpa using hlast

theorem reaches_headerStep (cfg : Config) (s : State) (hph : s.regs.ph = .idle) (hinv : BlockInv s) :
    Reaches cfg .between s.log (headerStep s) := by
  obtain ⟨hregs, hseen, hsent⟩ := (blockInv_of_idle hph).mp hinv
  cases hq : s.reqQ with
  | nil =>
    rw [show headerStep s = s by simp [headerStep, hq]]
    exact .refl hinv (by simp [StandsAt, hph])
  | cons b rest =>
    rw [headerStep_of_offer s b rest hq]
    refine reaches_afterBeat cfg { s with reqQ := rest, regs := latchHeader b.data s.regs } b ?_ ?_ ?_ hsent
    · simpa [hregs] using frameLoaded_latchHeader b.data
    · simp [hregs, hseen, frameRegs]
    · simp [hseen]

theorem reaches_payloadStep (cfg : Config) (s : State) (hph : s.regs.ph = .recv) (hinv : BlockInv s) :
    Reaches cfg .between s.log (payloadStep s) := by
  obtain ⟨hregs, hne, hopen, hsent⟩ := (blockInv_of_recv hph).mp hinv
  cases hq : s.reqQ with
  | nil =>
    rw [show payloadStep s = s by simp [payloadStep, hq]]
    exact .refl hinv (by simp [StandsAt, hph])
  | cons b rest =>
    rw [payloadStep_of_offer s b rest hq]
    refine reaches_afterBeat cfg { s with reqQ := rest, regs := latchPayload b.data s.regs } b ?_ ?_ hopen hsent
    · rw [hregs]; exact (frameRegs_loaded s.reqSeen hne).latchPayload b.data
    · have hph' : (latchPayload b.data s.regs).ph = .recv := (latchPayload_ph b.data s.regs).trans hph
      calc { latchPayload b.data s.regs with ph := .recv }
        _ = latchPayload b.data s.regs := by rw [← hph']
        _ = frameRegs (s.reqSeen ++ [b]) := by rw [frameRegs_snoc s.reqSeen b hne, ← hregs]

end Sys2Proof.Machine

/-! SUPPORT. Scope proofs, part 4: the two waits and the response (R32, R33, R35), each from where the block stands. -/

namespace Sys2Proof.Machine

/-! The entropy wait (R32) -/

/-- The registers a draw leaves are ready for its digest. -/
theorem digestReady_draw {r : Regs} (hregs : r = { genRegs 0 r.str [] with ph := .rngw, el := r.el })
    (hstr : legalStrength r.str.toNat = true) (hel : r.el.toNat = r.str.toNat / 8) (eb : Vector Byte 32) :
    DigestReady { r with eb := eb } := by
  have hop : r.opr = opGen := congrArg Regs.opr hregs
  exact ⟨⟨congrArg Regs.ill hregs, congrArg Regs.bad hregs, congrArg Regs.ms hregs⟩,
    ⟨congrArg Regs.rst hregs, congrArg Regs.rin hregs, congrArg Regs.ec hregs, congrArg Regs.hs hregs⟩,
    by simp [hop, reservedOp], hel ▸ (strength_bytes hstr).2, fun htok => absurd hop (token_op_ne htok).2⟩

theorem reaches_entropyStep (cfg : Config) (s : State) (hph : s.regs.ph = .rngw) (hinv : BlockInv s) :
    Reaches cfg (.drawAsked s.regs.el.toNat) s.log (entropyStep s) := by
  obtain ⟨hregs, hstr, hel, hseen, hsent⟩ := (blockInv_of_rngw hph).mp hinv
  cases hq : s.entQ with
  | nil =>
    rw [show entropyStep s = s by simp [entropyStep, hq]]
    exact .refl hinv (by simp [StandsAt, hph])
  | cons a q =>
    cases a with
    | err =>
      have hop : s.regs.opr = opGen := congrArg Regs.opr hregs
      rw [entropyStep_of_err s q hq]
      exact .of_event (e := .ersp none) (q := .drawFailed) rfl nofun
        (reaches_raise cfg _ { s with entQ := q, log := s.log ++ [.ersp none] } _ (.inr (.inl rfl)) hseen
          (by simp [causeFits, hop]))
    | ok draw =>
      have hle : s.regs.el.toNat ≤ 32 := by
        rcases legalStrength_cases hstr with h | h | h | h | h <;> omega
      have hlen : (draw.toList.take s.regs.el.toNat).length = s.regs.el.toNat := by simpa using hle
      have hheld := entropyHeld_fill s.regs _ (hlen.trans_le hle) hlen.symm
      rw [entropyStep_of_ok s draw q hq]
      refine .of_event (e := .ersp (some (draw.toList.take s.regs.el.toNat)))
        (q := .drawn (draw.toList.take s.regs.el.toNat)) (if_pos hlen) nofun
        (reaches_askDigest cfg _ { s with
          entQ := q
          log := s.log ++ [.ersp (some (draw.toList.take s.regs.el.toNat))]
          regs := { s.regs with eb := fill s.regs.eb (draw.toList.take s.regs.el.toNat) } }
          (.inr ?_) hseen hsent (digestReady_draw hregs hstr hel _))
      rw [hheld]

/-! The digest wait (R33) -/

/-- The number of indices of a legal byte count (R90). -/
theorem words_of_bytes {l : Nat} (h : legalEntropyBytes l = true) :
    legalWordCount (BitVec.ofNat 5 (3 * l / 4)).toNat = true ∧
      BitVec.ofNat 8 (3 * l / 4) = (BitVec.ofNat 5 (3 * l / 4)).setWidth 8 := by
  rcases legalEntropyBytes_cases h with rfl | rfl | rfl | rfl | rfl <;> decide

/-- An answered request concludes in a response that fits the opcode. -/
theorem reaches_concludeDigest (cfg : Config) (s : State) (hready : DigestReady s.regs) (hseen : s.reqSeen = []) :
    Reaches cfg .digested s.log (concludeDigest s) := by
  by_cases hwords : s.regs.opr = opEnc ∨ s.regs.opr = opGen
  · obtain ⟨hwc, hinfo⟩ := words_of_bytes hready.entropy
    rw [concludeDigest_words s hwords]
    exact reaches_finish cfg .digested { s with regs := { s.regs with
      wb := fill s.regs.wb (wordsOf (entropyHeld s.regs) s.regs.dg)
      wc := BitVec.ofNat 5 (3 * s.regs.el.toNat / 4) } } _ _ (.inr (.inr rfl)) hseen (.inl ⟨rfl, hwords, hwc, hinfo⟩)
  obtain ⟨henc, hgen⟩ := not_or.mp hwords
  have htok := token_op_of_not_reserved hready.operation henc hgen
  by_cases hsum : uint (checksumBits (s.regs.el.toNat / 4) s.regs.dg) = s.regs.ck.toNat
  · rcases htok with hdec | hval
    · rw [concludeDigest_bytes s hdec hsum]
      exact reaches_finish cfg .digested s _ _ (.inr (.inr rfl)) hseen (.inr (.inl ⟨rfl, hdec, hready.entropy, rfl⟩))
    · rw [concludeDigest_valid s hval hsum]
      exact reaches_finish cfg .digested s _ _ (.inr (.inr rfl)) hseen (.inr (.inr (.inl ⟨rfl, hval, rfl⟩)))
  · rw [concludeDigest_mismatch s htok hsum]
    exact reaches_noValue cfg .digested s (.inr (.inr rfl)) hseen htok

theorem reaches_digestStep (cfg : Config) (s : State) (hph : s.regs.ph = .hashw) (hinv : BlockInv s) :
    Reaches cfg (.digestAsked (entropyHeld s.regs)) s.log (digestStep cfg s) := by
  obtain ⟨hready, hseen, -⟩ := (blockInv_of_hashw hph).mp hinv
  cases hq : s.digQ with
  | nil =>
    rw [show digestStep cfg s = s by simp [digestStep, hq]]
    exact .refl hinv (by simp [StandsAt, hph])
  | cons c q =>
    cases c with
    | err =>
      rw [digestStep_of_err cfg s q hq]
      exact .of_event (e := .drsp none) (q := .digested) rfl nofun
        (reaches_raise cfg _ { s with digQ := q, log := s.log ++ [.drsp none] } _ (.inr (.inr rfl)) hseen
          (by simp [causeFits, hready.operation]))
    | ok =>
      rw [digestStep_of_ok cfg s q hq]
      exact .of_event (e := .drsp (some (cfg.sha256 (entropyHeld s.regs)).toList)) (q := .digested) (if_pos rfl) nofun
        (reaches_concludeDigest cfg { s with
          digQ := q
          log := s.log ++ [.drsp (some (cfg.sha256 (entropyHeld s.regs)).toList)]
          regs := { s.regs with dg := cfg.sha256 (entropyHeld s.regs) } }
        ⟨hready.flags, hready.response, hready.operation, hready.entropy, hready.words⟩ hseen)

/-! The response (R35, R76) -/

theorem responsePayload_words {r : Regs} (hst : r.rst = statusOk) (hop : r.opr = opEnc ∨ r.opr = opGen) :
    responsePayload r = (indicesHeld r).map (BitVec.setWidth 16) := if_pos ⟨hst, hop⟩

theorem responsePayload_bytes {r : Regs} (hst : r.rst = statusOk) (hop : r.opr = opDec) :
    responsePayload r = (entropyHeld r).map (BitVec.setWidth 16) := by
  have h1 : ¬ (opDec = opEnc ∨ opDec = opGen) := by decide
  simp [responsePayload, hst, hop, h1]

theorem responsePayload_valid {r : Regs} (hop : r.opr = opVal) : responsePayload r = [] := by
  have h1 : ¬ (opVal = opEnc ∨ opVal = opGen) := by decide
  have h2 : opVal ≠ opDec := by decide
  simp [responsePayload, hop, h1, h2]

/-- The beats of a payload made of narrower words are below their bound (R71). -/
theorem toNat_lt_of_mem_map_setWidth {n : Nat} (hn : n ≤ 16) (xs : List (BitVec n)) (p : Half)
    (hp : p ∈ xs.map (BitVec.setWidth 16)) : p.toNat < 2 ^ n := by
  obtain ⟨x, -, rfl⟩ := List.mem_map.mp hp
  rw [BitVec.toNat_setWidth_of_le hn]
  exact x.isLt

/-- A response that fits its registers is one of R76. -/
theorem responseFrame_legal {r : Regs} (h : ResponseFits r) : legalResponse (responseFrame r) := by
  refine ⟨r.opr, r.rst, r.rin, responsePayload r, rfl, ?_⟩
  rcases h with ⟨hst, hop, hwc, hrin⟩ | ⟨hst, hop, hel, hrin⟩ | ⟨hst, hop, hrin⟩ | ⟨hst, hop, hrin⟩ | ⟨hst, c, hc, hrin⟩
  · have hlen : (responsePayload r).length = r.wc.toNat := by
      rw [responsePayload_words hst hop, List.length_map, indicesHeld_length r hwc]
    refine .inl ⟨hst, hop, hlen ▸ hwc, ?_, fun p hp => ?_⟩
    · rw [hrin, hlen, BitVec.toNat_setWidth_of_le (by decide)]
    · rw [responsePayload_words hst hop] at hp
      exact toNat_lt_of_mem_map_setWidth (by decide) _ p hp
  · have hle : r.el.toNat ≤ 32 := by rcases legalEntropyBytes_cases hel with h | h | h | h | h <;> omega
    have hlen : (responsePayload r).length = r.el.toNat := by
      rw [responsePayload_bytes hst hop, List.length_map, entropyHeld_length r hle]
    refine .inr (.inl ⟨hst, hop, hlen ▸ hel, ?_, fun p hp => ?_⟩)
    · rw [hrin, hlen, BitVec.toNat_setWidth_of_le (by decide)]
    · rw [responsePayload_bytes hst hop] at hp
      exact toNat_lt_of_mem_map_setWidth (by decide) _ p hp
  · exact .inr (.inr (.inl ⟨hst, hop, hrin, responsePayload_valid hop⟩))
  · exact .inr (.inr (.inr (.inl ⟨hst, hop, hrin, responsePayload_of_status r (by rw [hst]; decide)⟩)))
  · exact .inr (.inr (.inr (.inr ⟨hst, responsePayload_of_status r (by rw [hst]; decide), c, hc, hrin⟩)))

/-- `s` sends the response that the registers `r` describe, and `k` of its beats are sent (R35). -/
structure Sending (s : State) (r : Regs) (k : Nat) : Prop where
  start : r.ph = .emit ∧ r.hs = false ∧ r.ec = 0
  fits : ResponseFits r
  regs : s.regs = regsAt r k
  count : k ≤ (responsePayload r).length
  seen : s.reqSeen = []
  sent : s.rspSent = (responseFrame r).take k

/-- The registers before the first beat of the response that `r` is sending. -/
def responseStart (r : Regs) : Regs := { r with hs := false, ec := 0 }

theorem regs_eq_regsAt {r : Regs} (h : r.hs = false → r.ec = 0) : r = regsAt (responseStart r) (sentCount r) := by
  rcases r with ⟨ph, opr, str, eb, el, ea, wb, wc, ck, dg, ill, bad, ms, rst, rin, ec, hs⟩
  cases hs with
  | false => simpa [sentCount, regsAt, responseStart] using h
  | true => simp [sentCount, regsAt, responseStart]

theorem sending_of_blockInv {s : State} (hph : s.regs.ph = .emit) (hinv : BlockInv s) :
    Sending s (responseStart s.regs) (sentCount s.regs) := by
  obtain ⟨hfits, hseen, hcount, hsent⟩ := (blockInv_of_emit hph).mp hinv
  refine ⟨⟨hph, rfl, rfl⟩, hfits, regs_eq_regsAt fun hhs => ?_, ?_, hseen, hsent⟩
  · simpa [hhs] using hcount
  · change sentCount s.regs ≤ (responsePayload s.regs).length
    unfold sentCount
    split_ifs at hcount ⊢
    · exact hcount
    · exact Nat.zero_le _

theorem Sending.ph {s : State} {r : Regs} {k : Nat} (h : Sending s r k) : s.regs.ph = .emit := by
  rw [h.regs, regsAt_ph]; exact h.start.1

theorem Sending.blockInv {s : State} {r : Regs} {k : Nat} (h : Sending s r k) : BlockInv s := by
  obtain ⟨-, hhs, hec⟩ := h.start
  have hle := responsePayload_length_le r
  have hcount := h.count
  rw [blockInv_of_emit h.ph, h.regs, responseFrame_regsAt, responsePayload_regsAt, h.sent]
  cases k with
  | zero => simp [regsAt, sentCount, hhs, hec, h.fits, h.seen]
  | succ k =>
    have hmod : k % 64 = k := Nat.mod_eq_of_lt (by omega)
    refine ⟨h.fits, h.seen, ?_, ?_⟩
    · simpa [regsAt, hmod] using hcount
    · simp [regsAt, sentCount, hmod]

/-- The host's acceptance of a beat moves the response on, or ends the frame with a response of R76 in the history. -/
theorem reaches_sendBeat (cfg : Config) (p : TracePoint) (s : State) (hph : s.regs.ph = .emit) (hinv : BlockInv s)
    (hp : AwaitsResponse p) : Reaches cfg p s.log (sendBeat s) := by
  have h := sending_of_blockInv hph hinv
  rw [sendBeat_regsAt s _ _ rfl h.regs h.count h.sent]
  split_ifs with hlast
  · have hnext : traceNext cfg p (.rsp (responseFrame (responseStart s.regs))) = some .between := by
      rcases hp with rfl | rfl | rfl <;> rfl
    refine .of_event hnext ?_ (.refl (s := { s with
      regs := Regs.zero, rspReady := s.rspReady - 1, rspSent := []
      log := s.log ++ [.rsp (responseFrame (responseStart s.regs))] }) ⟨rfl, h.seen, rfl⟩ rfl)
    rintro g ⟨⟩
    exact responseFrame_legal h.fits
  · have h' : Sending { s with
        regs := regsAt (responseStart s.regs) (sentCount s.regs + 1), rspReady := s.rspReady - 1
        rspSent := (responseFrame (responseStart s.regs)).take (sentCount s.regs + 1) }
        (responseStart s.regs) (sentCount s.regs + 1) :=
      ⟨h.start, h.fits, rfl, by have := h.count; omega, h.seen, rfl⟩
    exact .refl h'.blockInv ((standsAt_of_emit h'.ph p).mpr hp)

theorem reaches_emitStep (cfg : Config) (p : TracePoint) (s : State) (hph : s.regs.ph = .emit) (hinv : BlockInv s)
    (hp : AwaitsResponse p) : Reaches cfg p s.log (emitStep s) := by
  by_cases hready : s.rspReady = 0
  · rw [show emitStep s = s from if_pos hready]
    exact .refl hinv ((standsAt_of_emit hph p).mpr hp)
  · rw [emitStep_of_ready s hready]
    exact reaches_sendBeat cfg p s hph hinv hp

end Sys2Proof.Machine

/-! SUPPORT. Scope proofs, part 5: a step of the machine under any configuration, from a consistent block. -/

namespace Sys2Proof.Machine

/-- A step of the sequencer, in any phase (R29 to R35). -/
theorem reaches_seqStep (cfg : Config) (p : TracePoint) (s : State) (hinv : BlockInv s) (hp : StandsAt s.regs p) :
    Reaches cfg p s.log (seqStep cfg s) := by
  cases hph : s.regs.ph with
  | idle =>
    obtain rfl : p = .between := by simpa [StandsAt, hph] using hp
    exact seqStep_of_idle cfg s hph ▸ reaches_headerStep cfg s hph hinv
  | recv =>
    obtain rfl : p = .between := by simpa [StandsAt, hph] using hp
    exact seqStep_of_recv cfg s hph ▸ reaches_payloadStep cfg s hph hinv
  | rngw =>
    obtain rfl : p = .drawAsked s.regs.el.toNat := by simpa [StandsAt, hph] using hp
    exact seqStep_of_rngw cfg s hph ▸ reaches_entropyStep cfg s hph hinv
  | hashw =>
    obtain rfl : p = .digestAsked (entropyHeld s.regs) := by simpa [StandsAt, hph] using hp
    exact seqStep_of_hashw cfg s hph ▸ reaches_digestStep cfg s hph hinv
  | emit => exact seqStep_of_emit cfg s hph ▸ reaches_emitStep cfg p s hph hinv ((standsAt_of_emit hph p).mp hp)

namespace Reaches

variable {cfg : Config} {p : TracePoint} {log : List Event} {s : State}

theorem seqStep (h : Reaches cfg p log s) : Reaches cfg p log (seqStep cfg s) :=
  h.trans fun q => reaches_seqStep cfg q s

theorem seqSteps (h : Reaches cfg p log s) (k : Nat) : Reaches cfg p log (seqSteps cfg k s) := by
  induction k generalizing s with
  | zero => exact h
  | succ k ih => exact ih h.seqStep

end Reaches

/-! What the core does beyond single steps of the sequencer is such steps too -/

theorem emitSteps_eq_seqSteps (cfg : Config) (n : Nat) (s : State) : ∃ k, emitSteps n s = seqSteps cfg k s := by
  induction n generalizing s with
  | zero => exact ⟨0, rfl⟩
  | succ n ih =>
    by_cases hph : s.regs.ph = .emit
    · obtain ⟨k, hk⟩ := ih (emitStep s)
      refine ⟨k + 1, ?_⟩
      rw [emitSteps, if_pos hph, hk, seqSteps, seqStep_of_emit cfg s hph]
    · exact ⟨0, emitSteps_of_not_emit _ s hph⟩

theorem seqSteps_add (cfg : Config) (k n : Nat) (s : State) :
    seqSteps cfg n (seqSteps cfg k s) = seqSteps cfg (k + n) s := by
  induction k generalizing s with
  | zero => simp [seqSteps]
  | succ k ih => rw [Nat.succ_add]; exact ih (seqStep cfg s)

/-- `settle` is some number of the sequencer's steps. -/
theorem settle_eq_seqSteps (cfg : Config) (s : State) : ∃ k, settle cfg s = seqSteps cfg k s := by
  have entropy (s : State) : ∃ k, (if s.regs.ph = .rngw then entropyStep s else s) = seqSteps cfg k s := by
    split_ifs with h
    · exact ⟨1, (seqStep_of_rngw cfg s h).symm⟩
    · exact ⟨0, rfl⟩
  have digest (s : State) : ∃ k, (if s.regs.ph = .hashw then digestStep cfg s else s) = seqSteps cfg k s := by
    split_ifs with h
    · exact ⟨1, (seqStep_of_hashw cfg s h).symm⟩
    · exact ⟨0, rfl⟩
  obtain ⟨k, hk⟩ := entropy s
  obtain ⟨k', hk'⟩ := digest (seqSteps cfg k s)
  obtain ⟨n, hn⟩ := emitSteps_eq_seqSteps cfg 33 (seqSteps cfg k' (seqSteps cfg k s))
  exact ⟨k + k' + n, by rw [settle, hk, hk', hn, seqSteps_add, seqSteps_add, Nat.add_assoc]⟩

theorem Reaches.settle {cfg : Config} {p : TracePoint} {log : List Event} {s : State} (h : Reaches cfg p log s) :
    Reaches cfg p log (settle cfg s) := by
  obtain ⟨k, hk⟩ := settle_eq_seqSteps cfg s
  exact hk ▸ h.seqSteps k

/-! Whole frames: an operation's meaning is dispatch on the registers its frame loads, then `settle` -/

/-- The registers an operation's whole frame loads (R92, R106, R128, R142). -/
def loadedRegs : Instr → Regs
  | .enc mbz bytes => encRegs mbz bytes
  | .dec mbz tokens => tokenRegs opDec mbz tokens
  | .val mbz tokens => tokenRegs opVal mbz tokens
  | .gen mbz strength extra => genRegs mbz strength extra

theorem encRegs_loaded (mbz : BitVec 12) (bytes : List ByteBeat) : FrameLoaded (encRegs mbz bytes) where
  ill := rfl
  response := ⟨rfl, rfl, rfl, rfl⟩
  miss _ := rfl
  gen hop := absurd (a := opEnc = opGen) hop (by decide)

theorem tokenRegs_loaded {op : BitVec 4} (hop : op = opDec ∨ op = opVal) (mbz : BitVec 12) (tokens : List TokenBeat) :
    FrameLoaded (tokenRegs op mbz tokens) where
  ill := by rcases hop with rfl | rfl <;> rfl
  response := ⟨rfl, rfl, rfl, rfl⟩
  miss h := absurd h (token_op_ne hop).1
  gen h := absurd h (token_op_ne hop).2

theorem genRegs_loaded (mbz : BitVec 3) (strength : BitVec 9) (extra : List Half) :
    FrameLoaded (genRegs mbz strength extra) where
  ill := rfl
  response := ⟨rfl, rfl, rfl, rfl⟩
  miss _ := rfl
  gen _ hbad := congrArg (fun b => { Regs.zero with opr := opGen, bad := b, str := strength })
    (show genBad mbz extra = false from hbad)

theorem loadedRegs_loaded (i : Instr) : FrameLoaded (loadedRegs i) := by
  cases i with
  | enc mbz bytes => exact encRegs_loaded mbz bytes
  | dec mbz tokens => exact tokenRegs_loaded (.inl rfl) mbz tokens
  | val mbz tokens => exact tokenRegs_loaded (.inr rfl) mbz tokens
  | gen mbz strength extra => exact genRegs_loaded mbz strength extra

theorem reservedRegs_loaded {op : BitVec 4} (h : reservedOp op = true) : FrameLoaded (reservedRegs op) where
  ill := h.symm
  response := ⟨rfl, rfl, rfl, rfl⟩
  miss _ := rfl
  gen hop := absurd h (by rw [show op = opGen from hop]; decide)

/-- Saturating the counter of entropy bytes loses no legal count and gains none (R95, R230). -/
theorem legalEntropyBytes_saturated (n : Nat) :
    legalEntropyBytes (BitVec.ofNat 6 (min n 33)).toNat = legalEntropyBytes n := by
  rw [BitVec.toNat_ofNat, Nat.mod_eq_of_lt (by omega), Bool.eq_iff_iff]
  simp only [legalEntropyBytes, List.contains_iff_mem, List.mem_cons, List.not_mem_nil, or_false]
  omega

/-- Saturating the word counter loses no legal count and gains none (R122, R230). -/
theorem legalWordCount_saturated (n : Nat) :
    legalWordCount (BitVec.ofNat 5 (min n 25)).toNat = legalWordCount n := by
  rw [BitVec.toNat_ofNat, Nat.mod_eq_of_lt (by omega), Bool.eq_iff_iff]
  simp only [legalWordCount, List.contains_iff_mem, List.mem_cons, List.not_mem_nil, or_false]
  omega

theorem ofNat_two_ne_zero_iff (n : Nat) : BitVec.ofNat 2 n ≠ 0 ↔ n % 4 ≠ 0 := by
  rw [ne_eq, ← BitVec.toNat_inj, BitVec.toNat_ofNat]
  rfl

/-- The checks of `ENC` on its operands are dispatch's on the registers they load (R31, R91). -/
theorem startEnc_eq_dispatch (mbz : BitVec 12) (bytes : List ByteBeat) (s : State) (h : s.regs = encRegs mbz bytes) :
    startEnc mbz bytes s = dispatch s := by
  have hill : s.regs.ill = false := by rw [h]; rfl
  have hbad : s.regs.bad = encBad mbz bytes := by rw [h]; rfl
  have hop : s.regs.opr = opEnc := by rw [h]; rfl
  have hea : s.regs.ea ≠ 0 ↔ bytes.length % 4 ≠ 0 := by rw [h]; exact ofNat_two_ne_zero_iff _
  have hel : legalEntropyBytes s.regs.el.toNat = legalEntropyBytes bytes.length := by
    rw [h]; exact legalEntropyBytes_saturated _
  simp only [startEnc, dispatch, hill, hbad, hop, hea, hel, Bool.false_eq_true, if_false, if_true]

/-- The checks of `DEC` and `VAL` on their tokens are dispatch's on the registers they load (R31, R121, R140). -/
theorem startTokens_eq_dispatch (op : BitVec 4) (hop : op = opDec ∨ op = opVal) (mbz : BitVec 12)
    (tokens : List TokenBeat) (s : State) (h : s.regs = tokenRegs op mbz tokens) :
    startTokens mbz tokens s = dispatch s := by
  have hill : s.regs.ill = false := by rw [h]; rfl
  have hbad : s.regs.bad = tokensBad mbz tokens := by rw [h]; rfl
  have hms : s.regs.ms = tokensMiss tokens := by rw [h]; rfl
  have henc : ¬ s.regs.opr = opEnc := by rw [h]; exact (token_op_ne hop).1
  have hgen : ¬ s.regs.opr = opGen := by rw [h]; exact (token_op_ne hop).2
  have hwc : legalWordCount s.regs.wc.toNat = legalWordCount tokens.length := by
    rw [h]; exact legalWordCount_saturated _
  have hheld (hl : legalWordCount tokens.length = true) : indicesHeld s.regs = tokens.map TokenBeat.idx := by
    rw [h]
    exact indicesHeld_tokenRegs op mbz tokens (by rcases legalWordCount_cases hl with h | h | h | h | h <;> omega)
  simp only [startTokens, dispatch, hill, hbad, hms, henc, hgen, hwc, Bool.false_eq_true, if_false]
  by_cases hl : legalWordCount tokens.length = true
  · simp only [hl, hheld hl, not_true_eq_false, if_false, false_or]
  · simp only [hl, Bool.false_eq_true, not_false_eq_true, if_true, true_or]

/-- The checks of `GEN` on its strength are dispatch's on the registers it loads (R31, R105). -/
theorem startGen_eq_dispatch (mbz : BitVec 3) (strength : BitVec 9) (extra : List Half) (s : State)
    (h : s.regs = genRegs mbz strength extra) : startGen mbz strength extra s = dispatch s := by
  have hill : s.regs.ill = false := by rw [h]; rfl
  have hbad : s.regs.bad = genBad mbz extra := by rw [h]; rfl
  have hop : s.regs.opr = opGen := by rw [h]; rfl
  have hstr : s.regs.str = strength := by rw [h]; rfl
  have henc : ¬ opGen = opEnc := by decide
  simp only [startGen, dispatch, hill, hbad, hop, hstr, henc, Bool.false_eq_true, if_false, if_true]

/-- An operation's meaning on an idle block is what a frame received beat by beat comes to: dispatch on the registers it
loads (R92, R106, R128, R142). -/
theorem execUnder_of_idle (cfg : Config) (i : Instr) (s : State) (h : s.regs.ph = .idle) :
    execUnder cfg i s = .next (settle cfg (dispatch (received (encode i) (loadedRegs i) s))) := by
  cases i with
  | enc mbz bytes =>
    simp only [execUnder, execEncUnder, whenIdle, if_pos h, loadedRegs]
    rw [startEnc_eq_dispatch mbz bytes _ rfl]
  | dec mbz tokens =>
    simp only [execUnder, execDecUnder, whenIdle, if_pos h, loadedRegs]
    rw [startTokens_eq_dispatch opDec (.inl rfl) mbz tokens _ rfl]
  | val mbz tokens =>
    simp only [execUnder, execValUnder, whenIdle, if_pos h, loadedRegs]
    rw [startTokens_eq_dispatch opVal (.inr rfl) mbz tokens _ rfl]
  | gen mbz strength extra =>
    simp only [execUnder, execGenUnder, whenIdle, if_pos h, loadedRegs]
    rw [startGen_eq_dispatch mbz strength extra _ rfl]

theorem takeIllegalOp_eq_dispatch (cfg : Config) (h : Half) (ps : List Half) (s : State) :
    takeIllegalOp cfg (h :: ps) s =
      settle cfg (dispatch (received (markLast (h :: ps)) (reservedRegs (opField h)) s)) := by
  have hill : (received (markLast (h :: ps)) (reservedRegs (opField h)) s).regs.ill = true := rfl
  simp only [takeIllegalOp, dispatch, hill, if_true, List.headD_cons]

/-- A whole frame offered to an idle block, up to where the agents let it go (R29, R34; log 6). -/
theorem reaches_wholeFrame (cfg : Config) (s : State) (f : List Beat) (r : Regs) (hinv : BlockInv s)
    (hph : s.regs.ph = .idle) (hr : FrameLoaded r) :
    Reaches cfg .between s.log (settle cfg (dispatch (received f r s))) := by
  obtain ⟨-, hseen, hsent⟩ := (blockInv_of_idle hph).mp hinv
  exact .settle (.of_event (e := .req f) rfl nofun (reaches_dispatch cfg (received f r s) hr hseen hsent))

theorem reaches_execUnder (cfg : Config) (i : Instr) (s t : State) (hinv : BlockInv s) (hph : s.regs.ph = .idle)
    (h : execUnder cfg i s = .next t) : Reaches cfg .between s.log t := by
  rw [execUnder_of_idle cfg i s hph] at h
  obtain rfl := Host.Outcome.next.inj h
  exact reaches_wholeFrame cfg s _ _ hinv hph (loadedRegs_loaded i)

theorem reaches_takeIllegalOp (cfg : Config) (hd : Half) (ps : List Half) (s : State) (hinv : BlockInv s)
    (hph : s.regs.ph = .idle) (hop : reservedOp (opField hd) = true) :
    Reaches cfg .between s.log (takeIllegalOp cfg (hd :: ps) s) := by
  rw [takeIllegalOp_eq_dispatch]
  exact reaches_wholeFrame cfg s _ _ hinv hph (reservedRegs_loaded hop)

theorem reservedOp_of_decodeWords_error {h : Half} {ps : List Half} {e : DecodeError}
    (he : decodeWords h ps = .error e) : reservedOp (opField h) = true := by
  unfold decodeWords at he
  split_ifs at he with h1 h2 h3 h4
  simp [reservedOp, h1, h2, h3, h4]

/-- The core's move, from a consistent block (R29 to R35; log 6). -/
theorem reaches_coreStep (cfg : Config) (p : TracePoint) (s t : State) (hinv : BlockInv s) (hp : StandsAt s.regs p)
    (h : coreStep (execUnder cfg) cfg s = .next t) : Reaches cfg p s.log t := by
  unfold coreStep at h
  split_ifs at h with hph
  · obtain rfl : p = .between := by simpa [StandsAt, hph] using hp
    split at h
    · next hd ps rest _ =>
      have hinv' : BlockInv { s with reqQ := rest } := blockInv_congr (s := s) rfl hinv
      split at h
      · next i _ => exact reaches_execUnder cfg i { s with reqQ := rest } t hinv' hph h
      · next _ he =>
        obtain rfl := Host.Outcome.next.inj h
        exact reaches_takeIllegalOp cfg hd ps { s with reqQ := rest } hinv' hph (reservedOp_of_decodeWords_error he)
    · obtain rfl := Host.Outcome.next.inj h
      exact reaches_seqStep cfg .between s hinv hp
  · obtain rfl := Host.Outcome.next.inj h
    exact reaches_seqStep cfg p s hinv hp

theorem waitStep_toBlock (s : State) : (waitStep s).toBlock = s.toBlock := by
  unfold waitStep
  split
  · rfl
  · next m _ _ => cases m <;> rfl

/-- Reset, from any state (R210). -/
theorem reaches_resetStep (cfg : Config) (p : TracePoint) (s : State) : Reaches cfg p s.log (resetStep s) := by
  have hnext : traceNext cfg p .rst = some .between := by cases p <;> rfl
  exact .of_event hnext nofun (.refl (s := resetStep s) ⟨rfl, rfl, rfl⟩ rfl)

/-- One step under any configuration, from a consistent block: reset, the core's move, or another agent's (R210,
R222). -/
theorem reaches_stepUnder (cfg : Config) (p : TracePoint) (s t : State) (hinv : BlockInv s) (hp : StandsAt s.regs p)
    (h : stepUnder cfg s = .next t) : Reaches cfg p s.log t := by
  unfold stepUnder laneMove at h
  split_ifs at h
  · obtain rfl := Host.Outcome.next.inj h
    exact reaches_resetStep cfg p s
  · exact reaches_coreStep cfg p s t hinv hp h
  · obtain rfl := Host.Outcome.next.inj h
    exact reaches_of_toBlock_eq cfg (waitStep_toBlock s) hinv hp

/-! The three invariants, each from consistency alone -/

theorem stepUnder_keeps_blockInv (cfg : Config) (s t : State) (hinv : BlockInv s) (h : stepUnder cfg s = .next t) :
    BlockInv t := by
  obtain ⟨p, hp⟩ := exists_standsAt s.regs
  exact (reaches_stepUnder cfg p s t hinv hp h).blockInv

theorem stepUnder_keeps_traceInv (cfg : Config) (s t : State) (hinv : BlockInv s) (htrace : TraceInv cfg s)
    (h : stepUnder cfg s = .next t) : TraceInv cfg t := by
  obtain ⟨p, hp, hlog⟩ := (traceInv_iff cfg s).mp htrace
  exact (reaches_stepUnder cfg p s t hinv hp h).traceInv hlog

theorem stepUnder_keeps_responsesLegal (cfg : Config) (s t : State) (hinv : BlockInv s) (hlegal : ResponsesLegal s)
    (h : stepUnder cfg s = .next t) : ResponsesLegal t := by
  obtain ⟨p, hp⟩ := exists_standsAt s.regs
  exact (reaches_stepUnder cfg p s t hinv hp h).responsesLegal hlegal

/-- Settles O48: a step from a consistent block reaches a consistent block by events that R34 and R76 allow. -/
theorem everyConfigurationKeepsInvariants : Obligations.EveryConfigurationKeepsInvariants :=
  fun cfg s t hinv htrace hlegal h => ⟨stepUnder_keeps_blockInv cfg s t hinv h,
    stepUnder_keeps_traceInv cfg s t hinv htrace h, stepUnder_keeps_responsesLegal cfg s t hinv hlegal h⟩

end Sys2Proof.Machine

/-! SUPPORT. State proofs, part 1 (spec/10_state.md R26, R28, R34): the invariants hold at reset and every step of the
platform's machine keeps them. -/

namespace Sys2Proof.Machine

/-- Settles O37: a step of the machine is a step under the platform's configuration. -/
theorem stepKeepsInv : Obligations.StepKeepsInv := fun s t hinv h =>
  stepUnder_keeps_blockInv platformConfig s t hinv (stepIsThePlatforms s ▸ h)

/-- Settles O38: a step of the machine is a step under the platform's configuration. -/
theorem stepKeepsTrace : Obligations.StepKeepsTrace := fun s t hinv htrace h =>
  stepUnder_keeps_traceInv platformConfig s t hinv htrace (stepIsThePlatforms s ▸ h)

/-- Settles O36: a block after reset is idle, with nothing in flight and an empty history. -/
theorem invAtReset : Obligations.InvAtReset :=
  ⟨(blockInv_of_idle rfl).mpr ⟨rfl, rfl, rfl⟩, rfl, nofun⟩

theorem getD_replicate_self {α : Type} (n k : Nat) (x : α) : (Vector.replicate n x).toList.getD k x = x := by
  by_cases h : k < n <;> simp [h]

/-- Settles O34: the buffers are all zero entries, and every other register is its zero by definition. -/
theorem resetLeavesZero : Obligations.ResetLeavesZero :=
  ⟨rfl, rfl, rfl, fun k => getD_replicate_self 32 k 0, rfl, rfl, fun k => getD_replicate_self 24 k 0, rfl, rfl,
    fun k => getD_replicate_self 32 k 0, rfl, rfl, rfl, rfl, rfl, rfl, nofun, nofun, rfl⟩

end Sys2Proof.Machine

/-! SUPPORT. State proofs, part 2 (spec/10_state.md section 8, R52, R222): which move a step of the machine is. -/

namespace Sys2Proof.Machine

/-! What the decoder's answer says of the offered beats (R60, R67) -/

theorem decodeWords_ne_incomplete (h : Half) (ps : List Half) : decodeWords h ps ≠ .error .incomplete := by
  unfold decodeWords
  split_ifs <;> nofun

/-- An operation is decoded from a whole frame at the head of the beats. -/
theorem decode_eq_ok_iff (bs rest : List Beat) (i : Instr) :
    decode bs = .ok (i, rest) ↔ ∃ h ps, splitFrame bs = some (h :: ps, rest) ∧ decodeWords h ps = .ok i := by
  unfold decode
  split
  next h ps rest' hs =>
    cases hd : decodeWords h ps <;> simp [hs, hd, and_comm]
  next hs => simpa using fun h ps hf _ => hs h ps rest hf

/-- A frame is incomplete exactly when the beats hold no whole frame. -/
theorem decode_eq_incomplete_iff (bs : List Beat) :
    decode bs = .error .incomplete ↔ ∀ h ps rest, splitFrame bs ≠ some (h :: ps, rest) := by
  unfold decode
  split
  next h ps rest hs =>
    have := decodeWords_ne_incomplete h ps
    cases hd : decodeWords h ps <;> simp_all
  next hs => simpa using hs

theorem splitFrame_of_open {bs : List Beat} (h : ∀ b ∈ bs, b.last = false) : splitFrame bs = none := by
  induction bs with
  | nil => rfl
  | cons b bs ih =>
    obtain ⟨hb, hbs⟩ := List.forall_mem_cons.mp h
    simp [splitFrame, hb, ih hbs]

/-! The three cases of a step without reset (R29 to R35, R222) -/

theorem step_of_waiting (s : State) (hr : s.rst = false) (he : coreEnabled s = false) :
    step s = .next (waitStep s) := by
  simp [step, laneMove, hr, he]

theorem step_of_enabled (s : State) (hr : s.rst = false) (he : coreEnabled s = true) :
    step s = coreStep exec platformConfig s := by
  simp [step, laneMove, hr, he]

theorem coreStep_of_decoded {run : Instr → State → Host.Outcome State Fault Refusal} {cfg : Config} {s : State}
    {i : Instr} {rest : List Beat} (hph : s.regs.ph = .idle) (h : decode s.reqQ = .ok (i, rest)) :
    coreStep run cfg s = run i { s with reqQ := rest } := by
  obtain ⟨hd, ps, hs, hi⟩ := (decode_eq_ok_iff _ _ _).mp h
  simp [coreStep, hph, hs, hi]

theorem coreStep_of_not_whole {run : Instr → State → Host.Outcome State Fault Refusal} {cfg : Config} {s : State}
    (h : s.regs.ph ≠ .idle ∨ decode s.reqQ = .error .incomplete) : coreStep run cfg s = .next (seqStep cfg s) := by
  unfold coreStep
  by_cases hph : s.regs.ph = .idle
  · have hnone := (decode_eq_incomplete_iff s.reqQ).mp (h.resolve_left (not_not.mpr hph))
    rw [if_pos hph]
    split
    next hd ps rest hs => exact absurd hs (hnone hd ps rest)
    next => rfl
  · exact if_neg hph

/-- An enabled step of a block that is offered no whole frame, or is not idle, is the sequencer's. -/
theorem step_of_sequencer (s : State) (hr : s.rst = false) (he : coreEnabled s = true)
    (h : s.regs.ph ≠ .idle ∨ decode s.reqQ = .error .incomplete) : step s = .next (seqStep platformConfig s) :=
  (step_of_enabled s hr he).trans (coreStep_of_not_whole h)

/-- Settles O5: a frame that decodes has a first beat, so the core's step is enabled, and it runs the operation. -/
theorem stepRunsDecodedInstr : Obligations.StepRunsDecodedInstr := by
  intro s i rest hr hph h
  have he : coreEnabled s = true := by
    have hne : s.reqQ ≠ [] := fun hq => by simp [hq, decode, splitFrame] at h
    simpa [coreEnabled, hph] using hne
  exact (step_of_enabled s hr he).trans (coreStep_of_decoded hph h)

/-- Settles O6: while the core waits another agent moves, and else the core's move is the sequencer's. -/
theorem stepOtherwise : Obligations.StepOtherwise := fun s hr =>
  ⟨step_of_waiting s hr, step_of_sequencer s hr⟩

end Sys2Proof.Machine

/-! SUPPORT. State proofs, part 3 (spec/10_state.md R29, R30, R230): the registers a frame leaves, latched beat by
beat. -/

namespace Sys2Proof.Machine

/-! The fields of a header as numbers (R61) -/

theorem opField_toNat (h : Half) : (opField h).toNat = h.toNat / 4096 := by
  simp [opField, Nat.shiftRight_eq_div_pow]; omega

theorem lowField_toNat (h : Half) : (lowField h).toNat = h.toNat % 4096 := by
  simp [lowField]

theorem genMbzField_toNat (h : Half) : (genMbzField h).toNat = h.toNat / 512 % 8 := by
  simp [genMbzField, Nat.shiftRight_eq_div_pow]

theorem strengthField_toNat (h : Half) : (strengthField h).toNat = h.toNat % 512 := by
  simp [strengthField]

theorem opField_eq_iff (h : Half) (op : BitVec 4) : opField h = op ↔ h.toNat / 4096 = op.toNat := by
  rw [← BitVec.toNat_inj, opField_toNat]

theorem reservedOp_eq_true_iff (op : BitVec 4) : reservedOp op = true ↔ op.toNat = 0 ∨ 5 ≤ op.toNat := by
  revert op; decide

/-- `BAD` of a header alone, in numbers (R29, R69). -/
theorem headerBad_eq_true_iff (h : Half) :
    headerBad h = true ↔ (1 ≤ h.toNat / 4096 ∧ h.toNat / 4096 ≤ 3 ∧ h.toNat % 4096 ≠ 0) ∨
      (h.toNat / 4096 = 4 ∧ h.toNat / 512 % 8 ≠ 0) := by
  have hop : opField h = opGen ↔ h.toNat / 4096 = 4 := opField_eq_iff h opGen
  have hres := reservedOp_eq_true_iff (opField h)
  have hlow : lowField h = 0 ↔ h.toNat % 4096 = 0 := by rw [← BitVec.toNat_inj, lowField_toNat]; rfl
  have hmbz : genMbzField h = 0 ↔ h.toNat / 512 % 8 = 0 := by rw [← BitVec.toNat_inj, genMbzField_toNat]; rfl
  rw [opField_toNat] at hres
  unfold headerBad
  by_cases hgen : opField h = opGen
  · have := hop.mp hgen
    simp only [if_pos hgen, bne_iff_ne, ne_eq, hmbz]
    omega
  · have := mt hop.mpr hgen
    simp only [if_neg hgen, Bool.and_eq_true, Bool.not_eq_true', bne_iff_ne, ne_eq, hlow, ← Bool.not_eq_true, hres]
    omega

/-- The header step's register writes, in numbers (R29). -/
theorem latchHeader_zero (h : Half) :
    latchHeader h Regs.zero = { Regs.zero with
      opr := BitVec.ofNat 4 (h.toNat / 4096)
      ill := decide (h.toNat / 4096 = 0 ∨ 5 ≤ h.toNat / 4096)
      bad := decide ((1 ≤ h.toNat / 4096 ∧ h.toNat / 4096 ≤ 3 ∧ h.toNat % 4096 ≠ 0) ∨
        (h.toNat / 4096 = 4 ∧ h.toNat / 512 % 8 ≠ 0))
      str := if h.toNat / 4096 = 4 then BitVec.ofNat 9 (h.toNat % 512) else 0 } := by
  have hop : opField h = BitVec.ofNat 4 (h.toNat / 4096) := by
    rw [← opField_toNat, BitVec.ofNat_toNat, BitVec.setWidth_eq]
  have hgen : opField h = opGen ↔ h.toNat / 4096 = 4 := opField_eq_iff h opGen
  have hstr : strengthField h = BitVec.ofNat 9 (h.toNat % 512) := by
    rw [← strengthField_toNat, BitVec.ofNat_toNat, BitVec.setWidth_eq]
  have hill : reservedOp (opField h) = decide (h.toNat / 4096 = 0 ∨ 5 ≤ h.toNat / 4096) := by
    rw [Bool.eq_iff_iff, reservedOp_eq_true_iff, opField_toNat, decide_eq_true_iff]
  have hbad : headerBad h = decide ((1 ≤ h.toNat / 4096 ∧ h.toNat / 4096 ≤ 3 ∧ h.toNat % 4096 ≠ 0) ∨
      (h.toNat / 4096 = 4 ∧ h.toNat / 512 % 8 ≠ 0)) := by
    rw [Bool.eq_iff_iff, headerBad_eq_true_iff, decide_eq_true_iff]
  simp only [latchHeader, zero_ill, zero_bad, zero_str, Bool.false_or, hill, hbad, hgen, hstr, ← hop]

/-! Counters (R30, R230) -/

theorem bumpEl_ofNat_min (n : Nat) : bumpEl (BitVec.ofNat 6 (min n 33)) = BitVec.ofNat 6 (min (n + 1) 33) := by
  have : (BitVec.ofNat 6 (min n 33)).toNat = min n 33 := by rw [BitVec.toNat_ofNat]; omega
  rw [bumpEl, this]
  congr 1
  omega

theorem bumpWc_ofNat_min (n : Nat) : bumpWc (BitVec.ofNat 5 (min n 25)) = BitVec.ofNat 5 (min (n + 1) 25) := by
  have : (BitVec.ofNat 5 (min n 25)).toNat = min n 25 := by rw [BitVec.toNat_ofNat]; omega
  rw [bumpWc, this]
  congr 1
  omega

/-- The next place of a buffer of `m` places is written where the counter, saturated past `m`, says so (R30). -/
theorem fill_snoc_of_counter {α : Type} {m : Nat} (v : Vector α m) (xs : List α) (x : α) (c : Nat)
    (hc : c = min xs.length (m + 1)) :
    (if c < m then setAt (fill v xs) c x else fill v xs) = fill v (xs ++ [x]) := by
  rw [fill_snoc]
  by_cases hlt : xs.length < m
  · obtain rfl : c = xs.length := by omega
    rfl
  · rw [if_neg hlt, if_neg (by omega)]

/-! One more payload beat of each operation (R30) -/

/-- Registers inside `RECV`. -/
def inRecv (r : Regs) : Regs := { r with ph := .recv }

theorem latchPayload_enc (mbz : BitVec 12) (bytes : List ByteBeat) (b : ByteBeat) :
    latchPayload (byteData b) (inRecv (encRegs mbz bytes)) = inRecv (encRegs mbz (bytes ++ [b])) := by
  have hel : (BitVec.ofNat 6 (min bytes.length 33)).toNat = min (bytes.map ByteBeat.byte).length (32 + 1) := by
    rw [BitVec.toNat_ofNat, List.length_map]; omega
  have heb := fill_snoc_of_counter Regs.zero.eb (bytes.map ByteBeat.byte) b.byte _ hel
  simp [latchPayload, inRecv, encRegs, byteBeat_byteData, heb, bumpEl_ofNat_min, encBad, List.any_append,
    Bool.or_assoc, BitVec.ofNat_add, -BitVec.toNat_ofNat]

theorem latchPayload_token {op : BitVec 4} (hop : op = opDec ∨ op = opVal) (mbz : BitVec 12) (tokens : List TokenBeat)
    (t : TokenBeat) :
    latchPayload (tokenData t) (inRecv (tokenRegs op mbz tokens)) = inRecv (tokenRegs op mbz (tokens ++ [t])) := by
  have hwc : (BitVec.ofNat 5 (min tokens.length 25)).toNat = min (tokens.map TokenBeat.idx).length (24 + 1) := by
    rw [BitVec.toNat_ofNat, List.length_map]; omega
  have hwb := fill_snoc_of_counter Regs.zero.wb (tokens.map TokenBeat.idx) t.idx _ hwc
  simp [latchPayload, inRecv, tokenRegs, tokenBeat_tokenData, hwb, bumpWc_ofNat_min, tokensBad, tokensMiss,
    List.any_append, Bool.or_assoc, hop, (token_op_ne hop).1, -BitVec.toNat_ofNat]

theorem latchPayload_gen (mbz : BitVec 3) (strength : BitVec 9) (extra : List Half) (p : Half) :
    latchPayload p (inRecv (genRegs mbz strength extra)) = inRecv (genRegs mbz strength (extra ++ [p])) := by
  have hop : opGen ≠ opEnc ∧ opGen ≠ opDec ∧ opGen ≠ opVal := by decide
  simp [latchPayload, inRecv, genRegs, genBad, hop]

theorem latchPayload_reserved (op : BitVec 4) (p : Half) :
    latchPayload p (inRecv (reservedRegs op)) = inRecv (reservedRegs op) := rfl

/-! Whole frames -/

theorem frameRegs_markLast (h : Half) (ps : List Half) :
    frameRegs (markLast (h :: ps)) = ps.foldl (fun r p => latchPayload p r) (inRecv (latchHeader h Regs.zero)) := by
  have hmap := markLast_map_data (h :: ps)
  cases hm : markLast (h :: ps) with
  | nil => simp [hm] at hmap
  | cons b bs =>
    obtain ⟨rfl, rfl⟩ := List.cons.inj (hm ▸ hmap)
    simp [frameRegs, inRecv, List.foldl_map]

/-- Latching beat by beat what a list of elements is encoded to, where each element latches as one more of the list. -/
theorem foldl_latchPayload {α : Type} (data : α → Half) (regs : List α → Regs)
    (hstep : ∀ xs x, latchPayload (data x) (regs xs) = regs (xs ++ [x])) (xs : List α) :
    (xs.map data).foldl (fun r p => latchPayload p r) (regs []) = regs xs := by
  induction xs using List.reverseRecOn with
  | nil => rfl
  | append_singleton xs x ih => simp [ih, hstep]

theorem fill_nil {α : Type} {n : Nat} (v : Vector α n) : fill v [] = v := Vector.toList_inj.mp (by simp)

theorem latchHeader_low {op : BitVec 4} (hop : op = opEnc ∨ op = opDec ∨ op = opVal) (mbz : BitVec 12) :
    latchHeader (op ++ mbz) Regs.zero = { Regs.zero with opr := op, bad := mbz != 0 } := by
  have hres : reservedOp op = false ∧ op ≠ opGen := by rcases hop with rfl | rfl | rfl <;> decide
  simp [latchHeader, headerBad, opField_append, lowField_append, hres]

/-! A header latches what the frame of its operation without payload loads. -/

theorem latchHeader_enc (mbz : BitVec 12) : latchHeader (opEnc ++ mbz) Regs.zero = encRegs mbz [] := by
  simp [latchHeader_low, encRegs, encBad, fill_nil]

theorem latchHeader_token {op : BitVec 4} (hop : op = opDec ∨ op = opVal) (mbz : BitVec 12) :
    latchHeader (op ++ mbz) Regs.zero = tokenRegs op mbz [] := by
  simp [latchHeader_low (.inr hop), tokenRegs, tokensBad, tokensMiss, fill_nil]

theorem latchHeader_gen (mbz : BitVec 3) (strength : BitVec 9) :
    latchHeader (opGen ++ (mbz ++ strength)) Regs.zero = genRegs mbz strength [] := by
  have hop : opField (opGen ++ (mbz ++ strength)) = opGen := opField_append opGen (mbz ++ strength)
  have hmbz : genMbzField (opGen ++ (mbz ++ strength)) = mbz := genMbzField_append opGen mbz strength
  have hstr : strengthField (opGen ++ (mbz ++ strength)) = strength := strengthField_append opGen mbz strength
  simp only [latchHeader, headerBad, hop, hmbz, hstr, if_true, genRegs, genBad, List.isEmpty_nil, Bool.not_true,
    Bool.or_false, Bool.false_or, zero_bad]
  rfl

/-- A whole frame received beat by beat leaves the registers that its operation's meaning starts from (R92, R106, R128,
R142). -/
theorem frameRegs_encode (i : Instr) : frameRegs (encode i) = inRecv (loadedRegs i) := by
  rw [encode, frameRegs_markLast]
  cases i with
  | enc mbz bytes =>
    rw [headerData, latchHeader_enc]
    exact foldl_latchPayload byteData (fun bytes => inRecv (encRegs mbz bytes)) (latchPayload_enc mbz) bytes
  | dec mbz tokens =>
    rw [headerData, latchHeader_token (.inl rfl)]
    exact foldl_latchPayload tokenData (fun tokens => inRecv (tokenRegs opDec mbz tokens))
      (latchPayload_token (.inl rfl) mbz) tokens
  | val mbz tokens =>
    rw [headerData, latchHeader_token (.inr rfl)]
    exact foldl_latchPayload tokenData (fun tokens => inRecv (tokenRegs opVal mbz tokens))
      (latchPayload_token (.inr rfl) mbz) tokens
  | gen mbz strength extra =>
    rw [headerData, latchHeader_gen]
    simpa only [List.map_id, payloadData, loadedRegs] using
      foldl_latchPayload id (fun extra => inRecv (genRegs mbz strength extra)) (latchPayload_gen mbz strength) extra

/-- The same for a frame with a reserved opcode: only `OPR` and `ILL` (R29, R30). -/
theorem frameRegs_reserved {h : Half} (hop : reservedOp (opField h) = true) (ps : List Half) :
    frameRegs (markLast (h :: ps)) = inRecv (reservedRegs (opField h)) := by
  have hgen : opField h ≠ opGen := by rintro he; rw [he] at hop; exact absurd hop (by decide)
  have hheader : latchHeader h Regs.zero = reservedRegs (opField h) := by
    simp [latchHeader, reservedRegs, headerBad, hop, hgen]
  rw [frameRegs_markLast, hheader]
  induction ps with
  | nil => rfl
  | cons p ps ih => exact ih

/-! `BAD` is set exactly by a frame that is not well-formed (R69) -/

theorem encBad_eq_not_wellFormed (mbz : BitVec 12) (bytes : List ByteBeat) :
    encBad mbz bytes = !(Instr.enc mbz bytes).wellFormed := by
  simp [encBad, Instr.wellFormed, bne, List.not_all_eq_any_not, ByteBeat.clean]

theorem tokensBad_eq_not_wellFormed (mbz : BitVec 12) (tokens : List TokenBeat) :
    tokensBad mbz tokens = !(Instr.dec mbz tokens).wellFormed := by
  simp [tokensBad, Instr.wellFormed, bne, List.not_all_eq_any_not, TokenBeat.clean]

theorem genBad_eq_not_wellFormed (mbz : BitVec 3) (strength : BitVec 9) (extra : List Half) :
    genBad mbz extra = !(Instr.gen mbz strength extra).wellFormed := by
  simp [genBad, Instr.wellFormed, bne]

theorem ofNat_two_mod_four (n : Nat) : BitVec.ofNat 2 (n % 4) = BitVec.ofNat 2 n := by
  apply BitVec.eq_of_toNat_eq
  simp

/-- Settles O16: a received frame leaves what the operation's whole frame loads. -/
theorem receivedFrameRegisters : Obligations.ReceivedFrameRegisters := by
  refine ⟨fun mbz bytes => ?_, fun mbz tokens => ?_, fun mbz tokens => ?_, fun mbz strength extra => ?_⟩
  · rw [frameRegs_encode, ← encBad_eq_not_wellFormed, ofNat_two_mod_four]; rfl
  · rw [frameRegs_encode, ← tokensBad_eq_not_wellFormed]; rfl
  · rw [frameRegs_encode, show (Instr.val mbz tokens).wellFormed = (Instr.dec mbz tokens).wellFormed from rfl,
      ← tokensBad_eq_not_wellFormed]; rfl
  · rw [frameRegs_encode, ← genBad_eq_not_wellFormed]; rfl

end Sys2Proof.Machine

/-! SUPPORT. State proofs, part 4 (spec/10_state.md R29 to R31): the sequencer receives a frame beat by beat and
dispatches the registers that the whole frame loads. -/

namespace Sys2Proof.Machine

/-! One beat of a request frame -/

/-- Dispatch sets the phase anew, so it does not depend on the phase it finds (R31). -/
theorem dispatch_inRecv (s : State) : dispatch { s with regs := inRecv s.regs } = dispatch s := rfl

theorem afterBeat_eq {s : State} {b : Beat} (h : inRecv s.regs = frameRegs (s.reqSeen ++ [b])) :
    afterBeat b s =
      if b.last then
        dispatch (received (s.reqSeen ++ [b]) (frameRegs (s.reqSeen ++ [b])) { s with reqSeen := [] })
      else { s with reqSeen := s.reqSeen ++ [b], regs := frameRegs (s.reqSeen ++ [b]) } := by
  simp only [afterBeat, ← h]
  split_ifs
  · exact (dispatch_inRecv { s with reqSeen := [], log := s.log ++ [.req (s.reqSeen ++ [b])] }).symm
  · rfl

/-- One beat accepted by a consistent block that can accept one: the frame goes on, or ends and is dispatched with the
registers of all its beats. -/
theorem seqStep_of_beat (cfg : Config) {s : State} {b : Beat} {rest : List Beat} (hinv : BlockInv s)
    (hph : s.regs.ph = .idle ∨ s.regs.ph = .recv) (hq : s.reqQ = b :: rest) :
    seqStep cfg s =
      if b.last then
        dispatch (received (s.reqSeen ++ [b]) (frameRegs (s.reqSeen ++ [b])) { s with reqQ := rest, reqSeen := [] })
      else { s with reqQ := rest, reqSeen := s.reqSeen ++ [b], regs := frameRegs (s.reqSeen ++ [b]) } := by
  rcases hph with hph | hph
  · obtain ⟨hregs, hseen, -⟩ := (blockInv_of_idle hph).mp hinv
    rw [seqStep_of_idle cfg s hph, headerStep_of_offer s b rest hq]
    refine afterBeat_eq (s := { s with reqQ := rest, regs := latchHeader b.data s.regs }) ?_
    rw [hregs, hseen]
    rfl
  · obtain ⟨hregs, hne, -⟩ := (blockInv_of_recv hph).mp hinv
    rw [seqStep_of_recv cfg s hph, payloadStep_of_offer s b rest hq]
    refine afterBeat_eq (s := { s with reqQ := rest, regs := latchPayload b.data s.regs }) ?_
    have hph' : (latchPayload b.data s.regs).ph = .recv := (latchPayload_ph b.data s.regs).trans hph
    calc inRecv (latchPayload b.data s.regs)
      _ = latchPayload b.data s.regs := by rw [inRecv, ← hph']
      _ = frameRegs (s.reqSeen ++ [b]) := by rw [frameRegs_snoc s.reqSeen b hne, ← hregs]

theorem seqStep_keeps_blockInv (cfg : Config) {s : State} (hinv : BlockInv s) : BlockInv (seqStep cfg s) := by
  obtain ⟨p, hp⟩ := exists_standsAt s.regs
  exact (reaches_seqStep cfg p s hinv hp).blockInv

theorem frameRegs_ph (bs : List Beat) (h : bs ≠ []) : (frameRegs bs).ph = .recv := by
  induction bs using List.reverseRecOn with
  | nil => exact absurd rfl h
  | append_singleton bs b ih =>
    by_cases hbs : bs = []
    · subst hbs; rfl
    · rw [frameRegs_snoc bs b hbs, latchPayload_ph, ih hbs]

/-- Settles O13: the beats offered hold no whole frame, so the step is the sequencer's first one. -/
theorem headerOpensFrame : Obligations.HeaderOpensFrame := by
  intro s h bs hinv hr hph hq hopen
  obtain ⟨-, hseen, -⟩ := (blockInv_of_idle hph).mp hinv
  have hnone : splitFrame s.reqQ = none := splitFrame_of_open (by simpa [hq] using hopen)
  rw [step_of_sequencer s hr (by simp [coreEnabled, hph, hq]) (.inr (by simp [decode, hnone])),
    seqStep_of_beat platformConfig hinv (.inl hph) hq, hseen]
  have hregs : frameRegs [⟨h, false⟩] = inRecv (latchHeader h Regs.zero) := rfl
  simp only [List.nil_append, hregs, latchHeader_zero]
  rfl

/-! The rest of a frame, as far as it has not been received -/

/-- The remaining beats of a frame are all offered, the last one marked: the sequencer comes to the frame's dispatch. -/
theorem exists_seqSteps_dispatch (cfg : Config) (front : List Beat) (b : Beat) (rest : List Beat)
    (hopen : ∀ x ∈ front, x.last = false) (hlast : b.last = true) (s : State) (hinv : BlockInv s)
    (hph : s.regs.ph = .idle ∨ s.regs.ph = .recv) (hq : s.reqQ = front ++ b :: rest) :
    ∃ k, seqSteps cfg k s =
      dispatch (received (s.reqSeen ++ front ++ [b]) (frameRegs (s.reqSeen ++ front ++ [b]))
        { s with reqQ := rest, reqSeen := [] }) := by
  induction front generalizing s with
  | nil => exact ⟨1, by simp [seqSteps, seqStep_of_beat cfg hinv hph hq, hlast]⟩
  | cons x front ih =>
    obtain ⟨hx, hfront⟩ := List.forall_mem_cons.mp hopen
    have hstep := seqStep_of_beat cfg hinv hph hq
    simp only [hx, Bool.false_eq_true, if_false] at hstep
    have hph' : (seqStep cfg s).regs.ph = .recv := by rw [hstep]; exact frameRegs_ph _ (by simp)
    obtain ⟨k, hk⟩ := ih hfront (seqStep cfg s) (seqStep_keeps_blockInv cfg hinv) (.inr hph') (by rw [hstep]; rfl)
    refine ⟨k + 1, hk.trans ?_⟩
    simp [hstep, received]

/-- A beat stream is cut in one way into open beats, a last beat and what follows: where the received beats are open,
they are a part of the frame's open beats. -/
theorem exists_front_of_append_eq {seen offered front rest : List Beat} {b : Beat} (hlast : b.last = true)
    (hopen : ∀ x ∈ seen, x.last = false) (h : seen ++ offered = front ++ b :: rest) :
    ∃ front', front = seen ++ front' ∧ offered = front' ++ b :: rest := by
  rcases List.append_eq_append_iff.mp h with ⟨front', hfront, hoffered⟩ | ⟨tail, hseen, htail⟩
  · exact ⟨front', hfront, hoffered⟩
  · cases tail with
    | nil => exact ⟨[], by simpa using hseen.symm, by simpa using htail.symm⟩
    | cons y ys =>
      obtain ⟨rfl, -⟩ := List.cons.inj htail
      have := hopen b (by simp [hseen])
      simp [hlast] at this

/-- A frame is open beats and a last one (R60). -/
theorem markLast_eq_open_last (h : Half) (ps : List Half) :
    ∃ (front : List Beat) (d : Half), markLast (h :: ps) = front ++ [⟨d, true⟩] ∧ ∀ x ∈ front, x.last = false := by
  obtain ⟨ds, d, hds⟩ := List.eq_nil_or_concat (h :: ps) |>.resolve_left (List.cons_ne_nil h ps)
  exact ⟨ds.map fun x => ⟨x, false⟩, d, by rw [hds, List.concat_eq_append, markLast_snoc], by simp⟩

/-- In a consistent state in `IDLE` or `RECV` whose received and offered beats begin with a frame, the sequencer comes
to the dispatch of that frame as if an idle block had received it whole. -/
theorem exists_seqSteps_wholeFrame (cfg : Config) (s : State) (h : Half) (ps : List Half) (rest : List Beat)
    (hinv : BlockInv s) (hph : s.regs.ph = .idle ∨ s.regs.ph = .recv)
    (hbeats : s.reqSeen ++ s.reqQ = markLast (h :: ps) ++ rest) :
    ∃ k, seqSteps cfg k s =
      dispatch (received (markLast (h :: ps)) (frameRegs (markLast (h :: ps)))
        { s with regs := Regs.zero, reqSeen := [], reqQ := rest }) := by
  obtain ⟨front, d, hframe, hopen⟩ := markLast_eq_open_last h ps
  have hseen : ∀ x ∈ s.reqSeen, x.last = false := by
    rcases hph with hph | hph
    · simp [((blockInv_of_idle hph).mp hinv).2.1]
    · exact ((blockInv_of_recv hph).mp hinv).2.2.1
  obtain ⟨front', rfl, hq⟩ := exists_front_of_append_eq (b := ⟨d, true⟩) rfl hseen
    (hbeats.trans (by rw [hframe, List.append_assoc]; rfl))
  obtain ⟨k, hk⟩ := exists_seqSteps_dispatch cfg front' ⟨d, true⟩ rest
    (fun x hx => hopen x (List.mem_append_right _ hx)) rfl s hinv hph hq
  exact ⟨k, by rw [hk, hframe]; rfl⟩

/-- A frame that ends with the registers `r` settles in the state that an idle block taking it whole comes to. -/
theorem exists_seqSteps_settle (cfg : Config) (s : State) (h : Half) (ps : List Half) (rest : List Beat) (r : Regs)
    (hinv : BlockInv s) (hph : s.regs.ph = .idle ∨ s.regs.ph = .recv)
    (hbeats : s.reqSeen ++ s.reqQ = markLast (h :: ps) ++ rest) (hr : frameRegs (markLast (h :: ps)) = inRecv r) :
    ∃ k, settle cfg (dispatch (received (markLast (h :: ps)) r
      { s with regs := Regs.zero, reqSeen := [], reqQ := rest })) = seqSteps cfg k s := by
  obtain ⟨k, hk⟩ := exists_seqSteps_wholeFrame cfg s h ps rest hinv hph hbeats
  have hdispatch := dispatch_inRecv (received (markLast (h :: ps)) r
    { s with regs := Regs.zero, reqSeen := [], reqQ := rest })
  obtain ⟨n, hn⟩ := settle_eq_seqSteps cfg (seqSteps cfg k s)
  refine ⟨k + n, ?_⟩
  rw [← seqSteps_add, ← hn, hk, hr, ← hdispatch]
  rfl

/-- Settles O24: the frame is received up to its dispatch, and the meaning's `settle` is sequencer steps again. -/
theorem sequencerRefinesExec : Obligations.SequencerRefinesExec := by
  intro cfg i s rest hinv hph hbeats
  obtain ⟨k, hk⟩ := exists_seqSteps_settle cfg s _ _ rest (loadedRegs i) hinv hph hbeats (frameRegs_encode i)
  exact ⟨k, (execUnder_of_idle cfg i _ rfl).trans (congrArg Host.Outcome.next hk)⟩

/-- Settles O25, as O24 with the registers of a reserved opcode's frame. -/
theorem sequencerRefinesIllegalOp : Obligations.SequencerRefinesIllegalOp := by
  intro cfg h ps s rest hinv hph hop hbeats
  rw [takeIllegalOp_eq_dispatch]
  exact exists_seqSteps_settle cfg s h ps rest _ hinv hph hbeats (frameRegs_reserved hop ps)

end Sys2Proof.Machine

/-! SUPPORT. State proofs, part 5 (spec/10_state.md R32, R33, R35): one answer of a unit, and one acceptance of the
host. -/

namespace Sys2Proof.Machine

theorem le_of_legalEntropyBytes {l : Nat} (h : legalEntropyBytes l = true) : l ≤ 32 := by
  rcases legalEntropyBytes_cases h with h | h | h | h | h <;> omega

/-! A result where no response is under way (R32, R33, R188) -/

/-- A finished operation changes nothing but the phase, the status and the info, where no beat of a response is sent. -/
theorem finish_of_fresh (s : State) (status : BitVec 4) (info : BitVec 8) (hec : s.regs.ec = 0)
    (hhs : s.regs.hs = false) (hsent : s.rspSent = []) :
    finish s status info = { s with regs := { s.regs with ph := .emit, rst := status, rin := info } } := by
  simp only [finish, ← hec, ← hhs, ← hsent]

/-- Settles O14, by the answer: `err` raises the fault, `ok` fills the buffer and asks for the digest of the draw. -/
theorem entropyAnswerStep : Obligations.EntropyAnswerStep := by
  intro s hinv hr hph
  obtain ⟨hregs, hstr, hel, hseen, hsent⟩ := (blockInv_of_rngw hph).mp hinv
  have hne : s.regs.ph ≠ .idle := by simp [hph]
  refine ⟨fun q hq => ?_, fun draw q hq => ?_⟩
  · rw [step_of_sequencer s hr (by simp [coreEnabled, hph, hq]) (.inl hne), seqStep_of_rngw _ s hph,
      entropyStep_of_err s q hq]
    exact congrArg Host.Outcome.next (finish_of_fresh { s with entQ := q, log := s.log ++ [.ersp none] } _ _
      (congrArg Regs.ec hregs) (congrArg Regs.hs hregs) hsent)
  · have hle : s.regs.el.toNat ≤ 32 := le_of_legalEntropyBytes (hel ▸ (strength_bytes hstr).2)
    have hlen : (draw.toList.take s.regs.el.toNat).length = s.regs.el.toNat := by simpa using hle
    refine ⟨hlen, ?_⟩
    rw [step_of_sequencer s hr (by simp [coreEnabled, hph, hq]) (.inl hne), seqStep_of_rngw _ s hph,
      entropyStep_of_ok s draw q hq]
    simp [askDigest, entropyHeld_fill s.regs _ (hlen.trans_le hle) hlen.symm]

/-- What an answered digest request leaves in the registers: by the opcode, and for `DEC` and `VAL` by the checksum
(R33). -/
def concludedRegs (r : Regs) : Regs :=
  if r.opr = opEnc ∨ r.opr = opGen then
    { r with
      ph := .emit, rst := statusOk, rin := BitVec.ofNat 8 (3 * r.el.toNat / 4)
      wb := fill r.wb (wordsOf (entropyHeld r) r.dg), wc := BitVec.ofNat 5 (3 * r.el.toNat / 4) }
  else if uint (checksumBits (r.el.toNat / 4) r.dg) ≠ r.ck.toNat then { r with ph := .emit, rst := statusNoValue }
  else if r.opr = opDec then { r with ph := .emit, rin := r.el.setWidth 8 }
  else { r with ph := .emit }

theorem concludeDigest_of_ready (s : State) (h : DigestReady s.regs) (hsent : s.rspSent = []) :
    concludeDigest s = { s with regs := concludedRegs s.regs } := by
  unfold concludedRegs
  obtain ⟨hrst, hrin, hec, hhs⟩ := h.response
  have fresh (status : BitVec 4) (info : BitVec 8) := finish_of_fresh s status info hec hhs hsent
  by_cases hwords : s.regs.opr = opEnc ∨ s.regs.opr = opGen
  · rw [concludeDigest_words s hwords, if_pos hwords]
    exact finish_of_fresh _ _ _ hec hhs hsent
  rw [if_neg hwords]
  obtain ⟨henc, hgen⟩ := not_or.mp hwords
  have htok := token_op_of_not_reserved h.operation henc hgen
  by_cases hsum : uint (checksumBits (s.regs.el.toNat / 4) s.regs.dg) = s.regs.ck.toNat
  · rw [if_neg (not_not.mpr hsum)]
    rcases htok with hdec | hval
    · rw [concludeDigest_bytes s hdec hsum, if_pos hdec, fresh, show statusOk = s.regs.rst from hrst.symm]
    · rw [concludeDigest_valid s hval hsum, if_neg (by rw [hval]; decide), fresh,
        show statusOk = s.regs.rst from hrst.symm, ← hrin]
  · rw [concludeDigest_mismatch s htok hsum, if_pos hsum, noValue, fresh, ← hrin]

/-- The indices of R90, with the entropy's length counted by `EL`. -/
theorem wordsOf_entropyHeld (r : Regs) (h : r.el.toNat ≤ 32) (d : Digest) :
    wordsOf (entropyHeld r) d = (List.range (3 * r.el.toNat / 4)).map fun i => BitVec.ofNat 11
      (uint (slice (bitsOf (entropyHeld r) ++ (bitsOf d.toList).take (r.el.toNat / 4)) (11 * i) (11 * i + 11))) := by
  simp [wordsOf, groups, concatenatedBits, checksumBits, entropyHeld_length r h, Function.comp_def]

/-- Settles O15, by the answer: `err` raises the fault, `ok` latches the digest and concludes. -/
theorem digestAnswerStep : Obligations.DigestAnswerStep := by
  intro s hinv hr hph
  obtain ⟨hready, hseen, hsent⟩ := (blockInv_of_hashw hph).mp hinv
  obtain ⟨hrst, hrin, hec, hhs⟩ := hready.response
  have hne : s.regs.ph ≠ .idle := by simp [hph]
  refine ⟨fun q hq => ?_, fun q hq => ?_⟩
  · rw [step_of_sequencer s hr (by simp [coreEnabled, hph, hq]) (.inl hne), seqStep_of_hashw _ s hph,
      digestStep_of_err _ s q hq]
    exact congrArg Host.Outcome.next
      (finish_of_fresh { s with digQ := q, log := s.log ++ [.drsp none] } _ _ hec hhs hsent)
  · have hle := le_of_legalEntropyBytes hready.entropy
    intro r e d n
    rw [step_of_sequencer s hr (by simp [coreEnabled, hph, hq]) (.inl hne), seqStep_of_hashw _ s hph,
      digestStep_of_ok _ s q hq]
    have hready' : DigestReady { s.regs with dg := d } :=
      ⟨hready.flags, hready.response, hready.operation, hready.entropy, hready.words⟩
    have := concludeDigest_of_ready
      { s with digQ := q, log := s.log ++ [.drsp (some d.toList)], regs := { s.regs with dg := d } } hready' hsent
    refine congrArg Host.Outcome.next (this.trans ?_)
    rw [← wordsOf_entropyHeld s.regs hle d]
    rfl

/-! The host's acceptance (R35) -/

theorem regsAt_succ (r : Regs) (k : Nat) :
    regsAt r (k + 1) = { regsAt r k with hs := true, ec := BitVec.ofNat 6 k } := by
  cases k <;> rfl

namespace Sending

variable {s : State} {r : Regs} {k : Nat}

theorem sent_length (h : Sending s r k) : s.rspSent.length = k := by
  rw [h.sent, List.length_take, responseFrame_length]
  exact min_eq_left (Nat.le_succ_of_le h.count)

theorem frame (h : Sending s r k) : responseFrame s.regs = responseFrame r := by
  rw [h.regs, responseFrame_regsAt]

theorem beat (h : Sending s r k) : (responseFrame s.regs)[k]? = some (responseBeat s.regs) := by
  rw [h.frame, h.regs]
  exact responseBeat_regsAt r k h.start.2.1 h.count

theorem beat_last (h : Sending s r k) : (responseBeat s.regs).last = decide (k = (responsePayload r).length) := by
  rw [h.regs]
  exact responseBeat_last r k h.start.2.1 h.count

/-- The beats sent and the next one are one beat more of the frame. -/
theorem sent_snoc (h : Sending s r k) : s.rspSent ++ [responseBeat s.regs] = (responseFrame r).take (k + 1) := by
  rw [List.take_add_one, ← h.sent, ← h.frame, h.beat]
  rfl

end Sending

/-- Settles O12: the response stands after as many beats as are sent, and the acceptance moves the next one. -/
theorem emitSendsTheResponseInOrder : Obligations.EmitSendsTheResponseInOrder := by
  intro s hinv hr hph hready
  have h := sending_of_blockInv hph hinv
  refine ⟨responseBeat s.regs, h.sent_length ▸ h.beat, ?_⟩
  rw [step_of_sequencer s hr (by simp [coreEnabled, hph]; omega) (.inl (by simp [hph])), seqStep_of_emit _ s hph,
    emitStep_of_ready s (by omega), sendBeat_regsAt s _ _ rfl h.regs h.count h.sent, h.beat_last, h.frame,
    h.sent_snoc, h.sent_length, regsAt_succ, ← h.regs]
  simp only [decide_eq_true_eq]

end Sys2Proof.Machine

/-! SUPPORT. State proofs, part 6 (spec/10_state.md R31 to R33): an operation's whole frame, up to the answer of the
digest unit, and the answer that comes late. -/

namespace Sys2Proof.Machine

/-! Dispatch, by its outcome (R31) -/

/-- `RNGW`'s part of the invariant, less the phase and the frames in flight (R31, R44). -/
structure EntropyReady (r : Regs) : Prop where
  regs : r = { genRegs 0 r.str [] with ph := r.ph, el := r.el }
  strength : legalStrength r.str.toNat = true
  count : r.el.toNat = r.str.toNat / 8

/-- What dispatch does to a block with the registers `r`: the operation is finished, or asks for a digest or for
entropy, with registers that are a function of `r`. -/
inductive DispatchOutcome (r : Regs) : Prop where
  | finished (status : BitVec 4) (info : BitVec 8) (h : ∀ s, s.regs = r → dispatch s = finish s status info)
  | asksDigest (r' : Regs) (hready : DigestReady r')
      (h : ∀ s, s.regs = r → dispatch s = askDigest { s with regs := r' })
  | asksEntropy (r' : Regs) (hready : EntropyReady r')
      (h : ∀ s, s.regs = r → dispatch s = askEntropy { s with regs := r' })

theorem dispatch_outcome {r : Regs} (h : FrameLoaded r) : DispatchOutcome r := by
  by_cases hill : r.ill = true
  · exact .finished statusFault Cause.illegalOp.code fun s hs => by simp [dispatch, hs, hill, raise]
  by_cases hbad : r.bad = true
  · exact .finished statusFault Cause.illegalFrame.code fun s hs => by simp [dispatch, hs, hill, hbad, raise]
  have hill' : r.ill = false := by simpa using hill
  have hbad' : r.bad = false := by simpa using hbad
  by_cases henc : r.opr = opEnc
  · by_cases hea : r.ea = 0#2
    · by_cases hel : legalEntropyBytes r.el.toNat = true
      · refine .asksDigest r (digestReady_enc h hill' hbad' henc hel) fun s hs => ?_
        subst hs
        simp [dispatch, hill, hbad, henc, hea, hel]
      · exact .finished statusFault Cause.entropyLength.code fun s hs => by
          simp [dispatch, hs, hill, hbad, henc, hea, hel, raise]
    · exact .finished statusFault Cause.entropyUnaligned.code fun s hs => by
        simp [dispatch, hs, hill, hbad, henc, hea, raise]
  by_cases hgen : r.opr = opGen
  · have hne : opGen ≠ opEnc := by decide
    by_cases hstr : legalStrength r.str.toNat = true
    · refine .asksEntropy { r with el := BitVec.ofNat 6 (r.str.toNat / 8) } ⟨?_, hstr, (strength_bytes hstr).1⟩
        fun s hs => by simp [dispatch, hs, hill, hbad, hgen, hne, hstr]
      exact congrArg (fun x : Regs => { x with el := BitVec.ofNat 6 (r.str.toNat / 8) }) (h.gen hgen hbad')
    · exact .finished statusFault Cause.badStrength.code fun s hs => by
        simp [dispatch, hs, hill, hbad, hgen, hne, hstr, raise]
  by_cases hwc : legalWordCount r.wc.toNat = true
  · by_cases hms : r.ms = true
    · exact .finished statusNoValue 0 fun s hs => by
        simp [dispatch, hs, hill, hbad, henc, hgen, hms, noValue]
    · exact .asksDigest _ (digestReady_reconstruct h hill' hbad' (by simpa using hms) hwc) fun s hs => by
        simp [dispatch, hs, hill, hbad, henc, hgen, hwc, hms]
  · exact .finished statusNoValue 0 fun s hs => by
      simp [dispatch, hs, hill, hbad, henc, hgen, hwc, noValue]

/-! An operation's meaning, by where it comes before the digest unit answers -/

/-- `s` with the registers `r`, more events `evs`, and the answers `q` left of the entropy source. -/
def advanced (s : State) (r : Regs) (evs : List Event) (q : List EntropyAnswer) : State :=
  { s with regs := r, log := s.log ++ evs, entQ := q }

/-- What an operation's meaning comes to on an idle block with the entropy answers `eq`, for every configuration, every
history and whatever else the agents offer: a response, the wait for entropy, or a digest request. -/
inductive ExecOutcome (i : Instr) (eq : List EntropyAnswer) : Prop where
  | finished (r : Regs) (evs : List Event) (q : List EntropyAnswer) (status : BitVec 4) (info : BitVec 8)
      (h : ∀ cfg s, s.regs.ph = .idle → s.entQ = eq →
        execUnder cfg i s = .next (settle cfg (finish (advanced s r evs q) status info)))
  | awaitsEntropy (r : Regs) (evs : List Event) (heq : eq = [])
      (h : ∀ cfg s, s.regs.ph = .idle → s.entQ = eq →
        execUnder cfg i s = .next (askEntropy (advanced s r evs [])))
  | asksDigest (r : Regs) (evs : List Event) (q : List EntropyAnswer) (hready : DigestReady r)
      (h : ∀ cfg s, s.regs.ph = .idle → s.entQ = eq →
        execUnder cfg i s = .next (settle cfg (askDigest (advanced s r evs q))))

theorem execUnder_outcome (i : Instr) (eq : List EntropyAnswer) : ExecOutcome i eq := by
  cases dispatch_outcome (loadedRegs_loaded i) with
  | finished status info h =>
    refine .finished (loadedRegs i) [.req (encode i)] eq status info fun cfg s hph hq => ?_
    rw [execUnder_of_idle cfg i s hph, h _ rfl, ← hq]
    rfl
  | asksDigest r hready h =>
    refine .asksDigest r [.req (encode i)] eq hready fun cfg s hph hq => ?_
    rw [execUnder_of_idle cfg i s hph, h _ rfl, ← hq]
    rfl
  | asksEntropy r hready h =>
    cases eq with
    | nil =>
      refine .awaitsEntropy r [.req (encode i)] rfl fun cfg s hph hq => ?_
      rw [execUnder_of_idle cfg i s hph, h _ rfl, settle_askEntropy_wait cfg _ (by exact hq), ← hq]
      rfl
    | cons a q =>
      cases a with
      | err =>
        refine .finished { r with ph := .rngw } [.req (encode i), .ereq r.el.toNat, .ersp none] q statusFault
          Cause.entropySourceFail.code fun cfg s hph hq => ?_
        rw [execUnder_of_idle cfg i s hph, h _ rfl, settle_askEntropy_err cfg _ q (by exact hq)]
        simp [advanced, raise, askEntropy]
      | ok draw =>
        refine .asksDigest { r with ph := .rngw, eb := fill r.eb (draw.toList.take r.el.toNat) }
          [.req (encode i), .ereq r.el.toNat, .ersp (some (draw.toList.take r.el.toNat))] q ?_ fun cfg s hph hq => ?_
        · exact digestReady_draw (r := { r with ph := .rngw })
            (congrArg (fun x : Regs => { x with ph := .rngw }) hready.regs) hready.strength hready.count _
        · rw [execUnder_of_idle cfg i s hph, h _ rfl, settle_askEntropy_ok cfg _ draw q (by exact hq)]
          simp [advanced, askEntropy]

/-! A late digest answer (R33, R222) -/

/-- Sending a response leads to no phase but `IDLE` (R35). -/
theorem emitSteps_ph (n : Nat) (s : State) :
    (emitSteps n s).regs.ph = s.regs.ph ∨ (emitSteps n s).regs.ph = .idle := by
  induction n generalizing s with
  | zero => exact .inl rfl
  | succ n ih =>
    have hstep : (emitStep s).regs.ph = s.regs.ph ∨ (emitStep s).regs.ph = .idle := by
      unfold emitStep sendBeat
      simp only
      split_ifs <;> simp
    unfold emitSteps
    split_ifs
    · rcases ih (emitStep s) with h | h
      · exact h ▸ hstep
      · exact .inr h
    · exact .inl rfl

theorem settle_finish_ph_ne_hashw (cfg : Config) (s : State) (status : BitVec 4) (info : BitVec 8) :
    (settle cfg (finish s status info)).regs.ph ≠ .hashw := by
  rw [settle_of_emit cfg _ rfl]
  rcases emitSteps_ph 33 (finish s status info) with h | h <;> simp [h]

/-- Settles O23: only an operation that has asked for a digest waits in `HASHW`, and from there on its meaning is
`settle`, which is steps of the sequencer. -/
theorem lateDigestAnswerSameResult : Obligations.LateDigestAnswerSameResult := by
  intro cfg i s t u c hdig ht hwait hph hu
  cases execUnder_outcome i s.entQ with
  | finished r evs q status info h =>
    obtain rfl := Host.Outcome.next.inj ((h cfg s hph rfl).symm.trans ht)
    exact absurd hwait (settle_finish_ph_ne_hashw cfg _ status info)
  | awaitsEntropy r evs heq h =>
    obtain rfl := Host.Outcome.next.inj ((h cfg s hph rfl).symm.trans ht)
    simp at hwait
  | asksDigest r evs q hready h =>
    obtain rfl := Host.Outcome.next.inj ((h cfg s hph rfl).symm.trans ht)
    obtain rfl := Host.Outcome.next.inj ((h cfg { s with digQ := [c] } hph rfl).symm.trans hu)
    obtain ⟨k, hk⟩ := settle_eq_seqSteps cfg (askDigest (advanced { s with digQ := [c] } r evs q))
    rw [settle_askDigest_wait cfg _ (by exact hdig)]
    exact ⟨k, hk.symm⟩

end Sys2Proof.Machine

/-! SUPPORT. State proofs, part 7 (spec/10_state.md R26, R33, R152): a frame whose response the host takes whole, its
events, and the bits of the digest they depend on. -/

namespace Sys2Proof.Machine

/-! An answered digest request -/

/-- Where the leading bits of the digest are those of `d`, the response to the answered request is a function of the
registers and of `d` (R33). -/
theorem settle_askDigest_of_leading_bits {r : Regs} (h : DigestReady r) (d : Digest) :
    ∃ (n : Nat) (g : List Beat), ∀ (cfg : Config) (s : State) (q : List DigestChoice),
      s.regs = r → s.digQ = .ok :: q → 33 ≤ s.rspReady →
      checksumBits (r.el.toNat / 4) (cfg.sha256 (entropyHeld r)) = checksumBits (r.el.toNat / 4) d →
        settle cfg (askDigest s) = { afterFrame s n [.dreq (entropyHeld r),
          .drsp (some (cfg.sha256 (entropyHeld r)).toList), .rsp g] with digQ := q } := by
  have hle := le_of_legalEntropyBytes h.entropy
  by_cases hwords : r.opr = opEnc ∨ r.opr = opGen
  · refine ⟨3 * r.el.toNat / 4 + 1, okResponse r.opr ((wordsOf (entropyHeld r) d).map (BitVec.setWidth 16)),
      fun cfg s q hs hq hready hd => ?_⟩
    have hws : wordsOf (entropyHeld r) (cfg.sha256 (entropyHeld r)) = wordsOf (entropyHeld r) d := by
      simp only [wordsOf, concatenatedBits, entropyHeld_length r hle, hd]
    subst hs
    rw [settle_askDigest_words cfg s q hq hwords h.entropy (by omega), hws]
  obtain ⟨henc, hgen⟩ := not_or.mp hwords
  have htok := token_op_of_not_reserved h.operation henc hgen
  by_cases hsum : uint (checksumBits (r.el.toNat / 4) d) = r.ck.toNat
  · rcases htok with hdec | hval
    · refine ⟨r.el.toNat + 1, okResponse opDec ((entropyHeld r).map (BitVec.setWidth 16)),
        fun cfg s q hs hq hready hd => ?_⟩
      subst hs
      exact settle_askDigest_bytes cfg s q hq hdec hle (by omega) (hd ▸ hsum)
    · refine ⟨1, oneBeat 0x3000, fun cfg s q hs hq hready hd => ?_⟩
      subst hs
      exact settle_askDigest_valid cfg s q hq hval (by omega) (hd ▸ hsum)
  · refine ⟨1, oneBeat (r.opr ++ (statusNoValue ++ 0#8)), fun cfg s q hs hq hready hd => ?_⟩
    subst hs
    exact settle_askDigest_mismatch cfg s q hq htok (by omega) (hd ▸ hsum)

/-! The events of a frame (R26) -/

/-- From `s` to `t` a frame ends with the events `evs`. -/
def EndsFrame (s t : State) (evs : List Event) : Prop := t.log = s.log ++ evs ∧ t.regs = Regs.zero

theorem settle_finish_endsFrame (cfg : Config) (r : Regs) (status : BitVec 4) (info : BitVec 8) :
    ∃ evs, ∀ s : State, s.regs = r → 33 ≤ s.rspReady → EndsFrame s (settle cfg (finish s status info)) evs := by
  refine ⟨[.rsp (responseFrame { r with ph := .emit, rst := status, rin := info, ec := 0, hs := false })],
    fun s hs hready => ?_⟩
  have hle := responsePayload_length_le (finish s status info).regs
  rw [settle_finish cfg s status info (by rw [responseFrame_length]; omega), finish_regs, hs]
  exact ⟨rfl, rfl⟩

theorem settle_askDigest_endsFrame (cfg : Config) {r : Regs} (h : DigestReady r) (c : DigestChoice) :
    ∃ evs, ∀ (s : State) (q : List DigestChoice), s.regs = r → s.digQ = c :: q → 33 ≤ s.rspReady →
      EndsFrame s (settle cfg (askDigest s)) evs := by
  cases c with
  | err =>
    refine ⟨[.dreq (entropyHeld r), .drsp none, .rsp (oneBeat (r.opr ++ (statusFault ++ Cause.digestFail.code)))],
      fun s q hs hq hready => ?_⟩
    rw [settle_askDigest_fail cfg s q hq (by omega), hs]
    exact ⟨rfl, rfl⟩
  | ok =>
    obtain ⟨n, g, hg⟩ := settle_askDigest_of_leading_bits h (cfg.sha256 (entropyHeld r))
    refine ⟨[.dreq (entropyHeld r), .drsp (some (cfg.sha256 (entropyHeld r)).toList), .rsp g],
      fun s q hs hq hready => ?_⟩
    rw [hg cfg s q hs hq hready rfl]
    exact ⟨rfl, rfl⟩

/-- The events of an operation's frame are a function of the configuration and the answers. -/
theorem execUnder_endsFrame (cfg : Config) (i : Instr) (c : DigestChoice) (dq : List DigestChoice) (a : EntropyAnswer)
    (eq : List EntropyAnswer) : ∃ evs, ∀ s : State, s.regs.ph = .idle → 33 ≤ s.rspReady → s.digQ = c :: dq →
      s.entQ = a :: eq → ∃ t, execUnder cfg i s = .next t ∧ EndsFrame s t evs := by
  cases execUnder_outcome i (a :: eq) with
  | finished r evs q status info h =>
    obtain ⟨evs', hend⟩ := settle_finish_endsFrame cfg r status info
    refine ⟨evs ++ evs', fun s hph hready _ hent => ⟨_, h cfg s hph hent, ?_⟩⟩
    obtain ⟨hlog, hregs⟩ := hend (advanced s r evs q) rfl hready
    exact ⟨hlog.trans (List.append_assoc ..), hregs⟩
  | awaitsEntropy r evs heq h => exact absurd heq (List.cons_ne_nil a eq)
  | asksDigest r evs q hready h =>
    obtain ⟨evs', hend⟩ := settle_askDigest_endsFrame cfg hready c
    refine ⟨evs ++ evs', fun s hph hrsp hdig hent => ⟨_, h cfg s hph hent, ?_⟩⟩
    obtain ⟨hlog, hregs⟩ := hend (advanced s r evs q) dq rfl hdig hrsp
    exact ⟨hlog.trans (List.append_assoc ..), hregs⟩

/-- Settles O40: both blocks give the events that are a function of the configuration and the answers. -/
theorem framesLeaveNothingBehind : Obligations.FramesLeaveNothingBehind := by
  intro cfg i s s' hph hph' hready hready' hdig hent hdig' hent'
  obtain ⟨c, dq, hdq⟩ := List.exists_cons_of_ne_nil hdig
  obtain ⟨a, eq, heq⟩ := List.exists_cons_of_ne_nil hent
  obtain ⟨evs, h⟩ := execUnder_endsFrame cfg i c dq a eq
  obtain ⟨t, ht, hlog, hregs⟩ := h s hph hready hdq heq
  obtain ⟨t', ht', hlog', hregs'⟩ := h s' hph' hready' (hdig'.trans hdq) (hent'.trans heq)
  exact ⟨t, t', evs, ht, ht', hlog, hlog', hregs, hregs'⟩

/-! The bits of the digest that matter (R33, R152) -/

/-- The leading bits of a digest are those of its first byte. -/
theorem checksumBits_eq_take_bin {c : Nat} (hc : c ≤ 8) (d : Digest) : checksumBits c d = (bin d[0]).take c := by
  obtain ⟨⟨bs⟩, hlen⟩ := d
  cases bs with
  | nil => exact absurd hlen (by decide)
  | cons b bs =>
    rw [checksumBits, Vector.toList_mk, bitsOf, List.flatMap_cons, List.take_append_of_le_length (by simpa using hc)]
    rfl

theorem take_bin_congr {c : Nat} (hc : c ≤ 8) {x y : Byte} (h : x.toNat / 2 ^ (8 - c) = y.toNat / 2 ^ (8 - c)) :
    (bin x).take c = (bin y).take c := by
  have hbit (z : Byte) (i : Nat) (hi : i < c) : z.getMsbD i = (z.toNat / 2 ^ (8 - c)).testBit (c - 1 - i) := by
    rw [Nat.testBit_div_two_pow, BitVec.getMsbD, BitVec.getLsbD, decide_eq_true (show i < 8 by omega), Bool.true_and]
    congr 1
    omega
  refine List.ext_getElem (by simp) fun i hi _ => ?_
  have hic : i < c := by simp at hi; omega
  simp only [bin, List.getElem_take, List.getElem_map, List.getElem_range, hbit _ i hic, h]

/-- A response does not depend on the digest function (R35). -/
theorem settle_finish_config (cfg cfg' : Config) (s : State) (status : BitVec 4) (info : BitVec 8) :
    settle cfg (finish s status info) = settle cfg' (finish s status info) :=
  (settle_of_emit cfg _ rfl).trans (settle_of_emit cfg' _ rfl).symm

/-- Settles O41: the two functions part at an answered digest request only, and what follows is a function of the
registers and of the leading bits. -/
theorem onlyLeadingDigestBitsMatter : Obligations.OnlyLeadingDigestBitsMatter := by
  intro cfg cfg' i s t t' hagree hph hrsp ht ht'
  cases execUnder_outcome i s.entQ with
  | finished r evs q status info h =>
    obtain rfl := Host.Outcome.next.inj ((h cfg s hph rfl).symm.trans ht)
    obtain rfl := Host.Outcome.next.inj ((h cfg' s hph rfl).symm.trans ht')
    rw [settle_finish_config cfg cfg']
  | awaitsEntropy r evs heq h =>
    obtain rfl := Host.Outcome.next.inj ((h cfg s hph rfl).symm.trans ht)
    obtain rfl := Host.Outcome.next.inj ((h cfg' s hph rfl).symm.trans ht')
    rfl
  | asksDigest r evs q hready h =>
    obtain rfl := Host.Outcome.next.inj ((h cfg s hph rfl).symm.trans ht)
    obtain rfl := Host.Outcome.next.inj ((h cfg' s hph rfl).symm.trans ht')
    rcases hdig : s.digQ with _ | ⟨_ | _, dq⟩
    · rw [settle_askDigest_wait cfg _ (by exact hdig), settle_askDigest_wait cfg' _ (by exact hdig)]
    · have hle := le_of_legalEntropyBytes hready.entropy
      have hlen := entropyHeld_length r hle
      have hbits := hagree (entropyHeld r) (hlen ▸ hready.entropy)
      rw [hlen] at hbits
      have hsum : checksumBits (r.el.toNat / 4) (cfg.sha256 (entropyHeld r)) =
          checksumBits (r.el.toNat / 4) (cfg'.sha256 (entropyHeld r)) := by
        rw [checksumBits_eq_take_bin (by omega), checksumBits_eq_take_bin (by omega), take_bin_congr (by omega) hbits]
      obtain ⟨n, g, hg⟩ := settle_askDigest_of_leading_bits hready (cfg'.sha256 (entropyHeld r))
      rw [hg cfg (advanced s r evs q) dq rfl hdig hrsp hsum, hg cfg' (advanced s r evs q) dq rfl hdig hrsp rfl]
      simp [advanced, afterFrame]
    · rw [settle_askDigest_err cfg _ dq (by exact hdig), settle_askDigest_err cfg' _ dq (by exact hdig), raise,
        settle_finish_config cfg cfg']

end Sys2Proof.Machine

/-! SUPPORT. State proofs, part 8 (spec/10_state.md R35, R42, R222): a host that stops reading in the middle of a
response. -/

namespace Sys2Proof.Machine

/-- A finished operation whose response the host does not take whole. -/
theorem emitSteps_finish_part (s : State) (status : BitVec 4) (info : BitVec 8)
    (h : s.rspReady ≤ (responsePayload (finish s status info).regs).length) :
    emitSteps 33 (finish s status info) = { finish s status info with
      regs := regsAt (finish s status info).regs s.rspReady
      rspReady := 0
      rspSent := (responseFrame (finish s status info).regs).take s.rspReady } := by
  have hle := responsePayload_length_le (finish s status info).regs
  simpa using emitSteps_part 33 (finish s status info) (finish s status info).regs 0 rfl rfl rfl (by simpa using h) rfl
    (h.trans (hle.trans (by decide)))

/-- The response of an answered `ENC` or `GEN` (R71, R75, R90). -/
theorem responseFrame_concludeDigest_words (s : State) (hop : s.regs.opr = opEnc ∨ s.regs.opr = opGen)
    (hl : legalEntropyBytes s.regs.el.toNat = true) :
    responseFrame (concludeDigest s).regs =
      okResponse s.regs.opr ((wordsOf (entropyHeld s.regs) s.regs.dg).map (BitVec.setWidth 16)) := by
  have hle := le_of_legalEntropyBytes hl
  have hlen : (wordsOf (entropyHeld s.regs) s.regs.dg).length = 3 * s.regs.el.toNat / 4 := by
    rw [wordsOf_length, entropyHeld_length s.regs hle]
  rw [concludeDigest_words s hop]
  refine responseFrame_words _ _ rfl hop ?_ ?_
  · refine indicesHeld_fill { s.regs with wc := BitVec.ofNat 5 (3 * s.regs.el.toNat / 4) } _ (by omega) ?_
    rw [hlen, BitVec.toNat_ofNat]
    omega
  · rw [hlen]
    change statusOk ++ BitVec.ofNat 8 (3 * s.regs.el.toNat / 4) = _
    rcases legalEntropyBytes_cases hl with h | h | h | h | h <;> rw [h] <;> decide

/-- An answered `ENC` or `GEN` whose response the host does not take whole: the block stays in `EMIT` (R222). -/
theorem settle_askDigest_words_part (cfg : Config) (s : State) (q : List DigestChoice) (h : s.digQ = .ok :: q)
    (hop : s.regs.opr = opEnc ∨ s.regs.opr = opGen) (hl : legalEntropyBytes s.regs.el.toNat = true)
    (hready : s.rspReady ≤ 3 * s.regs.el.toNat / 4) {t : State} (ht : settle cfg (askDigest s) = t) :
    t.regs.ph = .emit ∧ t.rspReady = 0 ∧
      t.rspSent = (okResponse s.regs.opr
        ((wordsOf (entropyHeld s.regs) (cfg.sha256 (entropyHeld s.regs))).map (BitVec.setWidth 16))).take s.rspReady ∧
      t.log = s.log ++ [.dreq (entropyHeld s.regs), .drsp (some (cfg.sha256 (entropyHeld s.regs)).toList)] := by
  have hle := le_of_legalEntropyBytes hl
  have hframe := responseFrame_concludeDigest_words { askDigest s with
    digQ := q
    log := (askDigest s).log ++ [.drsp (some (cfg.sha256 (entropyHeld s.regs)).toList)]
    regs := { (askDigest s).regs with dg := cfg.sha256 (entropyHeld s.regs) } } hop hl
  have hlen := congrArg List.length hframe
  rw [concludeDigest_words _ (by exact hop)] at hframe hlen
  rw [settle_askDigest_ok cfg s q h, concludeDigest_words _ (by exact hop), emitSteps_finish_part] at ht
  · subst ht
    exact ⟨regsAt_ph _ _, rfl, congrArg (List.take s.rspReady) hframe, by simp⟩
  · simp [okResponse, entropyHeld] at hlen ⊢
    omega

theorem startEnc_byteBeats {e : List Byte} (h : legalEntropyBytes e.length = true) (s : State) :
    startEnc 0 (byteBeats e) s = askDigest s := by
  have hmod : e.length % 4 = 0 := by rcases legalEntropyBytes_cases h with h | h | h | h | h <;> rw [h]
  rw [startEnc, encBad_byteBeats]
  simp [hmod, h]

/-- Settles O22: the frame passes `ENC`'s checks, its request is answered, and the response is sent in part. -/
theorem encResponseWaitsForHost : Obligations.EncResponseWaitsForHost := by
  intro e s q hph hl hdig hready
  have hle := le_of_legalEntropyBytes hl
  have hheld : entropyHeld (encRegs 0 (byteBeats e)) = e := by
    rw [entropyHeld_encRegs 0 _ (by simpa using hle), byteBeats_map]
  have hel : (encRegs 0 (byteBeats e)).el.toNat = e.length := by
    simp [encRegs]; omega
  refine ⟨settle platformConfig (askDigest (received (encode (.enc 0 (byteBeats e))) (encRegs 0 (byteBeats e)) s)),
    ?_, ?_⟩
  · rw [exec_eq_execUnder, execUnder, execEncUnder, whenIdle, if_pos hph, startEnc_byteBeats hl]
  · obtain ⟨hemit, hzero, hsent, hlog⟩ := settle_askDigest_words_part platformConfig
      (received (encode (.enc 0 (byteBeats e))) (encRegs 0 (byteBeats e)) s) q hdig (.inl rfl) (by exact hel ▸ hl)
      (by rw [received_regs, hel]; exact hready) rfl
    rw [received_regs, hheld] at hsent hlog
    exact ⟨hemit, hzero, hsent, by rw [hlog]; simp⟩

end Sys2Proof.Machine

/-! SUPPORT. Memory proofs, part 1 (spec/20_memory.md R42, R45, R52, R54, R56; spec/60_exceptions.md R204): what an
operation and a step leave alone. -/

namespace Sys2Proof.Machine

/-! A block that is not idle (R42, R52) -/

theorem execUnder_of_busy (cfg : Config) (i : Instr) (s : State) (h : s.regs.ph ≠ .idle) :
    execUnder cfg i s = .next s := by
  cases i <;> exact if_neg h

/-- Outside `IDLE` and `RECV` the sequencer accepts no request beat (R42). -/
theorem seqStep_reqQ_of_not_ready (cfg : Config) (s : State) (h : reqReady s = false) :
    (seqStep cfg s).reqQ = s.reqQ := by
  cases hph : s.regs.ph with
  | idle => simp [reqReady, hph] at h
  | recv => simp [reqReady, hph] at h
  | rngw =>
    obtain ⟨⟨hreq, -⟩, -⟩ := entropyStep_keeps s
    rw [seqStep_of_rngw cfg s hph, hreq]
  | hashw =>
    obtain ⟨⟨hreq, -⟩, -⟩ := digestStep_keeps cfg s
    rw [seqStep_of_hashw cfg s hph, hreq]
  | emit =>
    obtain ⟨⟨hreq, -⟩, -⟩ := emitStep_keeps s
    rw [seqStep_of_emit cfg s hph, hreq]

/-- Settles O11: a busy block's `exec` is the identity, and its step is the sequencer's, which reads the request channel
in `IDLE` and `RECV` only. -/
theorem busyBlockTakesNoFrame : Obligations.BusyBlockTakesNoFrame := by
  refine ⟨fun i s hph => (exec_eq_execUnder i s).trans (execUnder_of_busy _ i s hph), fun s hr he hready => ?_⟩
  have hph : s.regs.ph ≠ .idle := fun hph => by simp [reqReady, hph] at hready
  exact ⟨_, step_of_sequencer s hr he (.inl hph), seqStep_reqQ_of_not_ready platformConfig s hready⟩

/-! The frame of an operation (R45, R54) -/

/-- Dispatch uses no answer of the agents, and comes to an entropy request for `GEN` only (R31). -/
theorem dispatch_keeps (s : State) :
    Keeps s (dispatch s) ∧ (dispatch s).digQ = s.digQ ∧ (dispatch s).entQ = s.entQ ∧
      ((dispatch s).regs.ph = .rngw → s.regs.opr = opGen) := by
  unfold dispatch
  simp only
  split_ifs with hill hbad henc hea hel hgen hstr hwords
  · exact ⟨raise_keeps s _, rfl, rfl, nofun⟩
  · exact ⟨raise_keeps s _, rfl, rfl, nofun⟩
  · exact ⟨raise_keeps s _, rfl, rfl, nofun⟩
  · exact ⟨askDigest_keeps s, rfl, rfl, nofun⟩
  · exact ⟨raise_keeps s _, rfl, rfl, nofun⟩
  · exact ⟨askEntropy_keeps { s with regs := { s.regs with el := BitVec.ofNat 6 (s.regs.str.toNat / 8) } },
      rfl, rfl, fun _ => hgen⟩
  · exact ⟨raise_keeps s _, rfl, rfl, nofun⟩
  · exact ⟨noValue_keeps s, rfl, rfl, nofun⟩
  · exact ⟨askDigest_keeps { s with regs := reconstruct (indicesHeld s.regs) s.regs }, rfl, rfl, nofun⟩

/-- Only a `GEN` frame loads the opcode of `GEN` (R68). -/
theorem gen_of_loadedRegs_opr {i : Instr} (h : (loadedRegs i).opr = opGen) :
    ∃ mbz strength extra, i = .gen mbz strength extra := by
  cases i with
  | gen mbz strength extra => exact ⟨mbz, strength, extra, rfl⟩
  | enc mbz bytes => exact absurd (a := opEnc = opGen) h (by decide)
  | dec mbz tokens => exact absurd (a := opDec = opGen) h (by decide)
  | val mbz tokens => exact absurd (a := opVal = opGen) h (by decide)

/-- An idle block's operation, under any configuration: reception and dispatch use no answer, `settle` uses at most one
of each unit. -/
theorem execUnder_keeps {cfg : Config} {i : Instr} {s t : State} (h : execUnder cfg i s = .next t) :
    Keeps s t ∧ (t.digQ = s.digQ ∨ t.digQ = s.digQ.tail) ∧
      (t.entQ = s.entQ ∨ (∃ mbz strength extra, i = .gen mbz strength extra) ∧ t.entQ = s.entQ.tail) := by
  by_cases hph : s.regs.ph = .idle
  · rw [execUnder_of_idle cfg i s hph] at h
    obtain rfl := Host.Outcome.next.inj h
    obtain ⟨hd, hdig, hent, hgen⟩ := dispatch_keeps (received (encode i) (loadedRegs i) s)
    obtain ⟨hs, hdig', hent'⟩ := settle_keeps cfg (dispatch (received (encode i) (loadedRegs i) s))
    rw [hdig] at hdig'
    rw [hent] at hent'
    exact ⟨((received_keeps _ _ s).trans hd).trans hs, hdig',
      hent'.imp_right fun ⟨hrngw, htail⟩ => ⟨gen_of_loadedRegs_opr (hgen hrngw), htail⟩⟩
  · rw [execUnder_of_busy cfg i s hph] at h
    obtain rfl := Host.Outcome.next.inj h
    exact ⟨Keeps.refl s, .inl rfl, .inl rfl⟩

/-- Settles O21: `exec` is `execUnder` at the platform's configuration. -/
theorem execFrame : Obligations.ExecFrame := by
  intro i s t h
  obtain ⟨⟨hreq, henv, hrst, hseen, hlog, hready⟩, hdig, hent⟩ := execUnder_keeps ((exec_eq_execUnder i s).symm.trans h)
  exact ⟨hreq, henv, hrst, hseen, hdig, hent, hlog, hready⟩

/-! Lanes (R56, R204) -/

/-- What a lane's step can be: no such lane, and nothing changes, or the lane's own step, written to its place. -/
theorem laneStep_cases {cfg : Config} {k : Nat} {p p' : Platform} (h : laneStep cfg k p = .next p') :
    (p.lanes[k]? = none ∧ p' = p) ∨
      ∃ s t, p.lanes[k]? = some s ∧ stepUnder cfg s = .next t ∧ p' = ⟨p.lanes.set k t⟩ := by
  unfold laneStep at h
  cases hk : p.lanes[k]? with
  | none =>
    simp only [hk, Host.Outcome.next.injEq] at h
    exact .inl ⟨rfl, h.symm⟩
  | some s =>
    cases hs : stepUnder cfg s with
    | next t =>
      simp only [hk, hs, Host.Outcome.next.injEq] at h
      exact .inr ⟨s, t, rfl, hs, h.symm⟩
    | fault r => exact nomatch r
    | refused r => simp [hk, hs] at h

/-- Settles O42: writing the place of lane `k` leaves every other place, and what is written there is the step of what
stood there. -/
theorem lanesShareNothing : Obligations.LanesShareNothing := by
  intro cfg k p p' h
  rcases laneStep_cases h with ⟨hnone, rfl⟩ | ⟨s, t, hs, ht, rfl⟩
  · exact ⟨fun j _ => rfl, fun s hs => by simp [hnone] at hs⟩
  · refine ⟨fun j hj => List.getElem?_set_ne hj.symm, fun s' hs' => ?_⟩
    obtain rfl : s = s' := Option.some.inj (hs.symm.trans hs')
    obtain ⟨hlt, -⟩ := List.getElem?_eq_some_iff.mp hs
    exact ⟨t, ht, List.getElem?_set_self hlt⟩

end Sys2Proof.Machine

/-! SUPPORT. Memory proofs, part 2 (spec/00_scope.md R14, R15; spec/20_memory.md R49): where each bit of the entropy, the
digest and the indices lies. -/

namespace Sys2Proof.Machine

/-! `uint`, `bin` and slices (R14, R231) -/

@[simp] theorem uint_nil : uint [] = 0 := rfl

theorem uint_snoc (s : List Bool) (b : Bool) : uint (s ++ [b]) = 2 * uint s + b.toNat := by
  simp [uint]

theorem uint_append (s t : List Bool) : uint (s ++ t) = uint s * 2 ^ t.length + uint t := by
  induction t using List.reverseRecOn with
  | nil => simp
  | append_singleton t b ih =>
    rw [← List.append_assoc, uint_snoc, uint_snoc, ih, List.length_append, List.length_singleton, pow_succ]
    ring

theorem uint_lt (s : List Bool) : uint s < 2 ^ s.length := by
  induction s using List.reverseRecOn with
  | nil => simp
  | append_singleton s b ih =>
    have hb : b.toNat ≤ 1 := Bool.toNat_le b
    rw [uint_snoc, List.length_append, List.length_singleton, pow_succ]
    omega

/-- Bit `i` of the number is position `i` from the string's end. -/
theorem uint_testBit (s : List Bool) (i : Nat) : (uint s).testBit i = s.reverse.getD i false := by
  induction s using List.reverseRecOn generalizing i with
  | nil => simp
  | append_singleton s b ih =>
    rw [uint_snoc, ← Nat.bit_val, List.reverse_append, List.reverse_singleton, List.singleton_append]
    cases i with
    | zero => rw [Nat.testBit_bit_zero, List.getD_cons_zero]
    | succ i => rw [Nat.testBit_bit_succ, List.getD_cons_succ, ih]

theorem bin_getD {n : Nat} (v : BitVec n) (i : Nat) : (bin v).getD i false = v.getMsbD i := by
  by_cases hi : i < n <;> simp [bin, hi, BitVec.getMsbD]

theorem uint_bin {n : Nat} (v : BitVec n) : uint (bin v) = v.toNat := by
  refine Nat.eq_of_testBit_eq fun i => ?_
  rw [uint_testBit, BitVec.testBit_toNat]
  by_cases hi : i < n
  · rw [List.getD_reverse i (by simpa using hi), bin_getD, bin_length, BitVec.getLsbD_eq_getMsbD, decide_eq_true hi,
      Bool.true_and]
  · rw [BitVec.getLsbD_of_ge v i (by omega), List.getD_eq_default _ _ (by simp; omega)]

/-- The first `n` positions and the rest are the number's quotient and remainder by the rest's places. -/
theorem uint_div_mod (s : List Bool) (n : Nat) :
    uint s / 2 ^ (s.length - n) = uint (s.take n) ∧ uint s % 2 ^ (s.length - n) = uint (s.drop n) := by
  have happ := uint_append (s.take n) (s.drop n)
  have hlt := uint_lt (s.drop n)
  rw [List.take_append_drop, List.length_drop, Nat.add_comm, Nat.mul_comm] at happ
  rw [List.length_drop] at hlt
  exact (Nat.div_mod_unique (Nat.two_pow_pos _)).mpr ⟨happ.symm, hlt⟩

theorem slice_length (s : List Bool) (a b : Nat) : (slice s a b).length = min (b - a) (s.length - a) := by
  simp [slice]

theorem slice_getD {a b i : Nat} (s : List Bool) (h : i < b - a) :
    (slice s a b).getD i false = s.getD (a + i) false := by
  simp [slice, h]

/-! The bits of the entropy and of the checksum (R15, R47, R48) -/

theorem byte_getMsbD (v : Byte) {i : Nat} (h : i < 8) : v.getMsbD i = v.getLsbD (7 - i) := by
  rw [BitVec.getMsbD, decide_eq_true h, Bool.true_and]

theorem bitsOf_cons (x : Byte) (xs : List Byte) : bitsOf (x :: xs) = bin x ++ bitsOf xs := rfl

theorem bitsOf_getD (b : List Byte) (j : Nat) : (bitsOf b).getD j false = (b.getD (j / 8) 0).getLsbD (7 - j % 8) := by
  induction b generalizing j with
  | nil => simp [bitsOf]
  | cons x xs ih =>
    rw [bitsOf_cons]
    by_cases hj : j < 8
    · rw [List.getD_append _ _ _ _ (by simpa using hj), bin_getD, byte_getMsbD x hj, Nat.div_eq_of_lt hj,
        Nat.mod_eq_of_lt hj, List.getD_cons_zero]
    · have hdiv : j / 8 = (j - 8) / 8 + 1 := by omega
      have hmod : j % 8 = (j - 8) % 8 := by omega
      rw [List.getD_append_right _ _ _ _ (by simpa using hj), bin_length, ih, hdiv, hmod, List.getD_cons_succ]

theorem digest_head (d : Digest) : d.toList.getD 0 0 = d[0] := by
  simp

theorem checksumBits_getD {c i : Nat} (hc : c ≤ 8) (hi : i < c) (d : Digest) :
    (checksumBits c d).getD i false = (d.toList.getD 0 0).getLsbD (7 - i) := by
  have htake : ((bin d[0]).take c).getD i false = (bin d[0]).getD i false := by simp [hi]
  rw [checksumBits_eq_take_bin hc, htake, bin_getD, byte_getMsbD _ (by omega), digest_head]

theorem uint_checksumBits {c : Nat} (hc : c ≤ 8) (d : Digest) :
    uint (checksumBits c d) = (d.toList.getD 0 0).toNat / 2 ^ (8 - c) := by
  obtain ⟨hdiv, -⟩ := uint_div_mod (bin d[0]) c
  rw [bin_length, uint_bin] at hdiv
  rw [checksumBits_eq_take_bin hc, digest_head, hdiv]

/-! The indices (R90) -/

/-- A legal entropy and its checksum are cut into indices with no bit left over (R6). -/
theorem bits_of_legalEntropyBytes {l : Nat} (h : legalEntropyBytes l = true) : 8 * l + l / 4 = 11 * (3 * l / 4) := by
  rcases legalEntropyBytes_cases h with rfl | rfl | rfl | rfl | rfl <;> rfl

theorem three_le_of_legalEntropyBytes {l : Nat} (h : legalEntropyBytes l = true) : 3 ≤ l := by
  rcases legalEntropyBytes_cases h with rfl | rfl | rfl | rfl | rfl <;> decide

theorem concatenatedBits_length {e : List Byte} (h : legalEntropyBytes e.length = true) (d : Digest) :
    (concatenatedBits e d).length = 11 * (3 * e.length / 4) := by
  have hle := le_of_legalEntropyBytes h
  rw [concatenatedBits, List.length_append, bitsOf_length, checksumBits_length _ _ (by omega),
    bits_of_legalEntropyBytes h]

theorem wordsOf_getD_toNat {e : List Byte} {k : Nat} (hk : k < 3 * e.length / 4) (d : Digest) :
    ((wordsOf e d).getD k 0).toNat = uint (slice (concatenatedBits e d) (11 * k) (11 * k + 11)) := by
  have hlt := uint_lt (slice (concatenatedBits e d) (11 * k) (11 * k + 11))
  have hlen : (slice (concatenatedBits e d) (11 * k) (11 * k + 11)).length ≤ 11 := by rw [slice_length]; omega
  have hlt' := hlt.trans_le (Nat.pow_le_pow_right (by decide) hlen)
  simpa [wordsOf, groups, hk] using hlt'

/-- Position `j` of the concatenated string, in its index. -/
theorem wordsOf_getLsbD {e : List Byte} (h : legalEntropyBytes e.length = true) (d : Digest) {j : Nat}
    (hj : j < 11 * (3 * e.length / 4)) :
    ((wordsOf e d).getD (j / 11) 0).getLsbD (10 - j % 11) = (concatenatedBits e d).getD j false := by
  have hlen : (slice (concatenatedBits e d) (11 * (j / 11)) (11 * (j / 11) + 11)).length = 11 := by
    rw [slice_length, concatenatedBits_length h]; omega
  have hpos : 11 - 1 - (10 - j % 11) = j % 11 := by omega
  rw [← BitVec.testBit_toNat, wordsOf_getD_toNat (by omega), uint_testBit, List.getD_reverse _ (by omega), hlen, hpos,
    slice_getD _ (by omega), Nat.div_add_mod]

/-- Position `j` of the concatenated string, in the entropy or in the digest. -/
theorem concatenatedBits_getD {e : List Byte} (h : legalEntropyBytes e.length = true) (d : Digest) {j : Nat}
    (hj : j < 11 * (3 * e.length / 4)) :
    (concatenatedBits e d).getD j false =
      if j < 8 * e.length then (e.getD (j / 8) 0).getLsbD (7 - j % 8)
      else (d.toList.getD 0 0).getLsbD (7 - (j - 8 * e.length)) := by
  have hle := le_of_legalEntropyBytes h
  rw [concatenatedBits]
  split_ifs with hin
  · rw [List.getD_append _ _ _ _ (by simpa using hin), bitsOf_getD]
  · rw [List.getD_append_right _ _ _ _ (by simpa using hin), bitsOf_length, checksumBits_getD (by omega) (by omega)]

theorem exists_concatenatedBits_eq {e : List Byte} (h : 3 ≤ e.length) (d : Digest) :
    ∃ s, concatenatedBits e d = bin (e.getD 0 0) ++ (bin (e.getD 1 0) ++ (bin (e.getD 2 0) ++ s)) := by
  match e, h with
  | x :: y :: z :: rest, _ =>
    exact ⟨bitsOf rest ++ checksumBits ((x :: y :: z :: rest).length / 4) d, by
      simp [concatenatedBits, bitsOf_cons]⟩

theorem wordsOf_first {e : List Byte} (h : 3 ≤ e.length) (d : Digest) :
    ((wordsOf e d).getD 0 0).toNat = (e.getD 0 0).toNat * 8 + (e.getD 1 0).toNat / 32 := by
  obtain ⟨s, hs⟩ := exists_concatenatedBits_eq h d
  have hslice : slice (concatenatedBits e d) (11 * 0) (11 * 0 + 11) = bin (e.getD 0 0) ++ (bin (e.getD 1 0)).take 3 := by
    simp [hs, slice, List.take_append]
  obtain ⟨hdiv, -⟩ := uint_div_mod (bin (e.getD 1 0)) 3
  rw [wordsOf_getD_toNat (by omega), hslice, uint_append, uint_bin, ← hdiv, uint_bin]
  simp

theorem wordsOf_second {e : List Byte} (h : 3 ≤ e.length) (d : Digest) :
    ((wordsOf e d).getD 1 0).toNat = (e.getD 1 0).toNat % 32 * 64 + (e.getD 2 0).toNat / 4 := by
  obtain ⟨s, hs⟩ := exists_concatenatedBits_eq h d
  have hslice : slice (concatenatedBits e d) (11 * 1) (11 * 1 + 11) =
      (bin (e.getD 1 0)).drop 3 ++ (bin (e.getD 2 0)).take 6 := by
    simp [hs, slice, List.take_append, List.drop_append, List.drop_of_length_le, List.take_of_length_le]
  obtain ⟨-, hmod⟩ := uint_div_mod (bin (e.getD 1 0)) 3
  obtain ⟨hdiv, -⟩ := uint_div_mod (bin (e.getD 2 0)) 6
  rw [wordsOf_getD_toNat (by omega), hslice, uint_append, ← hmod, ← hdiv, uint_bin, uint_bin]
  simp

/-- The checksum is the end of the last index. -/
theorem wordsOf_last {e : List Byte} (h : legalEntropyBytes e.length = true) (d : Digest) :
    ((wordsOf e d).getD (3 * e.length / 4 - 1) 0).toNat % 2 ^ (e.length / 4) =
      (d.toList.getD 0 0).toNat / 2 ^ (8 - e.length / 4) := by
  have hle := le_of_legalEntropyBytes h
  have hthree := three_le_of_legalEntropyBytes h
  have hbits := bits_of_legalEntropyBytes h
  have hlen := concatenatedBits_length h d
  generalize hk : 3 * e.length / 4 - 1 = k
  have hslice : slice (concatenatedBits e d) (11 * k) (11 * k + 11) = (concatenatedBits e d).drop (11 * k) :=
    List.take_of_length_le (by rw [List.length_drop]; omega)
  have hend : (concatenatedBits e d).drop (8 * e.length) = checksumBits (e.length / 4) d :=
    List.drop_left' (bitsOf_length e)
  obtain ⟨-, hmod⟩ := uint_div_mod ((concatenatedBits e d).drop (11 * k)) (11 - e.length / 4)
  rw [List.length_drop, hlen, List.drop_drop, show 11 * k + (11 - e.length / 4) = 8 * e.length by omega, hend,
    show 11 * (3 * e.length / 4) - 11 * k - (11 - e.length / 4) = e.length / 4 by omega] at hmod
  rw [wordsOf_getD_toNat (by omega), hslice, hmod, uint_checksumBits (by omega)]

/-- Settles O32: both places of a position are positions of the concatenated string, and the three formulas are the
numbers that its first, second and last slice spell. -/
theorem indexBitsInTheEntropy : Obligations.IndexBitsInTheEntropy := by
  intro e d h
  have hthree := three_le_of_legalEntropyBytes h
  exact ⟨fun j hj => (wordsOf_getLsbD h d hj).trans (concatenatedBits_getD h d hj), wordsOf_first hthree d,
    wordsOf_second hthree d, wordsOf_last h d⟩

end Sys2Proof.Machine


/-! SUPPORT. Encoding proofs, part 1 (spec/30_encoding.md R60 to R65): frames and their beats, in both directions. -/

namespace Sys2Proof.Machine

/-! Fields put together again (R61 to R65): the other direction of the field laws -/

theorem opField_append_lowField (h : Half) : opField h ++ lowField h = h := BitVec.extractLsb'_append_extractLsb'

theorem genMbzField_append_strengthField (h : Half) : genMbzField h ++ strengthField h = lowField h :=
  BitVec.extractLsb'_append_extractLsb'_eq_extractLsb' rfl

theorem byteData_byteBeat (p : Half) : byteData (byteBeat p) = p := BitVec.extractLsb'_append_extractLsb'

theorem ofBool_getLsbD_eq_extractLsb' {w : Nat} (x : BitVec w) (i : Nat) :
    BitVec.ofBool (x.getLsbD i) = x.extractLsb' i 1 := by
  ext k hk
  obtain rfl : k = 0 := by omega
  simp

theorem tokenData_tokenBeat (p : Half) : tokenData (tokenBeat p) = p :=
  calc p.extractLsb' 12 4 ++ (BitVec.ofBool (p.getLsbD 11) ++ p.extractLsb' 0 11)
    _ = p.extractLsb' 12 4 ++ (p.extractLsb' 11 1 ++ p.extractLsb' 0 11) := by rw [ofBool_getLsbD_eq_extractLsb']
    _ = p.extractLsb' 12 4 ++ p.extractLsb' 0 12 :=
      congrArg (p.extractLsb' 12 4 ++ ·) (BitVec.extractLsb'_append_extractLsb'_eq_extractLsb' rfl)
    _ = p := BitVec.extractLsb'_append_extractLsb'

/-! The header's opcode chooses the operation (R67, R68) -/

theorem decodeWords_of_enc {h : Half} (hop : opField h = opEnc) (ps : List Half) :
    decodeWords h ps = .ok (.enc (lowField h) (ps.map byteBeat)) := if_pos hop

theorem decodeWords_of_dec {h : Half} (hop : opField h = opDec) (ps : List Half) :
    decodeWords h ps = .ok (.dec (lowField h) (ps.map tokenBeat)) := by
  have hne : opDec ≠ opEnc := by decide
  simp [decodeWords, hop, hne]

theorem decodeWords_of_val {h : Half} (hop : opField h = opVal) (ps : List Half) :
    decodeWords h ps = .ok (.val (lowField h) (ps.map tokenBeat)) := by
  have hne : opVal ≠ opEnc ∧ opVal ≠ opDec := by decide
  simp [decodeWords, hop, hne]

theorem decodeWords_of_gen {h : Half} (hop : opField h = opGen) (ps : List Half) :
    decodeWords h ps = .ok (.gen (genMbzField h) (strengthField h) ps) := by
  have hne : opGen ≠ opEnc ∧ opGen ≠ opDec ∧ opGen ≠ opVal := by decide
  simp [decodeWords, hop, hne]

theorem decodeWords_of_reserved {h : Half} (hop : reservedOp (opField h) = true) (ps : List Half) :
    decodeWords h ps = .error (.illegalOp (opField h)) := by
  obtain ⟨⟨⟨henc, hdec⟩, hval⟩, hgen⟩ : ((opField h ≠ opEnc ∧ opField h ≠ opDec) ∧ opField h ≠ opVal) ∧
      opField h ≠ opGen := by simpa [reservedOp] using hop
  simp [decodeWords, henc, hdec, hval, hgen]

/-- An operation's header and payload decode to it: each field is read back from where it was written. -/
theorem decodeWords_headerData_payloadData (i : Instr) : decodeWords (headerData i) (payloadData i) = .ok i := by
  cases i with
  | enc mbz bytes =>
    rw [headerData, payloadData, decodeWords_of_enc (opField_append opEnc mbz), lowField_append,
      Function.LeftInverse.list_map byteBeat_byteData bytes]
  | dec mbz tokens =>
    rw [headerData, payloadData, decodeWords_of_dec (opField_append opDec mbz), lowField_append,
      Function.LeftInverse.list_map tokenBeat_tokenData tokens]
  | val mbz tokens =>
    rw [headerData, payloadData, decodeWords_of_val (opField_append opVal mbz), lowField_append,
      Function.LeftInverse.list_map tokenBeat_tokenData tokens]
  | gen mbz strength extra =>
    rw [headerData, payloadData, decodeWords_of_gen (opField_append opGen _), genMbzField_append,
      strengthField_append]

/-- What decodes to an operation are its header and payload: the fields read cover every bit. -/
theorem headerData_payloadData_of_decodeWords {h : Half} {ps : List Half} {i : Instr}
    (hi : decodeWords h ps = .ok i) : headerData i = h ∧ payloadData i = ps := by
  unfold decodeWords at hi
  split_ifs at hi with henc hdec hval hgen <;> obtain rfl := Except.ok.inj hi
  · exact ⟨by rw [headerData, ← henc, opField_append_lowField], Function.LeftInverse.list_map byteData_byteBeat ps⟩
  · exact ⟨by rw [headerData, ← hdec, opField_append_lowField], Function.LeftInverse.list_map tokenData_tokenBeat ps⟩
  · exact ⟨by rw [headerData, ← hval, opField_append_lowField], Function.LeftInverse.list_map tokenData_tokenBeat ps⟩
  · exact ⟨by rw [headerData, ← hgen, genMbzField_append_strengthField, opField_append_lowField], rfl⟩

/-! A beat stream begins with a frame exactly when the frame can be split off it (R60) -/

theorem splitFrame_markLast_append (d : Half) (ds : List Half) (rest : List Beat) :
    splitFrame (markLast (d :: ds) ++ rest) = some (d :: ds, rest) := by
  induction ds generalizing d with
  | nil => rfl
  | cons d' ds ih => simp [markLast, splitFrame, ih d']

theorem eq_markLast_append_of_splitFrame {bs rest : List Beat} {ds : List Half}
    (h : splitFrame bs = some (ds, rest)) : ds ≠ [] ∧ bs = markLast ds ++ rest := by
  induction bs generalizing ds with
  | nil => exact absurd h nofun
  | cons b bs ih =>
    obtain ⟨data, last⟩ := b
    unfold splitFrame at h
    cases last with
    | true =>
      obtain ⟨rfl, rfl⟩ : [data] = ds ∧ bs = rest := by simpa using h
      exact ⟨List.cons_ne_nil _ _, rfl⟩
    | false =>
      cases hs : splitFrame bs with
      | none => simp [hs] at h
      | some found =>
        obtain ⟨ds', rest'⟩ := found
        obtain ⟨rfl, rfl⟩ : data :: ds' = ds ∧ rest' = rest := by simpa [hs] using h
        obtain ⟨hne, rfl⟩ := ih hs
        obtain ⟨d', ds', rfl⟩ := List.exists_cons_of_ne_nil hne
        exact ⟨List.cons_ne_nil _ _, rfl⟩

theorem splitFrame_eq_some_iff (bs rest : List Beat) (h : Half) (ps : List Half) :
    splitFrame bs = some (h :: ps, rest) ↔ bs = markLast (h :: ps) ++ rest :=
  ⟨fun hs => (eq_markLast_append_of_splitFrame hs).2, fun hbs => hbs ▸ splitFrame_markLast_append h ps rest⟩

/-! The decoder and the encoder -/

/-- Beats decode to an operation and a rest exactly when they are the operation's frame and the rest (R60 to R65). -/
theorem decode_eq_ok_iff_eq_encode_append (bs rest : List Beat) (i : Instr) :
    decode bs = .ok (i, rest) ↔ bs = encode i ++ rest := by
  rw [decode_eq_ok_iff]
  constructor
  · rintro ⟨h, ps, hs, hi⟩
    obtain ⟨rfl, rfl⟩ := headerData_payloadData_of_decodeWords hi
    exact (splitFrame_eq_some_iff _ _ _ _).mp hs
  · exact fun hbs => ⟨headerData i, payloadData i, (splitFrame_eq_some_iff _ _ _ _).mpr hbs,
      decodeWords_headerData_payloadData i⟩

/-- Settles O2: the frame is split off the stream and each of its fields is read back. -/
theorem decodeOfEncode : Obligations.DecodeOfEncode := fun i rest =>
  (decode_eq_ok_iff_eq_encode_append (encode i ++ rest) rest i).mpr rfl

/-- Settles O3: the fields that the decoder reads cover every bit of the frame. -/
theorem encodeOfDecode : Obligations.EncodeOfDecode := fun bs rest i =>
  (decode_eq_ok_iff_eq_encode_append bs rest i).mp

/-- Settles O1: each word is decoded as it stands. -/
theorem specWordsDecode : Obligations.SpecWordsDecode := by
  unfold Obligations.SpecWordsDecode
  decide

end Sys2Proof.Machine

/-! SUPPORT. Encoding proofs, part 2 (spec/30_encoding.md R69): the frames of R69's table, by their raw bits. -/

namespace Sys2Proof.Machine

theorem decode_markLast_of_ok {h : Half} {ps : List Half} {i : Instr} (hi : decodeWords h ps = .ok i) :
    decode (markLast (h :: ps)) = .ok (i, []) :=
  (decode_eq_ok_iff _ _ _).mpr ⟨h, ps, (splitFrame_eq_some_iff _ _ _ _).mpr (List.append_nil _).symm, hi⟩

theorem decode_markLast_of_reserved {h : Half} (hop : reservedOp (opField h) = true) (ps : List Half) :
    decode (markLast (h :: ps)) = .error (.illegalOp (opField h)) := by
  have hs : splitFrame (markLast (h :: ps)) = some (h :: ps, []) :=
    (splitFrame_eq_some_iff _ _ _ _).mpr (List.append_nil _).symm
  simp [decode, hs, decodeWords_of_reserved hop]

/-! Must-be-zero fields in numbers (R61 to R65) -/

theorem lowField_eq_zero_iff (h : Half) : lowField h = 0#12 ↔ h.toNat % 4096 = 0 := by
  rw [← BitVec.toNat_inj, lowField_toNat]; rfl

theorem genMbzField_eq_zero_iff (h : Half) : genMbzField h = 0#3 ↔ h.toNat / 512 % 8 = 0 := by
  rw [← BitVec.toNat_inj, genMbzField_toNat]; rfl

theorem byteBeat_clean_iff (p : Half) : (byteBeat p).clean = true ↔ p.toNat < 256 := by
  rw [ByteBeat.clean, beq_iff_eq, ← BitVec.toNat_inj]
  simp [byteBeat, Nat.shiftRight_eq_div_pow]
  omega

theorem tokenBeat_clean_iff (p : Half) : (tokenBeat p).clean = true ↔ p.toNat < 4096 := by
  rw [TokenBeat.clean, beq_iff_eq, ← BitVec.toNat_inj]
  simp [tokenBeat, Nat.shiftRight_eq_div_pow]
  omega

/-! Well-formed frames of each operation, by raw bits (R69) -/

theorem enc_wellFormed_iff (h : Half) (ps : List Half) :
    (Instr.enc (lowField h) (ps.map byteBeat)).wellFormed = true ↔ h.toNat % 4096 = 0 ∧ ∀ p ∈ ps, p.toNat < 256 := by
  simp [Instr.wellFormed, lowField_eq_zero_iff, byteBeat_clean_iff]

theorem dec_wellFormed_iff (h : Half) (ps : List Half) :
    (Instr.dec (lowField h) (ps.map tokenBeat)).wellFormed = true ↔
      h.toNat % 4096 = 0 ∧ ∀ p ∈ ps, p.toNat < 4096 := by
  simp [Instr.wellFormed, lowField_eq_zero_iff, tokenBeat_clean_iff]

theorem val_wellFormed_iff (h : Half) (ps : List Half) :
    (Instr.val (lowField h) (ps.map tokenBeat)).wellFormed = true ↔
      h.toNat % 4096 = 0 ∧ ∀ p ∈ ps, p.toNat < 4096 := dec_wellFormed_iff h ps

theorem gen_wellFormed_iff (h : Half) (ps : List Half) :
    (Instr.gen (genMbzField h) (strengthField h) ps).wellFormed = true ↔ h.toNat / 512 % 8 = 0 ∧ ps = [] := by
  simp [Instr.wellFormed, genMbzField_eq_zero_iff]

/-- Settles O4, by the opcode: the reserved ones are refused, and for each of the four operations the table's rows are
its must-be-zero fields. -/
theorem everyFrameIsClassified : Obligations.EveryFrameIsClassified := by
  intro h ps
  refine ⟨fun hres => ?_, fun hop => ?_⟩
  · have hreserved : reservedOp (opField h) = true := (reservedOp_eq_true_iff _).mpr (by rwa [opField_toNat])
    rw [decode_markLast_of_reserved hreserved, ← opField_toNat, BitVec.ofNat_toNat, BitVec.setWidth_eq]
  · obtain hn | hn | hn | hn : h.toNat / 4096 = 1 ∨ h.toNat / 4096 = 2 ∨ h.toNat / 4096 = 3 ∨ h.toNat / 4096 = 4 := by
      omega
    · exact ⟨_, decode_markLast_of_ok (decodeWords_of_enc ((opField_eq_iff h opEnc).mpr hn) ps),
        by simp [enc_wellFormed_iff, hn]⟩
    · exact ⟨_, decode_markLast_of_ok (decodeWords_of_dec ((opField_eq_iff h opDec).mpr hn) ps),
        by simp [dec_wellFormed_iff, hn]⟩
    · exact ⟨_, decode_markLast_of_ok (decodeWords_of_val ((opField_eq_iff h opVal).mpr hn) ps),
        by simp [val_wellFormed_iff, hn]⟩
    · exact ⟨_, decode_markLast_of_ok (decodeWords_of_gen ((opField_eq_iff h opGen).mpr hn) ps),
        by simp [gen_wellFormed_iff, hn]⟩

end Sys2Proof.Machine

/-! SUPPORT. Encoding proofs, part 3 (spec/30_encoding.md R70 to R76): the responses. -/

namespace Sys2Proof.Machine

/-- Settles O39: a step of the machine is a step under the platform's configuration. -/
theorem stepKeepsResponsesLegal : Obligations.StepKeepsResponsesLegal := fun s t hinv hlegal h =>
  stepUnder_keeps_responsesLegal platformConfig s t hinv hlegal (stepIsThePlatforms s ▸ h)

end Sys2Proof.Machine

/-! SUPPORT. Encoder proofs, part 1 (spec/40_encoder.md R90, R91, R105, R111): `ENC` and `GEN`, by the answers of the
two units. -/

namespace Sys2Proof.Machine

/-! The checks, in the words of the rules (R6, R69, R91, R105) -/

theorem legalEntropyBytes_iff_mem (l : Nat) : legalEntropyBytes l = true ↔ l ∈ [16, 20, 24, 28, 32] :=
  List.contains_iff_mem

theorem legalStrength_iff_mem (n : Nat) : legalStrength n = true ↔ n ∈ [128, 160, 192, 224, 256] :=
  List.contains_iff_mem

theorem startEnc_eq (mbz : BitVec 12) (bytes : List ByteBeat) (s : State) :
    startEnc mbz bytes s =
      if (Instr.enc mbz bytes).wellFormed = false then raise s .illegalFrame
      else if (bytes.map ByteBeat.byte).length % 4 ≠ 0 then raise s .entropyUnaligned
      else if (bytes.map ByteBeat.byte).length ∉ [16, 20, 24, 28, 32] then raise s .entropyLength
      else askDigest s := by
  simp only [startEnc, encBad_eq_not_wellFormed, legalEntropyBytes_iff_mem, Bool.not_eq_true', List.length_map]

/-- The registers of a `GEN` that asks for entropy: `EL` is the byte count of its strength (R105). -/
def strengthRegs (mbz : BitVec 3) (strength : BitVec 9) (extra : List Half) : Regs :=
  { genRegs mbz strength extra with el := BitVec.ofNat 6 (strength.toNat / 8) }

theorem startGen_received (mbz : BitVec 3) (strength : BitVec 9) (extra : List Half) (f : List Beat) (s : State) :
    startGen mbz strength extra (received f (genRegs mbz strength extra) s) =
      if (Instr.gen mbz strength extra).wellFormed = false then
        raise (received f (genRegs mbz strength extra) s) .illegalFrame
      else if strength.toNat ∉ [128, 160, 192, 224, 256] then
        raise (received f (genRegs mbz strength extra) s) .badStrength
      else askEntropy (received f (strengthRegs mbz strength extra) s) := by
  simp only [startGen, genBad_eq_not_wellFormed mbz strength, legalStrength_iff_mem, Bool.not_eq_true']
  rfl

theorem startGen_of_legal {strength : BitVec 9} (h : legalStrength strength.toNat = true) (f : List Beat) (s : State) :
    startGen 0 strength [] (received f (genRegs 0 strength []) s) =
      askEntropy (received f (strengthRegs 0 strength []) s) := by
  have hwf : (Instr.gen 0 strength []).wellFormed = true := rfl
  have hstr := (legalStrength_iff_mem _).mp h
  rw [startGen_received, hwf, if_neg Bool.noConfusion, if_neg (not_not.mpr hstr)]

theorem execUnder_enc_of_idle (cfg : Config) (mbz : BitVec 12) (bytes : List ByteBeat) {s : State}
    (h : s.regs.ph = .idle) : execUnder cfg (.enc mbz bytes) s =
      .next (settle cfg (startEnc mbz bytes (received (encode (.enc mbz bytes)) (encRegs mbz bytes) s))) := by
  rw [execUnder, execEncUnder, whenIdle, if_pos h]

theorem execUnder_gen_of_idle (cfg : Config) (mbz : BitVec 3) (strength : BitVec 9) (extra : List Half) {s : State}
    (h : s.regs.ph = .idle) : execUnder cfg (.gen mbz strength extra) s =
      .next (settle cfg (startGen mbz strength extra
        (received (encode (.gen mbz strength extra)) (genRegs mbz strength extra) s))) := by
  rw [execUnder, execGenUnder, whenIdle, if_pos h]

theorem received_eq_advanced (f : List Beat) (r : Regs) (s : State) :
    received f r s = advanced s r [.req f] s.entQ := rfl

/-- A fault found in a received frame, its beat taken by the host (R186). -/
theorem settle_raise_received (cfg : Config) (f : List Beat) {r : Regs} {op : BitVec 4} (hop : r.opr = op) (s : State)
    (c : Cause) (hready : 1 ≤ s.rspReady) : settle cfg (raise (received f r s) c) =
      afterFrame s 1 [.req f, .rsp (oneBeat (op ++ (statusFault ++ c.code)))] := by
  subst hop
  rw [settle_raise cfg _ c (by exact hready)]
  simp [afterFrame, received]

/-! The digest request for the entropy `e`, by its answer: what `ENC` and `GEN` share (R33, R111) -/

/-- The registers hold the entropy `e` of an `ENC` or a `GEN`, whose opcode is `op`. -/
structure HoldsEntropy (op : BitVec 4) (e : List Byte) (r : Regs) : Prop where
  operation : op = opEnc ∨ op = opGen
  opcode : r.opr = op
  legal : legalEntropyBytes e.length = true
  count : r.el.toNat = e.length
  held : entropyHeld r = e

section
variable (cfg : Config) (s : State) {op : BitVec 4} {e : List Byte} {r : Regs} (h : HoldsEntropy op e r)
  (evs : List Event) (eq : List EntropyAnswer) (q : List DigestChoice)
include h

theorem settle_askDigest_entropy_wait (hdig : s.digQ = []) :
    settle cfg (askDigest (advanced s r evs eq)) =
      { s with regs := { r with ph := .hashw }, log := s.log ++ (evs ++ [.dreq e]), entQ := eq } := by
  rw [settle_askDigest_wait cfg _ (by exact hdig)]
  simp [askDigest, advanced, h.held]

theorem settle_askDigest_entropy_err (hdig : s.digQ = .err :: q) (hready : 1 ≤ s.rspReady) :
    settle cfg (askDigest (advanced s r evs eq)) =
      { afterFrame s 1 (evs ++ [.dreq e, .drsp none, .rsp (oneBeat (op ++ (statusFault ++ Cause.digestFail.code)))])
        with entQ := eq, digQ := q } := by
  rw [settle_askDigest_fail cfg _ q (by exact hdig) (by exact hready)]
  simp [afterFrame, advanced, h.held, h.opcode]

theorem settle_askDigest_entropy_ok (hdig : s.digQ = .ok :: q) (hready : 33 ≤ s.rspReady) :
    settle cfg (askDigest (advanced s r evs eq)) =
      { afterFrame s (3 * e.length / 4 + 1) (evs ++ [.dreq e, .drsp (some (cfg.sha256 e).toList),
          .rsp (okResponse op ((wordsOf e (cfg.sha256 e)).map (BitVec.setWidth 16)))])
        with entQ := eq, digQ := q } := by
  obtain ⟨hop, rfl, hl, hel, hheld⟩ := h
  have hle := le_of_legalEntropyBytes hl
  have hbeats : 3 * r.el.toNat / 4 + 1 ≤ s.rspReady := by omega
  rw [settle_askDigest_words cfg (advanced s r evs eq) q hdig hop (by exact hel ▸ hl) hbeats]
  simp [afterFrame, advanced, hheld, hel]

end

/-! `ENC` (R91) -/

theorem holdsEntropy_encRegs (mbz : BitVec 12) {bytes : List ByteBeat}
    (h : legalEntropyBytes (bytes.map ByteBeat.byte).length = true) :
    HoldsEntropy opEnc (bytes.map ByteBeat.byte) (encRegs mbz bytes) := by
  have hle : bytes.length ≤ 32 := List.length_map (as := bytes) ByteBeat.byte ▸ le_of_legalEntropyBytes h
  refine ⟨.inl rfl, rfl, h, ?_, entropyHeld_encRegs mbz bytes hle⟩
  simp [encRegs]
  omega

/-- The indices on the response channel, each from its eleven bits (R71, R90). -/
theorem wordsOf_map_setWidth (e : List Byte) (d : Digest) :
    (wordsOf e d).map (BitVec.setWidth 16) = (List.range (3 * e.length / 4)).map fun i =>
      BitVec.ofNat 16 (uint (slice (concatenatedBits e d) (11 * i) (11 * i + 11))) := by
  simp only [wordsOf, groups, List.map_map]
  refine List.map_congr_left fun i _ => BitVec.eq_of_toNat_eq ?_
  have hlen : (slice (concatenatedBits e d) (11 * i) (11 * i + 11)).length ≤ 11 := by rw [slice_length]; omega
  have hlt := (uint_lt _).trans_le (Nat.pow_le_pow_right (by decide) hlen)
  simp [Nat.mod_eq_of_lt hlt]

/-- Settles O17: the checks are in the rule's order, and a legal frame's digest request goes by its answer. -/
theorem encFollowsItsRule : Obligations.EncFollowsItsRule := by
  intro mbz bytes s hph hready
  have hfault (c : Cause) := settle_raise_received platformConfig (encode (.enc mbz bytes))
    (r := encRegs mbz bytes) (op := opEnc) rfl s c (by omega)
  rw [exec_eq_execUnder, execUnder_enc_of_idle _ mbz bytes hph, startEnc_eq]
  dsimp only
  split_ifs with hwf hmod hlen
  · -- `ILLEGAL_FRAME`
    rw [hfault]; rfl
  · -- `ENTROPY_UNALIGNED`
    rw [hfault]; rfl
  · -- a legal frame
    have h := holdsEntropy_encRegs mbz ((legalEntropyBytes_iff_mem _).mpr hlen)
    rw [received_eq_advanced]
    rcases hdig : s.digQ with _ | ⟨_ | _, q⟩
    · rw [settle_askDigest_entropy_wait _ _ h _ _ hdig]; rfl
    · rw [settle_askDigest_entropy_ok _ _ h _ _ _ hdig hready, wordsOf_map_setWidth]; rfl
    · rw [settle_askDigest_entropy_err _ _ h _ _ _ hdig (by omega)]; rfl
  · -- `ENTROPY_LENGTH`
    rw [hfault]; rfl

/-! `GEN` (R105) -/

/-- The registers `r` in `RNGW` with the drawn bytes `e` in the buffer (R32). -/
def withDraw (r : Regs) (e : List Byte) : Regs := { r with ph := .rngw, eb := fill r.eb e }

section
variable (cfg : Config) (s : State) (f : List Beat) {r : Regs} {l : Nat} (hel : r.el.toNat = l)
  (eq : List EntropyAnswer)
include hel

theorem settle_askEntropy_received_wait (hent : s.entQ = []) :
    settle cfg (askEntropy (received f r s)) =
      { s with regs := { r with ph := .rngw }, log := s.log ++ [.req f, .ereq l] } := by
  rw [settle_askEntropy_wait cfg _ (by exact hent)]
  simp [askEntropy, received, hel]

theorem settle_askEntropy_received_err (hop : r.opr = opGen) (hent : s.entQ = .err :: eq) (hready : 1 ≤ s.rspReady) :
    settle cfg (askEntropy (received f r s)) =
      { afterFrame s 1 [.req f, .ereq l, .ersp none,
          .rsp (oneBeat (opGen ++ (statusFault ++ Cause.entropySourceFail.code)))] with entQ := eq } := by
  rw [settle_askEntropy_err cfg _ eq (by exact hent), settle_raise cfg _ _ (by exact hready)]
  simp [afterFrame, askEntropy, received, hel, hop]

theorem settle_askEntropy_received_ok (draw : Vector Byte 32) (hent : s.entQ = .ok draw :: eq) :
    settle cfg (askEntropy (received f r s)) =
      settle cfg (askDigest (advanced s (withDraw r (draw.toList.take l))
        [.req f, .ereq l, .ersp (some (draw.toList.take l))] eq)) := by
  rw [settle_askEntropy_ok cfg _ draw eq (by exact hent)]
  simp [advanced, askEntropy, received, hel, withDraw]

end

theorem length_take_draw {strength : BitVec 9} (h : legalStrength strength.toNat = true) (draw : Vector Byte 32) :
    (draw.toList.take (strength.toNat / 8)).length = strength.toNat / 8 := by
  simpa using le_of_legalEntropyBytes (strength_bytes h).2

theorem legalEntropyBytes_take_draw {strength : BitVec 9} (h : legalStrength strength.toNat = true)
    (draw : Vector Byte 32) : legalEntropyBytes (draw.toList.take (strength.toNat / 8)).length = true := by
  rw [length_take_draw h]
  exact (strength_bytes h).2

/-- The draw of a legal strength is a legal entropy, which `GEN` holds as `ENC` would (R105, R111). -/
theorem holdsEntropy_withDraw (mbz : BitVec 3) {strength : BitVec 9} (extra : List Half)
    (h : legalStrength strength.toNat = true) (draw : Vector Byte 32) :
    HoldsEntropy opGen (draw.toList.take (strength.toNat / 8))
      (withDraw (strengthRegs mbz strength extra) (draw.toList.take (strength.toNat / 8))) := by
  have hl := legalEntropyBytes_take_draw h draw
  have hcount := (strength_bytes h).1.trans (length_take_draw h draw).symm
  exact ⟨.inr rfl, rfl, hl, hcount,
    entropyHeld_fill { strengthRegs mbz strength extra with ph := .rngw } _ (le_of_legalEntropyBytes hl) hcount⟩

/-- Settles O18: after the checks the entropy request goes by its answer, and the digest request for the draw by its. -/
theorem genFollowsItsRule : Obligations.GenFollowsItsRule := by
  intro mbz strength extra s hph hready
  have hfault (c : Cause) := settle_raise_received platformConfig (encode (.gen mbz strength extra))
    (r := genRegs mbz strength extra) (op := opGen) rfl s c (by omega)
  rw [exec_eq_execUnder, execUnder_gen_of_idle _ mbz strength extra hph, startGen_received]
  dsimp only
  split_ifs with hwf hstr
  · -- `ILLEGAL_FRAME`
    rw [hfault]; rfl
  · -- a legal frame
    have hlegal := (legalStrength_iff_mem _).mpr hstr
    obtain ⟨hel, -⟩ := strength_bytes hlegal
    rcases hent : s.entQ with _ | ⟨draw | _, eq⟩
    · rw [settle_askEntropy_received_wait _ _ _ hel hent]; rfl
    · have h := holdsEntropy_withDraw mbz extra hlegal draw
      rw [settle_askEntropy_received_ok _ _ _ hel _ _ hent]
      rcases hdig : s.digQ with _ | ⟨_ | _, q⟩
      · rw [settle_askDigest_entropy_wait _ _ h _ _ hdig, hdig]; rfl
      · rw [settle_askDigest_entropy_ok _ _ h _ _ _ hdig hready, wordsOf_map_setWidth]
        rw [concatenatedBits, length_take_draw hlegal]; rfl
      · rw [settle_askDigest_entropy_err _ _ h _ _ _ hdig (by omega)]; rfl
    · rw [settle_askEntropy_received_err _ _ _ hel _ rfl hent (by omega)]; rfl
  · -- `BAD_STRENGTH`
    rw [hfault]; rfl

end Sys2Proof.Machine

/-! SUPPORT. Encoder proofs, part 2 (spec/00_scope.md R14, R15; spec/40_encoder.md R90): strings cut into groups and put
together again. -/

namespace Sys2Proof.Machine

theorem bin_ofNat_uint {k : Nat} {s : List Bool} (h : s.length = k) : bin (BitVec.ofNat k (uint s)) = s := by
  subst h
  refine List.ext_getElem (bin_length _) fun i hi hi' => ?_
  have hpos : s.length - 1 - (s.length - 1 - i) = i := by omega
  rw [← List.getD_eq_getElem _ false hi, bin_getD, BitVec.getMsbD, BitVec.getLsbD_ofNat, uint_testBit,
    List.getD_reverse _ (by omega), hpos, List.getD_eq_getElem _ _ hi']
  simp [hi']
  omega

theorem groups_succ (k n : Nat) (s : List Bool) : groups k (n + 1) s = s.take k :: groups k n (s.drop k) := by
  simp [groups, slice, List.range_succ_eq_map, Nat.mul_succ, Nat.add_comm]

theorem length_of_mem_groups {k n : Nat} {s g : List Bool} (h : s.length = k * n) (hg : g ∈ groups k n s) :
    g.length = k := by
  obtain ⟨i, hi, rfl⟩ := List.mem_map.mp hg
  have hle : k * (i + 1) ≤ k * n := Nat.mul_le_mul_left k (List.mem_range.mp hi)
  rw [slice_length, h]
  rw [Nat.mul_succ] at hle
  omega

theorem groups_flatten {k n : Nat} {s : List Bool} (h : s.length = k * n) : (groups k n s).flatten = s := by
  induction n generalizing s with
  | zero => simpa [groups] using (List.eq_nil_of_length_eq_zero h).symm
  | succ n ih =>
    rw [groups_succ, List.flatten_cons, ih (by rw [List.length_drop, h, Nat.mul_succ, Nat.add_sub_cancel]),
      List.take_append_drop]

theorem groups_flatMap {α : Type} {k : Nat} {f : α → List Bool} (hf : ∀ a, (f a).length = k) (xs : List α) :
    groups k xs.length (xs.flatMap f) = xs.map f := by
  induction xs with
  | nil => rfl
  | cons x xs ih =>
    rw [List.length_cons, groups_succ, List.flatMap_cons, List.take_left' (hf x), List.drop_left' (hf x), ih,
      List.map_cons]

theorem bytesOf_bitsOf (b : List Byte) : bytesOf (bitsOf b) = b := by
  have hlen : (bitsOf b).length / 8 = b.length := by rw [bitsOf_length]; omega
  rw [bytesOf, hlen, bitsOf, groups_flatMap bin_length, List.map_map]
  simp [Function.comp_def, uint_bin]

/-- The indices of a string of whole indices spell it again (R90, R123). -/
theorem indexBits_map_groups {n : Nat} {s : List Bool} (h : s.length = 11 * n) :
    indexBits ((groups 11 n s).map fun g => BitVec.ofNat 11 (uint g)) = s := by
  have hbin : (groups 11 n s).map (fun g => bin (BitVec.ofNat 11 (uint g))) = groups 11 n s :=
    (List.map_congr_left fun g hg => bin_ofNat_uint (length_of_mem_groups h hg)).trans (List.map_id _)
  rw [indexBits, List.flatMap_map, List.flatMap_def, hbin, groups_flatten h]

/-! The indices of an entropy, read back (R90, R123, R124) -/

section
variable {e : List Byte} (h : legalEntropyBytes e.length = true) (d : Digest)
include h

theorem indexBits_wordsOf : indexBits (wordsOf e d) = bitsOf e ++ checksumBits (e.length / 4) d :=
  indexBits_map_groups (concatenatedBits_length h d)

theorem splitPoint_wordsOf : splitPoint (wordsOf e d).length = (bitsOf e).length := by
  rw [wordsOf_length, bitsOf_length]
  rcases legalEntropyBytes_cases h with h | h | h | h | h <;> rw [h] <;> rfl

theorem legalWordCount_wordsOf : legalWordCount (wordsOf e d).length = true := by
  rw [wordsOf_length]
  rcases legalEntropyBytes_cases h with h | h | h | h | h <;> rw [h] <;> rfl

theorem entropyOf_wordsOf : entropyOf (wordsOf e d) = e := by
  rw [entropyOf, indexBits_wordsOf h, splitPoint_wordsOf h, List.take_left, bytesOf_bitsOf]

theorem claimedChecksum_wordsOf : claimedChecksum (wordsOf e d) = uint (checksumBits (e.length / 4) d) := by
  rw [claimedChecksum, indexBits_wordsOf h, splitPoint_wordsOf h, List.drop_left]

end

end Sys2Proof.Machine

/-! SUPPORT. Encoder proofs, part 3 (spec/40_encoder.md R100, R110, R111): `GEN` against `ENC` and `VAL`, and the known
vector. -/

namespace Sys2Proof.Machine

/-! The answer of `ENC` and of `GEN` -/

section
variable (cfg : Config) {s : State} (hph : s.regs.ph = .idle) (hready : 33 ≤ s.rspReady) {q : List DigestChoice}
  (hdig : s.digQ = .ok :: q)
include hph hready hdig

theorem execUnder_enc_response {e : List Byte} (h : legalEntropyBytes e.length = true) :
    ∃ t, execUnder cfg (.enc 0 (byteBeats e)) s = .next t ∧
      t.log.getLast? = some (.rsp (okResponse opEnc ((wordsOf e (cfg.sha256 e)).map (BitVec.setWidth 16)))) := by
  have hheld := holdsEntropy_encRegs 0 (bytes := byteBeats e) ((byteBeats_map e).symm ▸ h)
  rw [byteBeats_map] at hheld
  refine ⟨_, execUnder_enc_of_idle cfg 0 _ hph, ?_⟩
  rw [startEnc_byteBeats h, received_eq_advanced, settle_askDigest_entropy_ok cfg s hheld _ _ q hdig hready]
  simp

theorem execUnder_gen_response {strength : BitVec 9} (h : legalStrength strength.toNat = true) {draw : Vector Byte 32}
    {eq : List EntropyAnswer} (hent : s.entQ = .ok draw :: eq) :
    ∃ t, execUnder cfg (.gen 0 strength []) s = .next t ∧
      t.log.getLast? = some (.rsp (okResponse opGen
        ((wordsOf (draw.toList.take (strength.toNat / 8))
          (cfg.sha256 (draw.toList.take (strength.toNat / 8)))).map (BitVec.setWidth 16)))) := by
  have hheld := holdsEntropy_withDraw 0 [] h draw
  refine ⟨_, execUnder_gen_of_idle cfg 0 strength [] hph, ?_⟩
  rw [startGen_of_legal h, settle_askEntropy_received_ok cfg s _ (strength_bytes h).1 eq draw hent,
    settle_askDigest_entropy_ok cfg s hheld _ eq q hdig hready]
  simp

end

/-- Settles O31: both responses carry the indices of the drawn bytes and their digest. -/
theorem genAnswersAsEncOfItsDraw : Obligations.GenAnswersAsEncOfItsDraw := by
  intro cfg strength draw eq s q hstr hph hready hent hdig
  have h := (legalStrength_iff_mem _).mpr hstr
  obtain ⟨tg, hg, hgen⟩ := execUnder_gen_response cfg hph hready hdig h hent
  obtain ⟨te, he, henc⟩ := execUnder_enc_response cfg hph hready hdig (legalEntropyBytes_take_draw h draw)
  exact ⟨tg, te, _, hg, he, hgen, henc⟩

/-! The indices sent to `VAL` (R110) -/

/-- Found tokens in a legal number pass every structural check (R122, R123). -/
theorem startTokens_foundTokens {ws : List Index} (h : legalWordCount ws.length = true) (f : List Beat)
    (r : Regs) (s : State) :
    startTokens 0 (foundTokens ws) (received f r s) = askDigest (received f (reconstruct ws r) s) := by
  rw [startTokens, tokensBad_foundTokens, foundTokens_map]
  simp [h, received]

/-- What a legal sequence of indices leaves in the registers (R31, R123 to R125). -/
theorem reconstruct_holds {ws : List Index} (h : legalWordCount ws.length = true) (r : Regs) :
    (reconstruct ws r).el.toNat = (entropyOf ws).length ∧ entropyHeld (reconstruct ws r) = entropyOf ws ∧
      (reconstruct ws r).ck.toNat = claimedChecksum ws := by
  have hlen := entropyOf_length ws h
  have hel : (BitVec.ofNat 6 (splitPoint ws.length / 8)).toNat = (entropyOf ws).length := by
    have := (reconstruct_el h).2
    omega
  refine ⟨hel, entropyHeld_fill { r with
    el := BitVec.ofNat 6 (splitPoint ws.length / 8), ck := BitVec.ofNat 8 (claimedChecksum ws) } _ ?_ hel, ?_⟩
  · rcases legalWordCount_cases h with h | h | h | h | h <;> omega
  · have hbits : ((indexBits ws).drop (splitPoint ws.length)).length ≤ 8 := by
      rw [List.length_drop, indexBits_length]
      rcases legalWordCount_cases h with h | h | h | h | h <;> rw [h] <;> decide
    exact Nat.mod_eq_of_lt ((uint_lt _).trans_le (Nat.pow_le_pow_right (by decide) hbits))

theorem execUnder_val_of_idle (cfg : Config) (mbz : BitVec 12) (tokens : List TokenBeat) {s : State}
    (h : s.regs.ph = .idle) : execUnder cfg (.val mbz tokens) s =
      .next (settle cfg (startTokens mbz tokens
        (received (encode (.val mbz tokens)) (tokenRegs opVal mbz tokens) s))) := by
  rw [execUnder, execValUnder, whenIdle, if_pos h]

/-- The indices of a legal entropy and its digest are valid (R140). -/
theorem execUnder_val_wordsOf (cfg : Config) {s : State} (hph : s.regs.ph = .idle) (hready : 33 ≤ s.rspReady)
    {q : List DigestChoice} (hdig : s.digQ = .ok :: q) {e : List Byte} (h : legalEntropyBytes e.length = true) :
    ∃ t, execUnder cfg (.val 0 (foundTokens (wordsOf e (cfg.sha256 e)))) s = .next t ∧
      t.log.getLast? = some (.rsp (oneBeat 0x3000)) := by
  have hws := legalWordCount_wordsOf h (cfg.sha256 e)
  obtain ⟨hel, hheld, hck⟩ :=
    reconstruct_holds hws (tokenRegs opVal 0 (foundTokens (wordsOf e (cfg.sha256 e))))
  rw [entropyOf_wordsOf h] at hel hheld
  rw [claimedChecksum_wordsOf h] at hck
  refine ⟨_, execUnder_val_of_idle cfg 0 _ hph, ?_⟩
  rw [startTokens_foundTokens hws, settle_askDigest_valid cfg _ q (by exact hdig) (by exact rfl)
    (by exact Nat.le_trans (by decide) hready)]
  · simp
  · rw [received_regs, hel, hheld, hck]

/-- Settles O28: `GEN` answers the indices of the drawn bytes and their digest, and these are valid. -/
theorem validatorAcceptsGenerated : Obligations.ValidatorAcceptsGenerated := by
  intro cfg strength draw eq s s' q q' hstr hph hready hent hdig hph' hready' hdig'
  have h := (legalStrength_iff_mem _).mpr hstr
  obtain ⟨t, ht, hgen⟩ := execUnder_gen_response cfg hph hready hdig h hent
  obtain ⟨t', ht', hval⟩ := execUnder_val_wordsOf cfg hph' hready' hdig' (legalEntropyBytes_take_draw h draw)
  refine ⟨_, t, t', ?_, ht, hgen, ht', hval⟩
  rw [wordsOf_length, length_take_draw h]
  rcases legalStrength_cases h with h | h | h | h | h <;> rw [h]

/-! The known vector (R100, R134, R147) -/

/-- Settles O44: each of the four frames is run, with the digest of the sixteen zero bytes computed. -/
theorem knownVector : Obligations.KnownVector := by
  refine ⟨⟨_, rfl, ?encodes⟩, ⟨_, rfl, ?decodes⟩, ⟨_, rfl, ?validates⟩, ⟨_, rfl, ?flippedFails⟩⟩
  case encodes => decide +kernel
  case decodes => decide +kernel
  case validates => decide +kernel
  case flippedFails => decide +kernel

end Sys2Proof.Machine

/-! SUPPORT. Decoder proofs, part 1 (spec/41_decoder.md R121 to R127, R132): a token frame, by its checks and by the
answers of the digest unit. -/

namespace Sys2Proof.Machine

/-! The checks, in the words of the rule (R69, R121, R122) -/

theorem legalWordCount_iff_mem (n : Nat) : legalWordCount n = true ↔ n ∈ [12, 15, 18, 21, 24] :=
  List.contains_iff_mem

/-- The frame has no value whatever its checksum (R122, R132). -/
def NoValueByStructure (tokens : List TokenBeat) : Prop :=
  tokens.length ∉ [12, 15, 18, 21, 24] ∨ ∃ t ∈ tokens, t.miss = true

section
variable {mbz : BitVec 12} {tokens : List TokenBeat} (s : State)

theorem startTokens_of_bad (h : (Instr.dec mbz tokens).wellFormed = false) :
    startTokens mbz tokens s = raise s .illegalFrame := by
  rw [startTokens, tokensBad_eq_not_wellFormed, h]
  rfl

theorem startTokens_of_noValue (h : (Instr.dec mbz tokens).wellFormed = true) (hno : NoValueByStructure tokens) :
    startTokens mbz tokens s = noValue s := by
  have hno' : ¬ legalWordCount tokens.length = true ∨ tokensMiss tokens = true := by
    rwa [legalWordCount_iff_mem, tokensMiss, List.any_eq_true]
  rw [startTokens, tokensBad_eq_not_wellFormed, h]
  rcases hno' with hcount | hmiss
  · simp [hcount]
  · simp [hmiss]

theorem startTokens_of_legal (op : BitVec 4) (f : List Beat) (h : (Instr.dec mbz tokens).wellFormed = true)
    (hno : ¬ NoValueByStructure tokens) :
    startTokens mbz tokens (received f (tokenRegs op mbz tokens) s) =
      askDigest (received f (reconstruct (tokens.map TokenBeat.idx) (tokenRegs op mbz tokens)) s) := by
  obtain ⟨hcount, hmiss⟩ := not_or.mp hno
  rw [startTokens, tokensBad_eq_not_wellFormed, h, if_neg (by decide), if_neg, if_neg]
  · rfl
  · rwa [tokensMiss, List.any_eq_true]
  · rwa [legalWordCount_iff_mem]

end

theorem legalWordCount_of_not_noValueByStructure {tokens : List TokenBeat} (hno : ¬ NoValueByStructure tokens) :
    legalWordCount (tokens.map TokenBeat.idx).length = true := by
  rw [List.length_map, legalWordCount_iff_mem]
  exact not_not.mp (not_or.mp hno).1

/-- A structural NOVALUE, its beat taken by the host: no digest is asked for (R122, R132, R183). -/
theorem settle_startTokens_noValue (cfg : Config) {mbz : BitVec 12} {tokens : List TokenBeat}
    (h : (Instr.dec mbz tokens).wellFormed = true) (hno : NoValueByStructure tokens) (op : BitVec 4) (f : List Beat)
    (s : State) (hready : 1 ≤ s.rspReady) :
    settle cfg (startTokens mbz tokens (received f (tokenRegs op mbz tokens) s)) =
      afterFrame s 1 [.req f, .rsp (oneBeat (op ++ (statusNoValue ++ 0#8)))] := by
  rw [startTokens_of_noValue _ h hno, settle_noValue cfg _ (by exact hready)]
  simp [afterFrame, received, tokenRegs]

/-! The reconstruction and the two checksums (R123 to R125) -/

/-- Strings of one length are equal where they spell one number (R14). -/
theorem uint_eq_iff {s t : List Bool} (h : s.length = t.length) : uint s = uint t ↔ s = t :=
  ⟨fun heq => by rw [← bin_ofNat_uint h, heq, bin_ofNat_uint rfl], congrArg uint⟩

/-- The claimed checksum of the indices, bit for bit (R124). -/
def claimedBits (ws : List Index) : List Bool := (indexBits ws).drop (splitPoint ws.length)

/-- The indices claim the leading bits of the digest `d` (R125). -/
def ClaimsChecksum (ws : List Index) (d : Digest) : Prop := claimedBits ws = checksumBits (ws.length / 3) d

/-- The split of a legal sequence: whole bytes, then a checksum of a bit for every three words (R6, R124). -/
theorem splitPoint_of_legal {n : Nat} (h : legalWordCount n = true) :
    splitPoint n = 11 * n - n / 3 ∧ splitPoint n = 8 * (splitPoint n / 8) ∧ n / 3 ≤ 8 ∧ 4 * n / 3 / 4 = n / 3 := by
  rcases legalWordCount_cases h with rfl | rfl | rfl | rfl | rfl <;> decide

theorem claimedBits_length {ws : List Index} (h : legalWordCount ws.length = true) :
    (claimedBits ws).length = ws.length / 3 := by
  obtain ⟨hsp, -⟩ := splitPoint_of_legal h
  rw [claimedBits, List.length_drop, indexBits_length]
  omega

/-- The comparison of numbers that the block makes is the rule's comparison of strings (R125). -/
theorem uint_checksumBits_eq_claimedChecksum_iff {ws : List Index} (h : legalWordCount ws.length = true) (d : Digest) :
    uint (checksumBits ((entropyOf ws).length / 4) d) = claimedChecksum ws ↔ ClaimsChecksum ws d := by
  obtain ⟨-, -, hle, hfour⟩ := splitPoint_of_legal h
  rw [entropyOf_length ws h, hfour, eq_comm]
  exact uint_eq_iff ((claimedBits_length h).trans (checksumBits_length _ d hle).symm)

/-- The entropy bytes, cut from the whole string of the indices (R123, R124). -/
theorem entropyOf_eq_map_slice {ws : List Index} (h : legalWordCount ws.length = true) :
    entropyOf ws = (List.range (splitPoint ws.length / 8)).map fun k =>
      BitVec.ofNat 8 (uint (slice (indexBits ws) (8 * k) (8 * k + 8))) := by
  obtain ⟨hsp, -⟩ := splitPoint_of_legal h
  have hlen : ((indexBits ws).take (splitPoint ws.length)).length = splitPoint ws.length := by
    rw [List.length_take, indexBits_length]
    omega
  rw [entropyOf, bytesOf, hlen, groups, List.map_map]
  refine List.map_congr_left fun k hk => ?_
  have hk' := List.mem_range.mp hk
  have hin : (8 : Nat) ≤ splitPoint ws.length - 8 * k := by omega
  simp [slice, List.drop_take, List.take_take, hin]

/-! The digest request for the reconstructed entropy, by its answer: what `DEC` and `VAL` share (R33, R125) -/

/-- The registers hold what a legal sequence `ws` reconstructs to, for the operation `op` (R31, R123, R124). -/
structure HoldsIndices (op : BitVec 4) (ws : List Index) (r : Regs) : Prop where
  opcode : r.opr = op
  legal : legalWordCount ws.length = true
  count : r.el.toNat = (entropyOf ws).length
  held : entropyHeld r = entropyOf ws
  claimed : r.ck.toNat = claimedChecksum ws

theorem holdsIndices_reconstruct {op : BitVec 4} {ws : List Index} (h : legalWordCount ws.length = true) {r : Regs}
    (hop : r.opr = op) : HoldsIndices op ws (reconstruct ws r) := by
  obtain ⟨hel, hheld, hck⟩ := reconstruct_holds h r
  exact ⟨hop, h, hel, hheld, hck⟩

section
variable (cfg : Config) (s : State) {op : BitVec 4} {ws : List Index} {r : Regs} (h : HoldsIndices op ws r)
  (f : List Beat) (q : List DigestChoice)
include h

/-- The block's comparison, on the registers that hold the indices (R33). -/
theorem HoldsIndices.checksum_eq_iff (d : Digest) :
    uint (checksumBits (r.el.toNat / 4) d) = r.ck.toNat ↔ ClaimsChecksum ws d := by
  rw [h.count, h.claimed, uint_checksumBits_eq_claimedChecksum_iff h.legal]

theorem HoldsIndices.el_eq : r.el.toNat = 4 * ws.length / 3 := h.count.trans (entropyOf_length ws h.legal)

theorem HoldsIndices.el_le : r.el.toNat ≤ 32 := by
  rw [h.el_eq]
  rcases legalWordCount_cases h.legal with hn | hn | hn | hn | hn <;> omega

theorem settle_askDigest_indices_wait (hdig : s.digQ = []) :
    settle cfg (askDigest (received f r s)) =
      { s with regs := { r with ph := .hashw }, log := s.log ++ [.req f, .dreq (entropyOf ws)] } := by
  rw [settle_askDigest_wait cfg _ (by exact hdig)]
  simp [askDigest, received, h.held]

theorem settle_askDigest_indices_err (hdig : s.digQ = .err :: q) (hready : 1 ≤ s.rspReady) :
    settle cfg (askDigest (received f r s)) =
      { afterFrame s 1 [.req f, .dreq (entropyOf ws), .drsp none,
          .rsp (oneBeat (op ++ (statusFault ++ Cause.digestFail.code)))] with digQ := q } := by
  rw [settle_askDigest_fail cfg _ q (by exact hdig) (by exact hready)]
  simp [afterFrame, received, h.held, h.opcode]

theorem settle_askDigest_indices_mismatch (htok : op = opDec ∨ op = opVal) (hdig : s.digQ = .ok :: q)
    (hready : 1 ≤ s.rspReady) (hne : ¬ ClaimsChecksum ws (cfg.sha256 (entropyOf ws))) :
    settle cfg (askDigest (received f r s)) =
      { afterFrame s 1 [.req f, .dreq (entropyOf ws), .drsp (some (cfg.sha256 (entropyOf ws)).toList),
          .rsp (oneBeat (op ++ (statusNoValue ++ 0#8)))] with digQ := q } := by
  rw [settle_askDigest_mismatch cfg (received f r s) q hdig (by rwa [received_regs, h.opcode]) hready]
  · simp [afterFrame, received, h.held, h.opcode]
  · rwa [received_regs, h.held, ne_eq, h.checksum_eq_iff]

end

/-- `DEC` alone sends the entropy bytes (R126). -/
theorem settle_askDigest_indices_bytes (cfg : Config) (s : State) {ws : List Index} {r : Regs}
    (h : HoldsIndices opDec ws r) (f : List Beat) (q : List DigestChoice) (hdig : s.digQ = .ok :: q)
    (hready : 33 ≤ s.rspReady) (heq : ClaimsChecksum ws (cfg.sha256 (entropyOf ws))) :
    settle cfg (askDigest (received f r s)) =
      { afterFrame s (4 * ws.length / 3 + 1) [.req f, .dreq (entropyOf ws),
          .drsp (some (cfg.sha256 (entropyOf ws)).toList),
          .rsp (okResponse opDec ((entropyOf ws).map (BitVec.setWidth 16)))] with digQ := q } := by
  have hbeats : r.el.toNat + 1 ≤ s.rspReady := by
    have := h.el_le
    omega
  rw [settle_askDigest_bytes cfg (received f r s) q hdig h.opcode h.el_le hbeats]
  · simp [afterFrame, received, h.held, h.el_eq]
  · rwa [received_regs, h.held, h.checksum_eq_iff]

/-! `DEC` (R121) -/

theorem execUnder_dec_of_idle (cfg : Config) (mbz : BitVec 12) (tokens : List TokenBeat) {s : State}
    (h : s.regs.ph = .idle) : execUnder cfg (.dec mbz tokens) s =
      .next (settle cfg (startTokens mbz tokens
        (received (encode (.dec mbz tokens)) (tokenRegs opDec mbz tokens) s))) := by
  rw [execUnder, execDecUnder, whenIdle, if_pos h]

theorem indexBits_map_idx (tokens : List TokenBeat) :
    indexBits (tokens.map TokenBeat.idx) = tokens.flatMap fun t => bin t.idx :=
  List.flatMap_map ..

theorem claimsChecksum_map_idx_iff (tokens : List TokenBeat) (d : Digest) :
    ClaimsChecksum (tokens.map TokenBeat.idx) d ↔
      (tokens.flatMap fun t => bin t.idx).drop (11 * tokens.length * 32 / 33) =
        (bitsOf d.toList).take (tokens.length / 3) := by
  rw [ClaimsChecksum, claimedBits, indexBits_map_idx, List.length_map, splitPoint, checksumBits]

/-- Settles O19: the checks are in the rule's order, and a legal frame's digest request goes by its answer and, where
it is a digest, by the comparison of the two checksums. -/
theorem decFollowsItsRule : Obligations.DecFollowsItsRule := by
  intro mbz tokens s hph hready
  have hone : 1 ≤ s.rspReady := by omega
  rw [exec_eq_execUnder, execUnder_dec_of_idle _ mbz tokens hph]
  dsimp only
  by_cases hwf : (Instr.dec mbz tokens).wellFormed = false
  · -- `ILLEGAL_FRAME`
    rw [if_pos hwf, startTokens_of_bad _ hwf, settle_raise_received _ _ (op := opDec) rfl _ _ hone]; rfl
  have hwf' := Bool.of_not_eq_false hwf
  rw [if_neg hwf]
  by_cases hno : tokens.length ∉ [12, 15, 18, 21, 24] ∨ ∃ t ∈ tokens, t.miss = true
  · -- NOVALUE by structure
    rw [if_pos hno, settle_startTokens_noValue _ hwf' hno _ _ _ hone]; rfl
  · -- a legal sequence
    rw [if_neg hno, startTokens_of_legal _ _ _ hwf' hno]
    have hlegal := legalWordCount_of_not_noValueByStructure hno
    have h := holdsIndices_reconstruct hlegal (r := tokenRegs opDec mbz tokens) (op := opDec) rfl
    have he := entropyOf_eq_map_slice hlegal
    rw [indexBits_map_idx, List.length_map, splitPoint] at he
    rw [← he]
    rcases hdig : s.digQ with _ | ⟨_ | _, q⟩
    · rw [settle_askDigest_indices_wait _ _ h _ hdig]; rfl
    · have hclaim := claimsChecksum_map_idx_iff tokens (platformConfig.sha256 (entropyOf (tokens.map TokenBeat.idx)))
      split_ifs with hne
      · rw [settle_askDigest_indices_mismatch _ _ h _ _ (.inl rfl) hdig hone (mt hclaim.mp hne)]; rfl
      · rw [settle_askDigest_indices_bytes _ _ h _ _ hdig hready (hclaim.mpr (not_not.mp hne)), List.length_map]; rfl
    · rw [settle_askDigest_indices_err _ _ h _ _ hdig hone]; rfl

/-! Frames without a value by structure (R132) -/

/-- A token frame is well-formed where every must-be-zero field is zero (R63, R69). -/
theorem dec_wellFormed_of_mbz {tokens : List TokenBeat} (h : ∀ t ∈ tokens, t.mbz = 0) :
    (Instr.dec 0 tokens).wellFormed = true := by
  simpa [Instr.wellFormed, TokenBeat.clean] using h

/-- Settles O30: thirteen is no legal count, and the structural check is made before any request. -/
theorem structuralNoValue : Obligations.StructuralNoValue := by
  intro tokens s hmbz hcase hph hready
  have hwf := dec_wellFormed_of_mbz hmbz
  have hno : NoValueByStructure tokens := hcase.imp_left fun hlen => by rw [hlen]; decide
  refine ⟨?_, ?_⟩
  · rw [exec_eq_execUnder, execUnder_dec_of_idle _ _ _ hph, settle_startTokens_noValue _ hwf hno _ _ _ hready]; rfl
  · rw [exec_eq_execUnder, execUnder_val_of_idle _ _ _ hph, settle_startTokens_noValue _ hwf hno _ _ _ hready]; rfl

end Sys2Proof.Machine

/-! SUPPORT. Decoder proofs, part 2 (spec/41_decoder.md R130, R131; spec/43_external_units.md R166, R171, R172): `DEC`
against `ENC`, a flipped checksum bit, and the host's lookups around both. -/

namespace Sys2Proof.Machine

/-! The answer of `DEC` to found tokens in a legal number (R125, R126) -/

section
variable (cfg : Config) {s : State} (hph : s.regs.ph = .idle) (hready : 33 ≤ s.rspReady) {q : List DigestChoice}
  (hdig : s.digQ = .ok :: q) {ws : List Index} (h : legalWordCount ws.length = true)
include hph hready hdig h

theorem execUnder_dec_of_claimsChecksum (hclaim : ClaimsChecksum ws (cfg.sha256 (entropyOf ws))) :
    ∃ t, execUnder cfg (.dec 0 (foundTokens ws)) s = .next t ∧
      t.log.getLast? = some (.rsp (okResponse opDec ((entropyOf ws).map (BitVec.setWidth 16)))) := by
  have hheld := holdsIndices_reconstruct h (r := tokenRegs opDec 0 (foundTokens ws)) (op := opDec) rfl
  refine ⟨_, execUnder_dec_of_idle cfg 0 _ hph, ?_⟩
  rw [startTokens_foundTokens h, settle_askDigest_indices_bytes cfg s hheld _ q hdig hready hclaim]
  simp

theorem execUnder_dec_of_not_claimsChecksum (hclaim : ¬ ClaimsChecksum ws (cfg.sha256 (entropyOf ws))) :
    ∃ t, execUnder cfg (.dec 0 (foundTokens ws)) s = .next t ∧ t.log.getLast? = some (.rsp (oneBeat 0x2100)) := by
  have hheld := holdsIndices_reconstruct h (r := tokenRegs opDec 0 (foundTokens ws)) (op := opDec) rfl
  refine ⟨_, execUnder_dec_of_idle cfg 0 _ hph, ?_⟩
  rw [startTokens_foundTokens h,
    settle_askDigest_indices_mismatch cfg s hheld _ q (.inl rfl) hdig (Nat.le_trans (by decide) hready) hclaim]
  simp [opDec, statusNoValue]

end

/-- An `OK` response is not the NOVALUE beat: one beat leaves no payload, and then the info byte is zero (R71, R73). -/
theorem okResponse_ne_noValue (ps : List Half) : okResponse opDec ps ≠ oneBeat 0x2100 := by
  intro heq
  have hlen := congrArg List.length heq
  rw [okResponse, markLast_length, List.length_cons] at hlen
  obtain rfl : ps = [] := List.eq_nil_of_length_eq_zero (Nat.succ_inj.mp hlen)
  exact absurd heq (by decide)

/-- Where `DEC` answers `OK`, the claimed checksum was the expected one (R125, R126). -/
theorem claimsChecksum_of_ok {cfg : Config} {s t : State} (hph : s.regs.ph = .idle) (hready : 33 ≤ s.rspReady)
    {q : List DigestChoice} (hdig : s.digQ = .ok :: q) {ws : List Index} (h : legalWordCount ws.length = true)
    (ht : execUnder cfg (.dec 0 (foundTokens ws)) s = .next t) {ps : List Half}
    (hrsp : t.log.getLast? = some (.rsp (okResponse opDec ps))) : ClaimsChecksum ws (cfg.sha256 (entropyOf ws)) := by
  by_contra hclaim
  obtain ⟨t', ht', hrsp'⟩ := execUnder_dec_of_not_claimsChecksum cfg hph hready hdig h hclaim
  obtain rfl := Host.Outcome.next.inj (ht.symm.trans ht')
  exact okResponse_ne_noValue ps (Event.rsp.inj (Option.some.inj (hrsp.symm.trans hrsp')))

/-! `DEC` after `ENC` (R130) -/

/-- The indices of a legal entropy claim the digest they were made with (R90, R124). -/
theorem claimsChecksum_wordsOf {e : List Byte} (h : legalEntropyBytes e.length = true) (d : Digest) :
    ClaimsChecksum (wordsOf e d) d := by
  have hcount : (wordsOf e d).length / 3 = e.length / 4 := by rw [wordsOf_length]; omega
  rw [ClaimsChecksum, claimedBits, indexBits_wordsOf h, splitPoint_wordsOf h, List.drop_left, hcount]

/-- Settles O27: the indices spell the entropy and the leading digest bits, which `DEC` splits again. -/
theorem decodeUndoesEncode : Obligations.DecodeUndoesEncode := by
  intro cfg e s s' q q' h hph hready hdig hph' hready' hdig'
  have hws := legalWordCount_wordsOf h (cfg.sha256 e)
  have hheld := entropyOf_wordsOf h (cfg.sha256 e)
  have hclaim := claimsChecksum_wordsOf h (cfg.sha256 e)
  obtain ⟨t, ht, henc⟩ := execUnder_enc_response cfg hph hready hdig h
  obtain ⟨t', ht', hdec⟩ := execUnder_dec_of_claimsChecksum cfg hph' hready' hdig' hws (by rwa [hheld])
  rw [hheld] at hdec
  exact ⟨_, t, t', ht, henc, ht', hdec⟩

/-! A flipped bit of the checksum (R131) -/

theorem indexBits_append (us vs : List Index) : indexBits (us ++ vs) = indexBits us ++ indexBits vs :=
  List.flatMap_append

theorem bin_injective {n : Nat} {v w : BitVec n} (h : bin v = bin w) : v = w :=
  BitVec.eq_of_toNat_eq (by rw [← uint_bin, h, uint_bin])

/-- Flipping bit `j` of a word changes no position before the last `j + 1` (R14). -/
theorem take_bin_xor_twoPow {n j k : Nat} (w : BitVec n) (h : k + j < n) :
    (bin (w ^^^ BitVec.twoPow n j)).take k = (bin w).take k := by
  refine List.ext_getElem (by simp) fun i hi _ => ?_
  have hik : i < k := hi.trans_le (List.length_take_le k _)
  have hij : j ≠ n - 1 - i := by omega
  simp [bin, BitVec.getMsbD, hij]

/-- The parts of a legal sequence lie in all its words but the last, and in the last (R124). -/
theorem parts_of_snoc {ws : List Index} (h : legalWordCount (ws.length + 1) = true) (w : Index) :
    entropyOf (ws ++ [w]) = bytesOf (indexBits ws ++ (bin w).take (11 - (ws.length + 1) / 3)) ∧
      claimedBits (ws ++ [w]) = (bin w).drop (11 - (ws.length + 1) / 3) := by
  obtain ⟨hsp, -, hle, -⟩ := splitPoint_of_legal h
  have hsplit : splitPoint (ws ++ [w]).length = (indexBits ws).length + (11 - (ws.length + 1) / 3) := by
    rw [List.length_append, List.length_singleton, indexBits_length, hsp]
    omega
  have hbits : indexBits (ws ++ [w]) = indexBits ws ++ bin w := by
    rw [indexBits_append, indexBits, indexBits, List.flatMap_singleton]
  rw [entropyOf, claimedBits, hsplit, hbits, List.take_length_add_append, List.drop_length_add_append]
  exact ⟨rfl, rfl⟩

section
variable {ws : List Index} (h : legalWordCount (ws.length + 1) = true) (w : Index) {j : Nat}
  (hj : j < (ws.length + 1) / 3)
include h hj

theorem entropyOf_flip : entropyOf (ws ++ [w ^^^ BitVec.twoPow 11 j]) = entropyOf (ws ++ [w]) := by
  obtain ⟨-, -, hle, -⟩ := splitPoint_of_legal h
  rw [(parts_of_snoc h _).1, (parts_of_snoc h w).1, take_bin_xor_twoPow w (by omega)]

theorem claimedBits_flip_ne : claimedBits (ws ++ [w ^^^ BitVec.twoPow 11 j]) ≠ claimedBits (ws ++ [w]) := by
  obtain ⟨-, -, hle, -⟩ := splitPoint_of_legal h
  rw [(parts_of_snoc h _).2, (parts_of_snoc h w).2]
  intro hdrop
  have htake := take_bin_xor_twoPow w (j := j) (k := 11 - (ws.length + 1) / 3) (by omega)
  have hbin : bin (w ^^^ BitVec.twoPow 11 j) = bin w := by
    rw [← List.take_append_drop (11 - (ws.length + 1) / 3) (bin (w ^^^ _)), htake, hdrop, List.take_append_drop]
  have hbit := congrArg (BitVec.getLsbD · j) (bin_injective hbin)
  have hj11 : j < 11 := by omega
  simp [hj11] at hbit

end

/-- Settles O29: the flipped sequence has the same entropy, so the same digest, and claims another checksum. -/
theorem checksumFlipIsCaught : Obligations.ChecksumFlipIsCaught := by
  intro cfg ws w j s s' t q q' e hj h hph hready hdig hph' hready' hdig' ht hrsp
  have hlen (v : Index) : legalWordCount (ws ++ [v]).length = true := by simpa using h
  have hclaim := claimsChecksum_of_ok hph hready hdig (hlen w) ht hrsp
  refine execUnder_dec_of_not_claimsChecksum cfg hph' hready' hdig' (hlen _) fun hclaim' => ?_
  rw [entropyOf_flip h w hj] at hclaim'
  refine claimedBits_flip_ne h w hj (hclaim'.trans (Eq.trans ?_ hclaim.symm))
  simp only [List.length_append, List.length_singleton]

/-! The host's lookups (R166, R171, R172) -/

/-- A word of the list is found at its own place, since the words are unique (R165, R166). -/
theorem Wordlist.indexOf_wordAt (wl : Wordlist) (i : Index) : wl.indexOf (wl.wordAt i) = some i := by
  have hi : i.toNat < wl.words.length := by
    have := i.isLt
    have := wl.size
    omega
  have hfind : wl.words.findIdx? (fun x => decide (x = wl.wordAt i)) = some i.toNat := by
    refine List.findIdx?_eq_some_iff_getElem.mpr ⟨hi, by simp [Wordlist.wordAt], fun k hk hfound => ?_⟩
    exact hk.ne (wl.unique.getElem_inj_iff.mp (of_decide_eq_true hfound))
  rw [Wordlist.indexOf, hfind, Option.map_some, BitVec.ofNat_toNat, BitVec.setWidth_eq]

theorem Wordlist.token_wordAt (wl : Wordlist) (i : Index) : wl.token (wl.wordAt i) = ⟨0, false, i⟩ := by
  rw [Wordlist.token, wl.indexOf_wordAt i]

/-- The words of indices, looked up again, are the found tokens of these indices (R171, R172). -/
theorem Wordlist.decFrame_wordsAt (wl : Wordlist) (ws : List Index) :
    wl.decFrame (wl.wordsAt ws) = .dec 0 (foundTokens ws) := by
  simp [Wordlist.decFrame, Wordlist.wordsAt, foundTokens, wl.token_wordAt]

/-- Settles O46: the lookups give the indices of `ENC` back as found tokens, and `DEC` undoes `ENC` on these. -/
theorem phraseRoundTrip : Obligations.PhraseRoundTrip := by
  intro wl cfg e s s' q q' h hph hready hdig hph' hready' hdig'
  obtain ⟨ws, t, t', ht, henc, ht', hdec⟩ := decodeUndoesEncode cfg e s s' q q' h hph hready hdig hph' hready' hdig'
  exact ⟨ws, t, t', ht, henc, by rwa [wl.decFrame_wordsAt], hdec⟩

end Sys2Proof.Machine

/-! SUPPORT. Validator proofs (spec/42_validator.md R140, R141, R143, R144): `VAL` by its rule, and `VAL` against
`DEC`. -/

namespace Sys2Proof.Machine

/-! A token frame that passes the structural checks (R122 to R124) -/

section
variable {tokens : List TokenBeat} (hno : ¬ NoValueByStructure tokens)
include hno

theorem holdsIndices_tokenRegs (op : BitVec 4) (mbz : BitVec 12) :
    HoldsIndices op (tokens.map TokenBeat.idx) (reconstruct (tokens.map TokenBeat.idx) (tokenRegs op mbz tokens)) :=
  holdsIndices_reconstruct (legalWordCount_of_not_noValueByStructure hno) rfl

/-- The entropy bytes of the tokens, cut from the string of their indices. -/
theorem entropyOf_map_idx : entropyOf (tokens.map TokenBeat.idx) =
    (List.range (11 * tokens.length * 32 / 33 / 8)).map fun k =>
      BitVec.ofNat 8 (uint (slice (tokens.flatMap fun t => bin t.idx) (8 * k) (8 * k + 8))) := by
  rw [entropyOf_eq_map_slice (legalWordCount_of_not_noValueByStructure hno), indexBits_map_idx, List.length_map,
    splitPoint]

end

/-- Where the checksum is as claimed, `VAL` answers true in one beat and sends no byte (R140). -/
theorem settle_askDigest_indices_valid (cfg : Config) (s : State) {ws : List Index} {r : Regs}
    (h : HoldsIndices opVal ws r) (f : List Beat) (q : List DigestChoice) (hdig : s.digQ = .ok :: q)
    (hready : 1 ≤ s.rspReady) (heq : ClaimsChecksum ws (cfg.sha256 (entropyOf ws))) :
    settle cfg (askDigest (received f r s)) =
      { afterFrame s 1 [.req f, .dreq (entropyOf ws), .drsp (some (cfg.sha256 (entropyOf ws)).toList),
          .rsp (oneBeat 0x3000)] with digQ := q } := by
  rw [settle_askDigest_valid cfg (received f r s) q hdig h.opcode hready]
  · simp [afterFrame, received, h.held]
  · rwa [received_regs, h.held, h.checksum_eq_iff]

/-! `VAL` (R140) -/

/-- Settles O20: the run of a token frame is that of `DEC`, with opcode nibble 3; where the two checksums agree it
answers true in place of the bytes. -/
theorem valFollowsItsRule : Obligations.ValFollowsItsRule := by
  intro mbz tokens s hph hready
  have hone : 1 ≤ s.rspReady := by omega
  rw [exec_eq_execUnder, execUnder_val_of_idle _ mbz tokens hph]
  dsimp only
  by_cases hwf : (Instr.val mbz tokens).wellFormed = false
  · -- `ILLEGAL_FRAME`
    rw [if_pos hwf, startTokens_of_bad _ hwf, settle_raise_received _ _ (op := opVal) rfl _ _ hone]; rfl
  have hwf' : (Instr.dec mbz tokens).wellFormed = true := Bool.of_not_eq_false hwf
  rw [if_neg hwf]
  by_cases hno : tokens.length ∉ [12, 15, 18, 21, 24] ∨ ∃ t ∈ tokens, t.miss = true
  · -- NOVALUE by structure
    rw [if_pos hno, settle_startTokens_noValue _ hwf' hno _ _ _ hone]; rfl
  · -- a legal sequence
    have h := holdsIndices_tokenRegs hno opVal mbz
    rw [if_neg hno, startTokens_of_legal _ _ _ hwf' hno, ← entropyOf_map_idx hno]
    rcases hdig : s.digQ with _ | ⟨_ | _, q⟩
    · rw [settle_askDigest_indices_wait _ _ h _ hdig]; rfl
    · have hclaim := claimsChecksum_map_idx_iff tokens (platformConfig.sha256 (entropyOf (tokens.map TokenBeat.idx)))
      split_ifs with hne
      · rw [settle_askDigest_indices_mismatch _ _ h _ _ (.inr rfl) hdig hone (mt hclaim.mp hne)]; rfl
      · rw [settle_askDigest_indices_valid _ _ h _ _ hdig hone (hclaim.mpr (not_not.mp hne))]
    · rw [settle_askDigest_indices_err _ _ h _ _ hdig hone]; rfl

/-! `VAL` against `DEC` (R144): both come to one verdict, and only the response tells them apart. -/

/-- What an answered token frame comes to, whichever of `DEC` and `VAL` it is (R127, R143). -/
inductive TokenVerdict where
  | noValue
  | fault (c : Cause) (possible : c = .illegalFrame ∨ c = .digestFail)
  | entropy (e : List Byte) (legal : legalEntropyBytes e.length = true)

/-- The response of the operation `op` on a verdict: `DEC` sends the entropy, `VAL` that there is one (R126, R140). -/
def TokenVerdict.response (op : BitVec 4) : TokenVerdict → List Beat
  | .noValue => oneBeat (op ++ (statusNoValue ++ 0#8))
  | .fault c _ => oneBeat (op ++ (statusFault ++ c.code))
  | .entropy e _ => if op = opDec then okResponse opDec (e.map (BitVec.setWidth 16)) else oneBeat 0x3000

/-- The events after the request and the verdict, the same for `DEC` and `VAL`. -/
def SettlesTo (cfg : Config) (mbz : BitVec 12) (tokens : List TokenBeat) (s : State) (evs : List Event)
    (v : TokenVerdict) : Prop :=
  ∀ op : BitVec 4, op = opDec ∨ op = opVal → ∀ f : List Beat,
    (settle cfg (startTokens mbz tokens (received f (tokenRegs op mbz tokens) s))).log =
      s.log ++ [.req f] ++ evs ++ [.rsp (v.response op)]

theorem legalEntropyBytes_entropyOf {ws : List Index} (h : legalWordCount ws.length = true) :
    legalEntropyBytes (entropyOf ws).length = true := by
  rw [entropyOf_length ws h]
  rcases legalWordCount_cases h with hn | hn | hn | hn | hn <;> rw [hn] <;> rfl

section
variable (cfg : Config) (mbz : BitVec 12) (tokens : List TokenBeat) (s : State) (hready : 33 ≤ s.rspReady)
include hready

/-- A legal sequence: the digest unit's answer, and the comparison of the two checksums (R125). -/
theorem exists_settlesTo_of_legal (hwf : (Instr.dec mbz tokens).wellFormed = true)
    (hno : ¬ NoValueByStructure tokens) {c : DigestChoice} {q : List DigestChoice} (hdig : s.digQ = c :: q) :
    ∃ evs v, SettlesTo cfg mbz tokens s evs v := by
  have hone : 1 ≤ s.rspReady := by omega
  let e := entropyOf (tokens.map TokenBeat.idx)
  cases c with
  | err =>
    refine ⟨[.dreq e, .drsp none], .fault .digestFail (.inr rfl), fun op _ f => ?_⟩
    rw [startTokens_of_legal _ _ _ hwf hno,
      settle_askDigest_indices_err _ _ (holdsIndices_tokenRegs hno op mbz) _ _ hdig hone]
    simp [TokenVerdict.response, afterFrame, e]
  | ok =>
    by_cases hclaim : ClaimsChecksum (tokens.map TokenBeat.idx) (cfg.sha256 e)
    · have hlegal := legalEntropyBytes_entropyOf (legalWordCount_of_not_noValueByStructure hno)
      refine ⟨[.dreq e, .drsp (some (cfg.sha256 e).toList)], .entropy e hlegal, fun op hop f => ?_⟩
      have h := holdsIndices_tokenRegs hno op mbz
      rw [startTokens_of_legal _ _ _ hwf hno]
      rcases hop with rfl | rfl
      · rw [settle_askDigest_indices_bytes _ _ h _ _ hdig hready hclaim]
        simp [TokenVerdict.response, afterFrame, e]
      · rw [settle_askDigest_indices_valid _ _ h _ _ hdig hone hclaim]
        simp [TokenVerdict.response, afterFrame, e, opVal, opDec]
    · refine ⟨[.dreq e, .drsp (some (cfg.sha256 e).toList)], .noValue, fun op hop f => ?_⟩
      rw [startTokens_of_legal _ _ _ hwf hno,
        settle_askDigest_indices_mismatch _ _ (holdsIndices_tokenRegs hno op mbz) _ _ hop hdig hone hclaim]
      simp [TokenVerdict.response, afterFrame, e]

theorem exists_settlesTo (hdig : s.digQ ≠ []) : ∃ evs v, SettlesTo cfg mbz tokens s evs v := by
  have hone : 1 ≤ s.rspReady := by omega
  by_cases hwf : (Instr.dec mbz tokens).wellFormed = false
  · refine ⟨[], .fault .illegalFrame (.inl rfl), fun op _ f => ?_⟩
    rw [startTokens_of_bad _ hwf, settle_raise_received _ _ (op := op) rfl _ _ hone]
    simp [TokenVerdict.response, afterFrame]
  by_cases hno : NoValueByStructure tokens
  · refine ⟨[], .noValue, fun op _ f => ?_⟩
    rw [settle_startTokens_noValue _ (Bool.of_not_eq_false hwf) hno _ _ _ hone]
    simp [TokenVerdict.response, afterFrame]
  · obtain ⟨c, q, hdig⟩ := List.exists_cons_of_ne_nil hdig
    exact exists_settlesTo_of_legal cfg mbz tokens s hready (Bool.of_not_eq_false hwf) hno hdig

end

/-- Settles O26: one verdict and one list of events serve both operations. -/
theorem valAgreesWithDec : Obligations.ValAgreesWithDec := by
  intro cfg mbz tokens s hph hready hdig
  obtain ⟨evs, v, hv⟩ := exists_settlesTo cfg mbz tokens s hready hdig
  refine ⟨_, _, evs, v.response opDec, v.response opVal, execUnder_dec_of_idle cfg mbz tokens hph,
    execUnder_val_of_idle cfg mbz tokens hph, hv opDec (.inl rfl) _, hv opVal (.inr rfl) _, ?_⟩
  cases v with
  | noValue => exact .inr (.inl ⟨rfl, rfl⟩)
  | fault c hc =>
    refine .inr (.inr ⟨c, hc, ?_⟩)
    rcases hc with rfl | rfl <;> exact ⟨rfl, rfl⟩
  | entropy e he => exact .inl ⟨e, he, rfl, rfl⟩

end Sys2Proof.Machine

/-! SUPPORT. External unit proofs, part 1 (spec/70_reset_and_hazards.md R222; spec/43_external_units.md R157, R163):
what one move of another agent does to a block that is not idle. -/

namespace Sys2Proof.Machine

/-- The phases after a frame's last beat and before its response is sent (R31 to R35). -/
def OwesResponse (p : Phase) : Prop := p ≠ .idle ∧ p ≠ .recv

/-- A bound on the moves to the end of the response, in the phases that owe one: an answer for each wait, and the
response beats, whose count has six bits. -/
def movesLeft (r : Regs) : Nat :=
  match r.ph with
  | .rngw => 66
  | .hashw => 65
  | .emit => if r.hs then 63 - r.ec.toNat else 64
  | _ => 0

/-- The block is at rest again, and its history goes on from `log` to a response that comes last. -/
def Answered (log : List Event) (b : Block) : Prop :=
  b.regs = Regs.zero ∧ ∃ (before : List Event) (g : List Beat), log <+: before ∧ b.log = before ++ [.rsp g]

/-- From the registers `r` and the history `log` the block has come nearer to the response it owes. -/
structure Nearer (r : Regs) (log : List Event) (b : Block) : Prop where
  owes : OwesResponse b.regs.ph
  fewer : movesLeft b.regs < movesLeft r
  history : log <+: b.log

theorem Answered.mono {log log' : List Event} {b : Block} (hle : log <+: log') (h : Answered log' b) :
    Answered log b := by
  obtain ⟨hregs, before, g, hbefore, hlog⟩ := h
  exact ⟨hregs, before, g, hle.trans hbefore, hlog⟩

theorem Keeps.log_isPrefix {s t : State} (h : Keeps s t) : s.log <+: t.log := by
  obtain ⟨-, -, -, -, ⟨evs, hlog⟩, -⟩ := h
  exact ⟨evs, hlog.symm⟩

theorem movesLeft_le_of_emit {r : Regs} (h : r.ph = .emit) : movesLeft r ≤ 64 := by
  simp only [movesLeft, h]
  split <;> omega

/-! The end of a request frame (R30, R31) -/

theorem dispatch_owesResponse (s : State) : OwesResponse (dispatch s).regs.ph := by
  unfold dispatch
  simp only
  split_ifs <;> exact ⟨nofun, nofun⟩

/-- After a beat the block owes a response or goes on receiving, the former after a beat with `last = 1`. -/
theorem afterBeat_owesResponse (x : Beat) (s : State) :
    s.log <+: (afterBeat x s).log ∧ (x.last = true → OwesResponse (afterBeat x s).regs.ph) ∧
      (x.last = false → (afterBeat x s).regs.ph = .recv) := by
  unfold afterBeat
  cases x.last with
  | true =>
    obtain ⟨hkeeps, -⟩ := dispatch_keeps { s with reqSeen := [], log := s.log ++ [.req (s.reqSeen ++ [x])] }
    exact ⟨.trans ⟨_, rfl⟩ hkeeps.log_isPrefix, fun _ => dispatch_owesResponse _, nofun⟩
  | false => exact ⟨⟨[], List.append_nil _⟩, nofun, fun _ => rfl⟩

/-! The waits for the two units (R32, R33) -/

theorem entropyStep_nearer (s : State) (a : EntropyAnswer) (q : List EntropyAnswer) (hph : s.regs.ph = .rngw)
    (hq : s.entQ = a :: q) : Nearer s.regs s.log (entropyStep s).toBlock := by
  obtain ⟨hkeeps, -⟩ := entropyStep_keeps s
  have hphase : (entropyStep s).regs.ph = .emit ∨ (entropyStep s).regs.ph = .hashw := by
    cases a with
    | err => rw [entropyStep_of_err s q hq]; exact .inl rfl
    | ok draw => rw [entropyStep_of_ok s draw q hq]; exact .inr rfl
  have hleft : movesLeft s.regs = 66 := by simp [movesLeft, hph]
  rcases hphase with h | h
  · exact ⟨by simp [OwesResponse, h], by have := movesLeft_le_of_emit h; omega, hkeeps.log_isPrefix⟩
  · exact ⟨by simp [OwesResponse, h], by simp [movesLeft, h, hph], hkeeps.log_isPrefix⟩

theorem digestStep_nearer (cfg : Config) (s : State) (c : DigestChoice) (q : List DigestChoice)
    (hph : s.regs.ph = .hashw) (hq : s.digQ = c :: q) : Nearer s.regs s.log (digestStep cfg s).toBlock := by
  obtain ⟨hkeeps, -⟩ := digestStep_keeps cfg s
  have hphase : (digestStep cfg s).regs.ph = .emit := by
    cases c with
    | err => rw [digestStep_of_err cfg s q hq]; rfl
    | ok =>
      rw [digestStep_of_ok cfg s q hq]
      obtain ⟨-, -, -, h⟩ := concludeDigest_keeps { s with
        digQ := q
        log := s.log ++ [.drsp (some (cfg.sha256 (entropyHeld s.regs)).toList)]
        regs := { s.regs with dg := cfg.sha256 (entropyHeld s.regs) } }
      exact h
  have hleft : movesLeft s.regs = 65 := by simp [movesLeft, hph]
  exact ⟨by simp [OwesResponse, hphase], by have := movesLeft_le_of_emit hphase; omega, hkeeps.log_isPrefix⟩

/-! The response (R35) -/

/-- The payload, of 32 beats at most, ends before the count of its beats overflows. -/
theorem ec_lt_of_not_last {r : Regs} (hhs : r.hs = true) (h : (responseBeat r).last = false) : r.ec.toNat < 31 := by
  have hle := responsePayload_length_le r
  have hlast : r.ec.toNat + 1 < (responsePayload r).length := by simpa [responseBeat, hhs] using h
  omega

theorem movesLeft_sendBeat (s : State) (hph : s.regs.ph = .emit) (h : (responseBeat s.regs).last = false) :
    movesLeft { s.regs with hs := true, ec := if s.regs.hs then s.regs.ec + 1 else 0 } < movesLeft s.regs := by
  cases hhs : s.regs.hs with
  | false => simp [movesLeft, hph, hhs]
  | true =>
    have hec := ec_lt_of_not_last hhs h
    simp [movesLeft, hph, hhs, BitVec.toNat_add]
    omega

theorem sendBeat_of_last {s : State} (h : (responseBeat s.regs).last = true) :
    sendBeat s =
      endFrame { s with rspReady := s.rspReady - 1, rspSent := s.rspSent ++ [responseBeat s.regs] } := if_pos h

theorem sendBeat_of_not_last {s : State} (h : (responseBeat s.regs).last = false) :
    sendBeat s = { s with
      rspReady := s.rspReady - 1
      rspSent := s.rspSent ++ [responseBeat s.regs]
      regs := { s.regs with hs := true, ec := if s.regs.hs then s.regs.ec + 1 else 0 } } :=
  if_neg (Bool.not_eq_true _ ▸ h)

theorem sendBeat_advances (s : State) (hph : s.regs.ph = .emit) :
    Answered s.log (sendBeat s).toBlock ∨ Nearer s.regs s.log (sendBeat s).toBlock := by
  cases hlast : (responseBeat s.regs).last with
  | true =>
    rw [sendBeat_of_last hlast]
    exact .inl ⟨rfl, s.log, s.rspSent ++ [responseBeat s.regs], ⟨[], List.append_nil _⟩, rfl⟩
  | false =>
    rw [sendBeat_of_not_last hlast]
    exact .inr ⟨by simp [OwesResponse, hph], movesLeft_sendBeat s hph hlast, ⟨[], List.append_nil _⟩⟩

/-! One move -/

/-- A step other than reset is the sequencer's, in the phase that its move fits, on the block beside agents that make
this move alone (R42). -/
theorem portStep_eq_some {cfg : Config} {m : PortMove} {b b' : Block} (hr : m ≠ .reset)
    (h : portStep cfg m b = some b') :
    ∃ s : State, s.toBlock = b ∧ s.toAgents = agentsMaking m ∧ moveFits m s.regs.ph ∧
      (seqStep cfg s).toBlock = b' := by
  by_cases hfits : moveFits m b.regs.ph
  · rw [portStep_of_fits cfg m b hfits] at h
    exact ⟨{ toBlock := b, toAgents := agentsMaking m }, rfl, rfl, hfits, Option.some.inj h⟩
  · rw [portStep_of_not_fits cfg m b hr hfits] at h
    exact nomatch h

/-- Only a request beat moves a block that receives a frame (R30, R42). -/
theorem portStep_of_recv {cfg : Config} {m : PortMove} {b b' : Block} (hr : m ≠ .reset) (hph : b.regs.ph = .recv)
    (h : portStep cfg m b = some b') :
    ∃ x, m = .request x ∧ b.log <+: b'.log ∧ (x.last = true → OwesResponse b'.regs.ph) ∧
      (x.last = false → b'.regs.ph = .recv) := by
  obtain ⟨s, rfl, hagents, hfits, rfl⟩ := portStep_eq_some hr h
  rw [hph] at hfits
  cases m with
  | request x =>
    rw [seqStep_of_recv cfg s hph, payloadStep_of_offer s x [] (congrArg Agents.reqQ hagents)]
    exact ⟨x, rfl, afterBeat_owesResponse x { s with reqQ := [], regs := latchPayload x.data s.regs }⟩
  | accept => exact nomatch hfits
  | digest c => exact nomatch hfits
  | entropy a => exact nomatch hfits
  | reset => exact absurd rfl hr

/-- Every move that a block which owes a response can make answers the frame or comes nearer to its answer. -/
theorem portStep_of_owesResponse {cfg : Config} {m : PortMove} {b b' : Block} (hr : m ≠ .reset)
    (hph : OwesResponse b.regs.ph) (h : portStep cfg m b = some b') :
    Answered b.log b' ∨ Nearer b.regs b.log b' := by
  obtain ⟨s, rfl, hagents, hfits, rfl⟩ := portStep_eq_some hr h
  cases m with
  | request x => exact absurd hfits (not_or.mpr hph)
  | accept =>
    have hready : s.rspReady = 1 := congrArg Agents.rspReady hagents
    rw [seqStep_of_emit cfg s hfits, emitStep_of_ready s (by omega)]
    exact sendBeat_advances s hfits
  | digest c =>
    rw [seqStep_of_hashw cfg s hfits]
    exact .inr (digestStep_nearer cfg s c [] hfits (congrArg Agents.digQ hagents))
  | entropy a =>
    rw [seqStep_of_rngw cfg s hfits]
    exact .inr (entropyStep_nearer s a [] hfits (congrArg Agents.entQ hagents))
  | reset => exact absurd rfl hr

end Sys2Proof.Machine

/-! SUPPORT. External unit proofs, part 2 (spec/70_reset_and_hazards.md R222; spec/43_external_units.md R157, R163):
fair runs. -/

namespace Sys2Proof.Machine

/-- The run comes from its block `n` to one at rest whose history goes on from that of `n` to a response. -/
def EventuallyAnswered (blocks : Nat → Block) (n : Nat) : Prop := ∃ k, Answered (blocks n).log (blocks (n + k))

theorem EventuallyAnswered.of_later {blocks : Nat → Block} {n : Nat} (k : Nat)
    (hlog : (blocks n).log <+: (blocks (n + k)).log) (h : EventuallyAnswered blocks (n + k)) :
    EventuallyAnswered blocks n := by
  obtain ⟨j, hj⟩ := h
  exact ⟨k + j, by rw [← Nat.add_assoc]; exact hj.mono hlog⟩

/-- Fairness, whatever the wait: some agent moves (R222). -/
theorem FairRun.exists_move {blocks : Nat → Block} {moves : Nat → Option PortMove} (hfair : FairRun blocks moves)
    {n : Nat} (hph : (blocks n).regs.ph ≠ .idle) : ∃ k m, moves (n + k) = some m := by
  cases h : (blocks n).regs.ph with
  | idle => exact absurd h hph
  | recv =>
    obtain ⟨k, hk | ⟨x, hk⟩⟩ := hfair.host_offers n h
    · exact ⟨k, _, hk⟩
    · exact ⟨k, _, hk⟩
  | rngw =>
    obtain ⟨k, hk | ⟨a, hk⟩⟩ := hfair.entropy_answers n h
    · exact ⟨k, _, hk⟩
    · exact ⟨k, _, hk⟩
  | hashw =>
    obtain ⟨k, hk | ⟨c, hk⟩⟩ := hfair.digest_answers n h
    · exact ⟨k, _, hk⟩
    · exact ⟨k, _, hk⟩
  | emit =>
    obtain ⟨k, hk | hk⟩ := hfair.host_accepts n h
    · exact ⟨k, _, hk⟩
    · exact ⟨k, _, hk⟩

section
variable {cfg : Config} {blocks : Nat → Block} {moves : Nat → Option PortMove} (hrun : IsPortRun cfg blocks moves)
include hrun

theorem IsPortRun.rest {n : Nat} (h : moves n = none) : blocks (n + 1) = blocks n := by
  simpa only [h] using hrun n

theorem IsPortRun.step {n : Nat} {m : PortMove} (h : moves n = some m) :
    portStep cfg m (blocks n) = some (blocks (n + 1)) := by
  simpa only [h] using hrun n

/-- Where some agent moves at last, the first to move finds the block as it stands now. -/
theorem IsPortRun.exists_first_move {n k : Nat} {m : PortMove} (h : moves (n + k) = some m) :
    ∃ j m', moves (n + j) = some m' ∧ blocks (n + j) = blocks n := by
  induction k generalizing n with
  | zero => exact ⟨0, m, h, rfl⟩
  | succ k ih =>
    cases hn : moves n with
    | some m' => exact ⟨0, m', hn, rfl⟩
    | none =>
      obtain ⟨j, m', hj, hblock⟩ := ih (n := n + 1) (by rwa [Nat.add_right_comm])
      have hj' : n + (j + 1) = n + 1 + j := by omega
      exact ⟨j + 1, m', by rwa [hj'], by rw [hj', hblock, hrun.rest hn]⟩

variable (hfair : FairRun blocks moves) (hreset : ∀ m, moves m ≠ some .reset)
include hfair hreset

/-- By the bound on the moves left: the first move comes nearer to the response, or is the answer. -/
theorem IsPortRun.eventuallyAnswered_of_owesResponse {n : Nat} (hph : OwesResponse (blocks n).regs.ph) :
    EventuallyAnswered blocks n := by
  induction hleft : movesLeft (blocks n).regs using Nat.strong_induction_on generalizing n with
  | _ left ih =>
    obtain ⟨k, m, hk⟩ := hfair.exists_move hph.1
    obtain ⟨j, m', hj, hblock⟩ := hrun.exists_first_move hk
    have hstep := hrun.step hj
    rw [hblock] at hstep
    rcases portStep_of_owesResponse (fun hm => hreset _ (hm ▸ hj)) hph hstep with hanswered | hnearer
    · exact ⟨j + 1, hanswered⟩
    · exact .of_later (j + 1) hnearer.history (ih _ (hleft ▸ hnearer.fewer) hnearer.owes rfl)

/-- By the moves up to the beat with `last = 1`: each goes on with the frame, or ends it. -/
theorem IsPortRun.eventuallyAnswered_of_recv {n k : Nat} {x : Beat} (hph : (blocks n).regs.ph = .recv)
    (hk : moves (n + k) = some (.request x)) (hlast : x.last = true) : EventuallyAnswered blocks n := by
  have owed {n : Nat} := hrun.eventuallyAnswered_of_owesResponse hfair hreset (n := n)
  induction k generalizing n with
  | zero =>
    obtain ⟨y, hy, hlog, hends, -⟩ := portStep_of_recv (m := .request x) nofun hph (hrun.step hk)
    obtain rfl := PortMove.request.inj hy
    exact .of_later 1 hlog (owed (hends hlast))
  | succ k ih =>
    have hk' : moves (n + 1 + k) = some (.request x) := by rwa [Nat.add_right_comm]
    cases hn : moves n with
    | none =>
      have hrest := hrun.rest hn
      exact .of_later 1 ⟨[], by rw [hrest, List.append_nil]⟩ (ih (hrest ▸ hph) hk')
    | some m =>
      obtain ⟨y, -, hlog, hends, hgoes⟩ := portStep_of_recv (fun hm => hreset n (hm ▸ hn)) hph (hrun.step hn)
      cases hy : y.last with
      | true => exact .of_later 1 hlog (owed (hends hy))
      | false => exact .of_later 1 hlog (ih (hgoes hy) hk')

end

/-- Settles O50: a frame being received ends, and a block that owes a response comes nearer to it with every move. -/
theorem fairRunsAnswer : Obligations.FairRunsAnswer := by
  intro cfg blocks moves n hrun hfair hends hreset hph
  have hanswered : EventuallyAnswered blocks n := by
    by_cases hrecv : (blocks n).regs.ph = .recv
    · obtain ⟨k, hk | ⟨x, hk, hlast⟩⟩ := hends n hrecv
      · exact absurd hk (hreset _)
      · exact hrun.eventuallyAnswered_of_recv hfair hreset hrecv hk hlast
    · exact hrun.eventuallyAnswered_of_owesResponse hfair hreset ⟨hph, hrecv⟩
  obtain ⟨k, hregs, before, g, ⟨evs, rfl⟩, hlog⟩ := hanswered
  exact ⟨k, evs, g, hregs, hlog⟩

end Sys2Proof.Machine

/-! SUPPORT. External unit proofs, part 3 (spec/43_external_units.md R154, R166, R171): the host's lookups, and the
reference digests. -/

namespace Sys2Proof.Machine

/-! The host's lookups (R166, R171) -/

/-- Every listed word is the word of an index. -/
theorem Wordlist.exists_wordAt_of_mem (wl : Wordlist) {w : String} (h : w ∈ wl.words) : ∃ i, wl.wordAt i = w := by
  obtain ⟨k, hk, rfl⟩ := List.getElem_of_mem h
  have hsize := wl.size
  have hi : (BitVec.ofNat 11 k).toNat = k := Nat.mod_eq_of_lt (by omega)
  exact ⟨BitVec.ofNat 11 k, by simp only [Wordlist.wordAt, hi]⟩

theorem Wordlist.indexOf_eq_none_iff (wl : Wordlist) (w : String) : wl.indexOf w = none ↔ w ∉ wl.words := by
  simp only [Wordlist.indexOf, Option.map_eq_none_iff, List.findIdx?_eq_none_iff, decide_eq_false_iff_not]
  exact ⟨fun h hw => h w hw rfl, fun h x hx hxw => h (hxw ▸ hx)⟩

theorem Wordlist.wordAt_of_indexOf (wl : Wordlist) {w : String} {i : Index} (h : wl.indexOf w = some i) :
    wl.wordAt i = w := by
  have hmem : w ∈ wl.words := by
    by_contra hw
    simp [(wl.indexOf_eq_none_iff w).mpr hw] at h
  obtain ⟨j, rfl⟩ := wl.exists_wordAt_of_mem hmem
  obtain rfl := Option.some.inj ((wl.indexOf_wordAt j).symm.trans h)
  rfl

theorem Wordlist.token_of_not_mem (wl : Wordlist) {w : String} (h : w ∉ wl.words) : wl.token w = ⟨0, true, 0⟩ := by
  rw [Wordlist.token, (wl.indexOf_eq_none_iff w).mpr h]

/-- Settles O45: a listed word is the word of one index, and its token carries that index. -/
theorem wordlistLookups : Obligations.WordlistLookups := by
  intro wl
  refine ⟨wl.indexOf_wordAt, fun w i => wl.wordAt_of_indexOf, fun w => ⟨fun hw => ?_, wl.token_of_not_mem⟩⟩
  obtain ⟨i, rfl⟩ := wl.exists_wordAt_of_mem hw
  exact ⟨i, wl.token_wordAt i, rfl⟩

/-! The reference digests (R154) -/

/-- Settles O43: each digest is computed by the function of R153. -/
theorem referenceDigests : Obligations.ReferenceDigests := by
  refine ⟨?_, ?_, ?_, ?_, ?_, ?_, ?_, ?_, ?_, ?_, ?_, ?_, ?_, ?_, ?_, ?_⟩ <;> decide +kernel

end Sys2Proof.Machine

/-! SUPPORT. Arithmetic proofs (spec/00_scope.md R14, R15; spec/44_arithmetic_and_absent_families.md R231): the laws of the
bit-string primitives. -/

namespace Sys2Proof.Machine

/-! Slices of a concatenation -/

theorem slice_append_left (s t : List Bool) : slice (s ++ t) 0 s.length = s := by
  rw [slice, List.drop_zero, Nat.sub_zero, List.take_left]

theorem slice_append_right (s t : List Bool) : slice (s ++ t) s.length (s.length + t.length) = t := by
  rw [slice, List.drop_left, Nat.add_sub_cancel_left, List.take_length]

/-! The bytes of a bit string -/

/-- The `k`-th group of eight bits of `bits(b)` is byte `k` of `b`. -/
theorem slice_bitsOf_byte {b : List Byte} {k : Nat} (h : k < b.length) :
    slice (bitsOf b) (8 * k) (8 * k + 8) = bin (b.getD k 0) := by
  have hgroup := congrArg (fun gs => gs.getD k []) (groups_flatMap bin_length b)
  simpa [groups, bitsOf, h] using hgroup

/-- The leading bits of `bits(b)` lie in byte 0. -/
theorem slice_bitsOf_leading {b : List Byte} {c : Nat} (hc : c ≤ 8) (h : 1 ≤ b.length) :
    slice (bitsOf b) 0 c = (bin (b.getD 0 0)).take c := by
  obtain ⟨x, xs, rfl⟩ := List.exists_cons_of_length_pos h
  rw [slice, List.drop_zero, Nat.sub_zero, bitsOf_cons, List.getD_cons_zero,
    List.take_append_of_le_length (by simpa using hc)]

theorem uint_slice_bitsOf_leading {b : List Byte} {c : Nat} (hc : c ≤ 8) (h : 1 ≤ b.length) :
    uint (slice (bitsOf b) 0 c) = (b.getD 0 0).toNat >>> (8 - c) := by
  obtain ⟨hdiv, -⟩ := uint_div_mod (bin (b.getD 0 0)) c
  rw [bin_length, uint_bin] at hdiv
  rw [slice_bitsOf_leading hc h, Nat.shiftRight_eq_div_pow, hdiv]

/-! A string put together again from its groups, each read as a number and rendered -/

theorem flatMap_bin_groups {k n : Nat} {s : List Bool} (h : s.length = k * n) :
    (groups k n s).flatMap (fun g => bin (BitVec.ofNat k (uint g))) = s := by
  have hbin : (groups k n s).map (fun g => bin (BitVec.ofNat k (uint g))) = groups k n s :=
    (List.map_congr_left fun g hg => bin_ofNat_uint (length_of_mem_groups h hg)).trans (List.map_id _)
  rw [List.flatMap_def, hbin, groups_flatten h]

theorem bitsOf_bytesOf {s : List Bool} (h : s.length % 8 = 0) : bitsOf (bytesOf s) = s := by
  have hlen : s.length = 8 * (s.length / 8) := (Nat.mul_div_cancel' (Nat.dvd_of_mod_eq_zero h)).symm
  rw [bitsOf, bytesOf, List.flatMap_map, flatMap_bin_groups hlen]

theorem eq_flatMap_bin_slices {s : List Bool} {w : Nat} (h : s.length = 11 * w) :
    s = (List.range w).flatMap fun i => bin (BitVec.ofNat 11 (uint (slice s (11 * i) (11 * i + 11)))) := by
  have hgroups := flatMap_bin_groups h
  rw [groups, List.flatMap_map] at hgroups
  exact hgroups.symm

/-- Settles O33: a string is the concatenation of its groups, and each group is the rendering of the number it spells. -/
theorem bitStringLaws : Obligations.BitStringLaws :=
  ⟨fun _ v => ⟨bin_length v, uint_bin v⟩,
    fun s => ⟨bin_ofNat_uint rfl, uint_lt s⟩,
    fun s t => ⟨List.length_append, slice_append_left s t, slice_append_right s t⟩,
    fun b => ⟨bitsOf_length b, bytesOf_bitsOf b⟩,
    fun _ => bitsOf_bytesOf,
    fun _ _ => slice_bitsOf_byte,
    fun _ _ _ => uint_slice_bitsOf_leading,
    fun _ _ => eq_flatMap_bin_slices⟩

end Sys2Proof.Machine

/-! SUPPORT. Exception proofs (spec/60_exceptions.md R186, R188, R191, R222): the fault of a reserved opcode, and the
step that always has a next state. -/

namespace Sys2Proof.Machine

/-! A whole frame with a reserved opcode (R186, R191) -/

theorem coreStep_of_reserved {run : Instr → State → Host.Outcome State Fault Refusal} {cfg : Config} {s : State}
    {h : Half} {ps : List Half} {rest : List Beat} (hph : s.regs.ph = .idle)
    (hs : splitFrame s.reqQ = some (h :: ps, rest)) (hop : reservedOp (opField h) = true) :
    coreStep run cfg s = .next (takeIllegalOp cfg (h :: ps) { s with reqQ := rest }) := by
  simp [coreStep, hph, hs, decodeWords_of_reserved hop]

/-- The response header of `ILLEGAL_OP` as a number: the nibble, then status `F` and cause `01` (R72, R74). -/
theorem illegalOp_header_eq_ofNat (h : Half) :
    opField h ++ (statusFault ++ Cause.illegalOp.code) = BitVec.ofNat 16 (h.toNat / 4096 * 4096 + 0xF01) := by
  have htail : statusFault ++ Cause.illegalOp.code = 0xF01#12 := by decide
  have hadd : (opField h).toNat <<< 12 ||| 0xF01 = (opField h).toNat <<< 12 + 0xF01 :=
    (Nat.shiftLeft_add_eq_or_of_lt (by decide) _).symm
  have hlt := h.isLt
  rw [htail, ← BitVec.toNat_inj, BitVec.toNat_append, BitVec.toNat_ofNat, BitVec.toNat_ofNat,
    Nat.mod_eq_of_lt (a := 0xF01) (by decide), hadd, Nat.shiftLeft_eq, opField_toNat]
  omega

theorem takeIllegalOp_of_ready (cfg : Config) (h : Half) (ps : List Half) (s : State) (hready : 1 ≤ s.rspReady) :
    takeIllegalOp cfg (h :: ps) s = afterFrame s 1
      [.req (markLast (h :: ps)), .rsp (oneBeat (BitVec.ofNat 16 (h.toNat / 4096 * 4096 + 0xF01)))] := by
  rw [← illegalOp_header_eq_ofNat]
  exact settle_raise_received cfg _ rfl s .illegalOp hready

/-- Settles O7: the offered frame is split off and refused by the decoder, so the core's move is to take `ILLEGAL_OP`,
whose one beat the host accepts. -/
theorem reservedOpcodeFaults : Obligations.ReservedOpcodeFaults := by
  intro s h ps rest hr hph hready hop hq
  have hs : splitFrame s.reqQ = some (h :: ps, rest) := (splitFrame_eq_some_iff _ _ _ _).mpr hq
  have hres : reservedOp (opField h) = true := (reservedOp_eq_true_iff _).mpr (by rwa [opField_toNat])
  have he : coreEnabled s = true := by
    have hne : s.reqQ ≠ [] := fun hnil => by simp [hnil, splitFrame] at hs
    simpa [coreEnabled, hph] using hne
  rw [step_of_enabled s hr he, coreStep_of_reserved hph hs hres,
    takeIllegalOp_of_ready platformConfig h ps { s with reqQ := rest } hready]

/-! Every move has a next state (R188, R222) -/

/-- A fault of an operation is a response, and a busy block ignores the operation. -/
theorem exists_execUnder_eq_next (cfg : Config) (i : Instr) (s : State) : ∃ t, execUnder cfg i s = .next t := by
  by_cases hph : s.regs.ph = .idle
  · exact ⟨_, execUnder_of_idle cfg i s hph⟩
  · exact ⟨_, execUnder_of_busy cfg i s hph⟩

/-- The core's move is an operation, `ILLEGAL_OP`, or a step of the sequencer. -/
theorem exists_coreStep_eq_next {run : Instr → State → Host.Outcome State Fault Refusal}
    (hrun : ∀ i s, ∃ t, run i s = .next t) (cfg : Config) (s : State) : ∃ t, coreStep run cfg s = .next t := by
  unfold coreStep
  split_ifs
  · split
    next h ps rest _ =>
      split
      next i _ => exact hrun i { s with reqQ := rest }
      next => exact ⟨_, rfl⟩
    next => exact ⟨_, rfl⟩
  · exact ⟨_, rfl⟩

theorem step_of_reset (s : State) (hr : s.rst = true) : step s = .next (resetStep s) := by
  simp [step, laneMove, hr]

/-- Settles O8, by the three kinds of move: reset, the core's, and another agent's while the core waits. -/
theorem stepAlwaysHasNextState : Obligations.StepAlwaysHasNextState := by
  intro s
  have hexec (i : Instr) (s : State) : ∃ t, exec i s = .next t :=
    exec_eq_execUnder i s ▸ exists_execUnder_eq_next platformConfig i s
  cases hr : s.rst with
  | true => exact ⟨resetStep s, step_of_reset s hr⟩
  | false =>
    cases he : coreEnabled s with
    | true => exact step_of_enabled s hr he ▸ exists_coreStep_eq_next hexec platformConfig s
    | false => exact ⟨waitStep s, step_of_waiting s hr he⟩

end Sys2Proof.Machine

/-! SUPPORT. Reset and hazard proofs (spec/70_reset_and_hazards.md R210, R212, R222): the waits of the core, what another
agent's move leaves alone, and the reset step. -/

namespace Sys2Proof.Machine

/-! The waits (R222) -/

/-- The five waits: what the phase waits for is not there. -/
theorem coreEnabled_eq_false_iff (s : State) : coreEnabled s = false ↔
    (s.regs.ph = .idle ∧ s.reqQ = []) ∨ (s.regs.ph = .recv ∧ s.reqQ = []) ∨ (s.regs.ph = .rngw ∧ s.entQ = []) ∨
      (s.regs.ph = .hashw ∧ s.digQ = []) ∨ (s.regs.ph = .emit ∧ s.rspReady = 0) := by
  cases hph : s.regs.ph <;> simp [coreEnabled, hph]

theorem waitStep_of_still {s : State} (henv : s.env = []) : waitStep s = s := by
  simp [waitStep, henv]

theorem applyMove_env (m : EnvMove) (s : State) : (applyMove m s).env = s.env := by
  cases m <;> rfl

theorem waitStep_env (s : State) : (waitStep s).env = s.env.tail := by
  cases henv : s.env with
  | nil => rw [waitStep_of_still henv, henv, List.tail_nil]
  | cons m rest => simp [waitStep, henv, applyMove_env]

/-- A state that steps to itself is where every number of steps leads. -/
theorem run_of_step_eq_self {M : Host.Core} {s : M.State} (h : M.step s = .next s) : ∀ k, M.run k s = .next s
  | 0 => rfl
  | k + 1 => by simp only [Host.Core.run, h, run_of_step_eq_self h k]

/-- Settles O9: in each of the five waits no core step is enabled, and with no coming move the step leads to the same
state. -/
theorem waitingLastsForEver : Obligations.WaitingLastsForEver := by
  intro s k hr henv hwait
  have hstep : step s = .next s := by
    rw [step_of_waiting s hr ((coreEnabled_eq_false_iff s).mpr hwait), waitStep_of_still henv]
  exact run_of_step_eq_self (M := Sys2Proof.core) hstep k

/-- Settles O10: the move is on the agents' side, and registers, history and moved beats are the block's. -/
theorem waitingChangesNoRegister : Obligations.WaitingChangesNoRegister := by
  intro s hr he
  have hblock := waitStep_toBlock s
  exact ⟨waitStep s, step_of_waiting s hr he, congrArg Block.regs hblock, congrArg Block.log hblock,
    congrArg Block.reqSeen hblock, congrArg Block.rspSent hblock, waitStep_env s⟩

/-! Reset (R210, R212) -/

/-- Settles O35: reset comes before every other move, in any phase, and `resetStep` is the state it names. -/
theorem resetFromAnyState : Obligations.ResetFromAnyState := step_of_reset

end Sys2Proof.Machine
